-- ==== Sys2Proof/Word.lean ====
section
/-!
DEFINITION. The word types of the MXINT4 block (00_scope R9: bit 0 is the least significant bit). What is computed
with them stands in Machine/Operands.lean.
-/
namespace Sys2Proof

/-- One byte: an element of `PW`, `SC` or `ACT`, a cell of a cache, an op code (20_memory R60, 30_encoding R102). -/
abbrev Byte := BitVec 8

/-- One 32-bit word: an element of `WF` or `OUT`, a dimension, a length (10_state R35, 20_memory R60). -/
abbrev Word := BitVec 32

end Sys2Proof
end

