-- ==== Sys2Proof/Config.lean ====
section
/-!
DEFINITION. What is fixed for one machine: the parameters of 00_scope R5 with their values for this hardware, and the
free values, which have no body because the spec leaves them open.
-/
namespace Sys2Proof

/-- Which integer an exact half rounds to (00_scope R5, R11; 40_quantization_codec R127). -/
inductive Tie where
  /-- The one farther from zero. -/
  | away
  /-- The even one. -/
  | even
  deriving DecidableEq, Repr

/-- The compile-time parameters that the spec leaves open (92_eei_decisions section 5), as 00_scope R5 names them.
R5's other widths have one value each (nibble 4, scale 2, activation 8, accumulator 32) and are the widths of the
types. -/
structure Params where
  peRows : Nat
  peCols : Nat
  capM : Nat
  capK : Nat
  capN : Nat
  tie : Tie
  /-- `DQ_BITS`, the width of a dequantized weight: 8 or 10 (93_implementation_defined U11). -/
  dqBits : Nat
  deriving DecidableEq, Repr

/-- The values of 00_scope R5 for this hardware. The meanings take the parameters as an argument and `exec` gives
them these. -/
def Config.params : Params :=
  { peRows := 16, peCols := 16, capM := 128, capK := 4096, capN := 512, tie := .away, dqBits := 8 }

/-- The byte that address `a` of buffer number `b` holds until a step writes it: "whatever the host left"
(10_state R49; log 11). -/
opaque Config.initialByte : Nat → Nat → Byte

/-- What a host read of `DQ_OUT` finds before any DEQ since the `n`-th reset: "any value"
(93_implementation_defined U8; log 9). -/
opaque Config.freeDqOut : Nat → Byte

/-- Whether a reset that abandons a command (the `n`-th reset) finds element `i` of output buffer number `b`
already written: "element by element" (70_reset R260, 93_implementation_defined U13; log 13). -/
opaque Config.resetFindsWritten : Nat → Nat → Nat → Bool

/-- What the `n`-th reset leaves in byte `a` of output buffer number `b` when it abandons a command that has no result,
being out of contract (70_reset R260, 40_quantization_codec R134; log 13). -/
opaque Config.resetContent : Nat → Nat → Nat → Byte

end Sys2Proof
end

