-- ==== Sys2Proof/Syntax.lean ====
section
/-!
DEFINITION. The operations of the block, one constructor for each row of spec/opcode_table.json (30_encoding R103).
No operation has an operand field: "All operands come from control registers" (R102, R106), and those of a
micro-operation from the sequencer (10_state R42).
-/
namespace Sys2Proof

/-- The fourteen operations of 30_encoding R103. -/
inductive Instr where
  /-- QUANT, 0x01, CMD8 (40_quantization_codec R131). -/
  | quant
  /-- DEQ, 0x02, CMD8 (41_dequantization R161). -/
  | deq
  /-- GEMM, 0x03, CMD8 (43_tiled_engine R190). -/
  | gemm
  /-- QSCALE, 0x10, UOP8 (R122); the group number is `SEQ_G`. -/
  | qscale
  /-- QPAIR, 0x11, UOP8 (R126); the group number is `SEQ_G`, the pair number `SEQ_I`. -/
  | qpair
  /-- NIBSEL, 0x20, UOP8 (R151); the byte is `DQ_BYTE`, the select `DQ_SEL`. -/
  | nibsel
  /-- CHECK, 0x30, UOP8 (R182, R137); the op code is the one in `CMD`. -/
  | check
  /-- LOADA, 0x31, UOP8 (R183). -/
  | loada
  /-- LOADW, 0x32, UOP8 (R184). -/
  | loadw
  /-- TCOPY, 0x33, UOP8 (R185); the tile pair is `SEQ_MT`, `SEQ_NT`. -/
  | tcopy
  /-- ACLR, 0x34, UOP8 (R186). -/
  | aclr
  /-- MAC, 0x35, UOP8 (R187); the reduction index is `SEQ_K`. -/
  | mac
  /-- TSTORE, 0x36, UOP8 (R188); the tile pair is `SEQ_MT`, `SEQ_NT`. -/
  | tstore
  /-- TILE, 0x37, UOP8 (R189); the tile pair is `SEQ_MT`, `SEQ_NT`. -/
  | tile
  deriving DecidableEq, Repr

/-- The format CMD8: the operations a host write of `CMD` can start (30_encoding R103, R104). -/
def Instr.issuable : Instr → Bool
  | .quant | .deq | .gemm => true
  | .qscale | .qpair | .nibsel | .check | .loada | .loadw | .tcopy | .aclr | .mac | .tstore | .tile => false

/-- The sixteen control registers of 10_state R35. -/
inductive CtrlReg where
  | cmd | status | cause | dimM | dimK | dimN | dimG | dqByte | dqSel | dqScale | dqOut
  | lenWF | lenPW | lenSC | lenACT | lenOUT
  deriving DecidableEq, Repr

/-- Register number of 10_state R35. -/
def CtrlReg.number : CtrlReg → Nat
  | .cmd => 0 | .status => 1 | .cause => 2 | .dimM => 3 | .dimK => 4 | .dimN => 5 | .dimG => 6
  | .dqByte => 7 | .dqSel => 8 | .dqScale => 9 | .dqOut => 10
  | .lenWF => 11 | .lenPW => 12 | .lenSC => 13 | .lenACT => 14 | .lenOUT => 15

/-- The register of a number, none beyond the sixteen-entry space (20_memory R60). -/
def CtrlReg.ofNumber? : Nat → Option CtrlReg
  | 0 => some .cmd | 1 => some .status | 2 => some .cause | 3 => some .dimM | 4 => some .dimK
  | 5 => some .dimN | 6 => some .dimG | 7 => some .dqByte | 8 => some .dqSel | 9 => some .dqScale
  | 10 => some .dqOut | 11 => some .lenWF | 12 => some .lenPW | 13 => some .lenSC
  | 14 => some .lenACT | 15 => some .lenOUT
  | _ => none

/-- The five external buffers, each an address space of its own (20_memory R60). -/
inductive Buf where
  | wf | pw | sc | act | out
  deriving DecidableEq, Repr

/-- The five on-chip arrays (10_state R27 to R31). -/
inductive Arr where
  | acache | wcache | awork | wwork | acc
  deriving DecidableEq, Repr

/-- What the host can do, in the notation of 30_encoding R107, with the reset event of 70_reset R260.
`block` is no action of the host: it says that the block, not the host, takes the next step (log 1). -/
inductive HostEvent where
  /-- `WR <reg>, <value>`. -/
  | wr (r : CtrlReg) (v : Nat)
  /-- `RD <reg>`. -/
  | rd (r : CtrlReg)
  /-- `ST <buf>[i], <value>`. -/
  | st (b : Buf) (i : Nat) (v : Nat)
  /-- `LD <buf>[i]`. -/
  | ld (b : Buf) (i : Nat)
  /-- `WAIT`: the host reads `STATUS` until it is not BUSY. -/
  | wait
  /-- The reset event. -/
  | reset
  /-- The block takes one step. -/
  | block
  deriving DecidableEq, Repr

end Sys2Proof
end

