-- ==== Sys2Proof/WellFormed.lean ====
section
/-!
DEFINITION. What is well formed: an operation, an op code, a command byte, a host action, and a set of parameters.
-/
namespace Sys2Proof

/-- An operation has no field, so every one is well formed (30_encoding R102, R105). -/
def Instr.wf : Instr → Bool
  | .quant | .deq | .gemm | .qscale | .qpair | .nibsel | .check | .loada | .loadw | .tcopy | .aclr | .mac
  | .tstore | .tile => true

/-- A byte that is a legal command: 0x01, 0x02 or 0x03, and nothing else (30_encoding R104). -/
def commandByteWf (op : Byte) : Bool := op = 0x01 || op = 0x02 || op = 0x03

/-- The host may write a buffer element or a register wider than it is (10_state R35); what is ill formed is a write of
a buffer index that no 32-bit length can hold (10_state R26). -/
def HostEvent.wf : HostEvent → Bool
  | .st _ i _ => i < 2 ^ 32
  | .ld _ i => i < 2 ^ 32
  | .wr _ _ | .rd _ | .wait | .reset | .block => true

/-- The constraints of 00_scope R5 on the constants; with 10-bit weights the accumulator is safe up to a smaller
`CAP_K` (93_implementation_defined U1, U11). -/
def Params.wf (p : Params) : Bool :=
  1 ≤ p.peRows && 1 ≤ p.peCols && p.capM % p.peRows = 0 && p.capN % p.peCols = 0 &&
  p.capK % p.peRows = 0 && p.capK % p.peCols = 0 &&
  ((p.dqBits = 8 && p.capK ≤ 131071) || (p.dqBits = 10 && p.capK ≤ 32767))

end Sys2Proof
end

