-- ==== Sys2Proof/Decode.lean ====
section
/-!
DEFINITION. Decoding op codes (30_encoding R102 to R105, spec/opcode_table.json) and, after it, encoding.
-/
namespace Sys2Proof

/-- Why a list of bytes holds no operation. -/
inductive DecodeError where
  /-- There is no byte to read. -/
  | noByte
  /-- The byte is none of the fourteen op codes of 30_encoding R103. -/
  | reservedCode (op : Byte)
  deriving DecidableEq, Repr

/-- The op code map of 30_encoding R103. -/
def opTable : List (Byte × Instr) :=
  [(0x01, .quant), (0x02, .deq), (0x03, .gemm)] ++
  [(0x10, .qscale), (0x11, .qpair), (0x20, .nibsel)] ++
  [(0x30, .check), (0x31, .loada), (0x32, .loadw), (0x33, .tcopy), (0x34, .aclr), (0x35, .mac),
   (0x36, .tstore), (0x37, .tile)]

/-- The first row of a table that holds this op code. -/
def lookupOp (op : Byte) : List (Byte × Instr) → Option Instr
  | [] => none
  | (c, i) :: rest => if op = c then some i else lookupOp op rest

/-- One op code (30_encoding R103). -/
def decodeOp (op : Byte) : Option Instr := lookupOp op opTable

/-- Any bytes: "Every command is one byte" (30_encoding R105); the rest is left over. -/
def decode : List Byte → Except DecodeError (Instr × List Byte)
  | [] => .error .noByte
  | op :: rest =>
    match decodeOp op with
    | some i => .ok (i, rest)
    | none => .error (.reservedCode op)

/-- What a host write of `CMD` starts: the three CMD8 operations, every other byte being illegal
(30_encoding R104). -/
def decodeCmd (op : Byte) : Option Instr :=
  match decodeOp op with
  | some i => if i.issuable then some i else none
  | none => none

/-- The operation in `nbits` bits numbered as spec/opcode_table.json numbers them: every operation is the one byte
in bits 7:0 (30_encoding R102). -/
def decodeTableWord (nbits w : Nat) : Option Instr :=
  match decode (if 8 ≤ nbits then [BitVec.ofNat 8 w] else []) with
  | .ok (i, _) => some i
  | .error _ => none

/-- The op code of an operation, written from the table of 30_encoding R103. -/
def encodeOp : Instr → Byte
  | .quant => 0x01
  | .deq => 0x02
  | .gemm => 0x03
  | .qscale => 0x10
  | .qpair => 0x11
  | .nibsel => 0x20
  | .check => 0x30
  | .loada => 0x31
  | .loadw => 0x32
  | .tcopy => 0x33
  | .aclr => 0x34
  | .mac => 0x35
  | .tstore => 0x36
  | .tile => 0x37

/-- The bytes of an operation. -/
def encode (i : Instr) : List Byte := [encodeOp i]

end Sys2Proof
end

