-- ==== Sys2Proof/Machine/State.lean ====
section
/-!
DEFINITION. The complete state of the block (10_state R20) and of the model's surroundings of it, the ways a step can
stop, and the state after reset (10_state R49). Plain data throughout.
-/
namespace Sys2Proof.Machine

/-- A sparse array: the cells that have been written, by rising address. What a cell that is not listed holds is said
where the array stands: of an on-chip array no value (10_state R45; log 10), of a buffer the byte the host left
(10_state R49; log 11). -/
abbrev Cells (w : Nat) := List (Nat × BitVec w)

/-- An external buffer laid out in bytes: byte `j` of element `i` of an `n`-byte-element buffer is at `n * i + j`,
little-endian (20_memory R62; log 12). A byte that is not listed holds `Config.initialByte`. -/
abbrev Memory := List Host.Cell

/-- `STATUS` (10_state R37). -/
inductive Status where
  | idle | busy | done | rejected
  deriving DecidableEq, Repr

/-- `CAUSE` (10_state R38, 60_exceptions R231). -/
inductive Cause where
  | none | illegalOp | dimRange | groupSize | tileDivisibility | groupDivisibility | bufferLength
  deriving DecidableEq, Repr

/-- `PHASE` (10_state R42). -/
inductive Phase where
  | idle | check | quant | deq | preload | tiles
  deriving DecidableEq, Repr

/-- The sixteen control registers (10_state R35), and whether `DQ_OUT` has been written since reset (R45). -/
structure Regs where
  cmd : Byte
  status : Status
  cause : Cause
  dimM : Word
  dimK : Word
  dimN : Word
  dimG : Word
  dqByte : Byte
  dqSel : BitVec 1
  dqScale : Byte
  dqOut : Byte
  dqOutSet : Bool
  lenWF : Word
  lenPW : Word
  lenSC : Word
  lenACT : Word
  lenOUT : Word
  deriving DecidableEq, Repr

/-- The five external buffers (10_state R21 to R25). -/
structure Bufs where
  wf : Memory
  pw : Memory
  sc : Memory
  act : Memory
  out : Memory
  deriving DecidableEq, Repr

/-- The scratch state: the on-chip arrays (10_state R27 to R31; a cell of the weight arrays is wide enough for either
value of `DQ_BITS` and holds its value sign-extended, 41_dequantization R158, log 16), `QS` (R48) with whether it has
been written since reset (R45), and the model's latch for the result of NIBSEL (41_dequantization R151; log 5). -/
structure Scratch where
  acache : Cells 8
  wcache : Cells 10
  awork : Cells 8
  wwork : Cells 10
  acc : Cells 32
  qs : BitVec 2
  qsSet : Bool
  nib : Byte
  deriving DecidableEq, Repr

/-- The four dimensions of a command (10_state R39), as CHECK latches them (43_tiled_engine R182). -/
structure Dims where
  m : Word
  k : Word
  n : Word
  g : Word
  deriving DecidableEq, Repr

/-- The sequencer (10_state R42), with the latched dimensions (43_tiled_engine R182; log 6) and the model's own
fields: the codec's group and pair numbers and the op code issued next (log 4). -/
structure Seq where
  phase : Phase
  mt : Word
  nt : Word
  k : Word
  p1Done : Bool
  p2Done : Bool
  lat : Dims
  g : Word
  i : Word
  issue : Option Byte
  deriving DecidableEq, Repr

/-- How a command is carried out, a choice of schedule that no result depends on (20_memory R74, 10_state R44;
log 2): whole in one step, tile by tile, or micro-operation by micro-operation. -/
inductive Grain where
  | command | tile | micro
  deriving DecidableEq, Repr

/-- What surrounds the block: the host's actions still to come (log 1), the values it has read, newest first
(log 23), the grain of the schedule (log 2), the buffers as they stood at the last `CMD` write (log 13), and the
number of resets so far, which the free values are drawn with (log 9, 13). -/
structure Env where
  script : List HostEvent
  seen : List Word
  grain : Grain
  atStart : Bufs
  resets : Nat
  deriving DecidableEq, Repr

/-- The machine. -/
structure State where
  regs : Regs
  bufs : Bufs
  scr : Scratch
  seq : Seq
  env : Env
  deriving DecidableEq, Repr

/-- Where the MODEL stops because an access has no value or no place. The block itself has no fault (60_exceptions
R230); no valid invocation reaches one of these (10_state R45, 20_memory R61). -/
inductive Fault where
  /-- Raised by TCOPY, MAC, TSTORE and TILE on a cell of an on-chip array that nothing has written since reset or
  since the start of the invocation: "treat as `fault` of the model" (10_state R45, 93 U8). Safe. -/
  | unwrittenCell (a : Arr)
  /-- Raised by QPAIR when no QSCALE has written `QS` since reset (10_state R45, 93 U8). Safe. -/
  | unwrittenQS
  /-- Raised by an access to a cell beyond the capacity of an on-chip array (10_state R27 to R31). Safe. -/
  | noSuchCell (a : Arr)
  /-- Raised by an access to a buffer element at or beyond the buffer's length register, or beyond any 32-bit length:
  no such element exists (20_memory R60, R61; log 18). Safe. -/
  | outOfRange (b : Buf)
  /-- Raised by QSCALE, QPAIR, TCOPY, MAC, TSTORE and TILE when the group, pair, tile or reduction number is outside
  the range its rule states (40 R122, R126; 43 R185, R187, R188; log 17). Safe. -/
  | operandRange
  /-- Raised by LOADW issued with the latched `G` zero: `a div b` is defined for `b > 0` only (00_scope R10;
  log 28). Safe. -/
  | zeroDivisor
  /-- Raised by the step when the op code issued is none of 30_encoding R103. Safe. -/
  | unknownOp (op : Byte)
  /-- Raised by the step when the block is BUSY and its sequencer has issued nothing; no run from a state that keeps
  the sequencer's invariant reaches it. Safe. -/
  | nothingIssued
  deriving DecidableEq, Repr

/-- What the model gives no meaning, as the spec asks ("treatment `refuse`"). -/
inductive Refusal where
  /-- An arm of `exec` that has no meaning yet. Safe. -/
  | notModelled (mnemonic : String)
  /-- Raised by QSCALE, QPAIR and QUANT on a NaN or an infinity in `WF` (40 R134, 93 U7). Safe. -/
  | nonFiniteWeight
  /-- Raised by MAC, TILE and GEMM on an accumulator addition that leaves the signed 32-bit range (43 R194, 93 U1).
  Safe. -/
  | accOverflow
  /-- Raised by the host's write of a control register while BUSY (70 R266, 93 U10). Safe. -/
  | registerWriteWhileBusy
  /-- Raised by the host's read or write of a buffer element while BUSY, and by its read of `DQ_OUT` while a DEQ runs
  (30 R107, 10 R47, 70 R264, R265, 93 U10; log 14). Safe. -/
  | accessWhileBusy
  deriving DecidableEq, Repr

/-- The control registers after reset (10_state R49; `DQ_OUT`: log 9). -/
def Regs.reset : Regs :=
  { cmd := 0, status := .idle, cause := .none, dimM := 0, dimK := 0, dimN := 0, dimG := 0,
    dqByte := 0, dqSel := 0, dqScale := 0, dqOut := 0, dqOutSet := false,
    lenWF := 0, lenPW := 0, lenSC := 0, lenACT := 0, lenOUT := 0 }

/-- Buffers that hold whatever the host left (10_state R49; log 11). -/
def Bufs.unknown : Bufs := { wf := [], pw := [], sc := [], act := [], out := [] }

/-- The scratch state after reset: no value (10_state R45, R49; `QS`: log 8; the latch: log 5). -/
def Scratch.reset : Scratch :=
  { acache := [], wcache := [], awork := [], wwork := [], acc := [], qs := 0, qsSet := false, nib := 0 }

/-- The sequencer after reset (10_state R49; the model's own fields: log 4, 6). -/
def Seq.reset : Seq :=
  { phase := .idle, mt := 0, nt := 0, k := 0, p1Done := false, p2Done := false,
    lat := { m := 0, k := 0, n := 0, g := 0 }, g := 0, i := 0, issue := none }

/-- The surroundings after reset: no host action yet (log 1). -/
def Env.reset : Env :=
  { script := [], seen := [], grain := .micro, atStart := Bufs.unknown, resets := 0 }

/-- The machine right after reset (10_state R49, 70_reset R260). -/
def State.reset : State :=
  { regs := Regs.reset, bufs := Bufs.unknown, scr := Scratch.reset, seq := Seq.reset, env := Env.reset }

end Sys2Proof.Machine
end

