-- ==== Sys2Proof/Machine/Ops.lean ====
section
/-!
DEFINITION. The named operations over sparse arrays, buffers and registers, the way outcomes are chained, the start
and the end of a command, and the one exception of the block, Reject (60_exceptions R230, R234).
-/
namespace Sys2Proof.Machine

/-- The outcome of an operation on the state. -/
abbrev Run := Host.Outcome State Fault Refusal

/-- One operation after another; the first fault or refusal ends it. -/
def andThen (r : Run) (f : State → Run) : Run :=
  match r with
  | .next s => f s
  | .fault e => .fault e
  | .refused e => .refused e

/-- Go on if the condition holds, else stop with a fault. -/
@[inline] def demand (c : Bool) (e : Fault) (r : Run) : Run :=
  match c with
  | true => r
  | false => .fault e

/-- Go on unless the condition holds, in which case the operation has no meaning. -/
@[inline] def refuseIf (c : Bool) (e : Refusal) (r : Run) : Run :=
  match c with
  | true => .refused e
  | false => r

/-- `body i` for `i`, `i + 1`, …, `n` times, one after the other (00_scope R12 `for x = a .. b`). -/
def loopFrom (body : Nat → State → Run) : Nat → Nat → State → Run
  | 0, _, s => .next s
  | n + 1, i, s => andThen (body i s) (loopFrom body n (i + 1))

/-- `for i = 0 .. n-1`. -/
def loop (n : Nat) (body : Nat → State → Run) (s : State) : Run := loopFrom body n 0 s

/-! ### Sparse arrays -/

/-- The value of a cell, if it holds one. -/
def cellGet {w : Nat} : Cells w → Nat → Option (BitVec w)
  | [], _ => none
  | (k, v) :: m, a => if a = k then some v else cellGet m a

/-- Write one cell, keeping addresses rising. -/
def cellSet {w : Nat} : Cells w → Nat → BitVec w → Cells w
  | [], a, v => [(a, v)]
  | (k, x) :: m, a, v =>
    if a < k then (a, v) :: (k, x) :: m
    else if a = k then (a, v) :: m
    else (k, x) :: cellSet m a v

/-- Write a list of cells with distinct addresses. The order does not matter (20_memory R73); the last is written
first, which is quickest for rising addresses. -/
def cellStore {w : Nat} (m : Cells w) (kvs : List (Nat × BitVec w)) : Cells w :=
  kvs.foldr (fun p acc => cellSet acc p.1 p.2) m

/-- Whether a cell holds a value. -/
def cellHas {w : Nat} (m : Cells w) (a : Nat) : Bool := (cellGet m a).isSome

/-- The value of a cell that `cellHas` has been asked about. -/
def cellVal {w : Nat} (m : Cells w) (a : Nat) : BitVec w := (cellGet m a).getD 0

/-- Addresses strictly rise, the first at least `lo`. -/
def cellsFrom {w : Nat} : Nat → Cells w → Bool
  | _, [] => true
  | lo, (k, _) :: m => decide (lo ≤ k) && cellsFrom (k + 1) m

/-- The canonical form of a sparse array: addresses strictly rise. What an unlisted cell reads as is no value or a free
value, so no entry is known to equal it and none is left out (log 11). -/
def cellsWf {w : Nat} (m : Cells w) : Bool := cellsFrom 0 m

/-- The canonical form of a buffer. -/
def Memory.wf (m : Memory) : Bool := cellsWf (w := 8) m

/-- `f x y` for `x < a` and `y < b`, row by row. -/
def grid {α : Type} (a b : Nat) (f : Nat → Nat → α) : List α :=
  (List.range a).flatMap fun x => (List.range b).map (f x)

/-- Whether `p x y` holds for all `x < a` and `y < b`. -/
def allGrid (a b : Nat) (p : Nat → Nat → Bool) : Bool :=
  (List.range a).all fun x => (List.range b).all (p x)

/-! ### External buffers (20_memory R60, R61, R62, R65) -/

/-- The bytes of one buffer. -/
def Bufs.get (m : Bufs) : Buf → Memory
  | .wf => m.wf
  | .pw => m.pw
  | .sc => m.sc
  | .act => m.act
  | .out => m.out

/-- The five buffers with the bytes of one replaced. -/
def Bufs.put (m : Bufs) (b : Buf) (x : Memory) : Bufs :=
  match b with
  | .wf => { m with wf := x }
  | .pw => { m with pw := x }
  | .sc => { m with sc := x }
  | .act => { m with act := x }
  | .out => { m with out := x }

/-- The element size of a buffer in bytes (00_scope R12). -/
def elemSize : Buf → Nat
  | .wf => 4
  | .pw => 1
  | .sc => 1
  | .act => 1
  | .out => 4

/-- The number a buffer goes by in the free values of Config. -/
def bufNumber : Buf → Nat
  | .wf => 0
  | .pw => 1
  | .sc => 2
  | .act => 3
  | .out => 4

/-- The byte at an address of a buffer: what was last written there, else what the host left (10_state R49, 20_memory
R65; log 11). -/
def Bufs.byte (m : Bufs) (b : Buf) (a : Nat) : Byte :=
  (cellGet (w := 8) (m.get b) a).getD (Config.initialByte (bufNumber b) a)

/-- A 4-byte element, byte 0 its bits 7:0 (20_memory R62). -/
def Bufs.word (m : Bufs) (b : Buf) (i : Nat) : Word :=
  m.byte b (4 * i + 3) ++ m.byte b (4 * i + 2) ++ m.byte b (4 * i + 1) ++ m.byte b (4 * i)

/-- The four bytes of a 4-byte element, with their addresses. -/
def bytes32 (i : Nat) (v : Word) : List (Nat × Byte) :=
  [(4 * i, v.extractLsb' 0 8), (4 * i + 1, v.extractLsb' 8 8), (4 * i + 2, v.extractLsb' 16 8),
   (4 * i + 3, v.extractLsb' 24 8)]

/-- Element `i` of a buffer as the host's `LD` lists it among the 32-bit values it has read. DESIGN CHOICE (log 30): the
spec says nothing of how a one-byte element looks in a wider word; the model puts zeros above it, for a signed `ACT`
element too. -/
def Bufs.elem (m : Bufs) (b : Buf) (i : Nat) : Word :=
  if elemSize b = 4 then m.word b i else (m.byte b i).setWidth 32

/-- `MemWrite(S[i], n, v)`: the whole element is written (20_memory R65), its low bits if `v` is wider. -/
def elemPut (b : Buf) (m : Memory) (i : Nat) (v : Word) : Memory :=
  if elemSize b = 4 then cellStore (w := 8) m (bytes32 i v) else cellSet (w := 8) m i (v.setWidth 8)

/-- The length register of a buffer (10_state R26). -/
def Regs.len (r : Regs) : Buf → Nat
  | .wf => r.lenWF.toNat
  | .pw => r.lenPW.toNat
  | .sc => r.lenSC.toNat
  | .act => r.lenACT.toNat
  | .out => r.lenOUT.toNat

/-! ### Codes and control registers (10_state R35 to R40) -/

/-- The number of a status (10_state R37). -/
def Status.code : Status → Word
  | .idle => 0
  | .busy => 1
  | .done => 2
  | .rejected => 3

/-- The number of a cause (60_exceptions R231). -/
def Cause.code : Cause → Word
  | .none => 0
  | .illegalOp => 1
  | .dimRange => 2
  | .groupSize => 3
  | .tileDivisibility => 4
  | .groupDivisibility => 5
  | .bufferLength => 6

/-- What the host reads of `DQ_OUT`: the last DEQ's result, or any value before the first (93 U8). -/
def dqOutView (s : State) : Byte :=
  if s.regs.dqOutSet then s.regs.dqOut else Config.freeDqOut s.env.resets

/-- `x[i]` as the host reads it (10_state R35): `CMD` reads 0, `DQ_OUT` is sign-extended (R40), every other register
is unsigned. -/
def readReg (s : State) : CtrlReg → Word
  | .cmd => 0
  | .status => s.regs.status.code
  | .cause => s.regs.cause.code
  | .dimM => s.regs.dimM
  | .dimK => s.regs.dimK
  | .dimN => s.regs.dimN
  | .dimG => s.regs.dimG
  | .dqByte => s.regs.dqByte.setWidth 32
  | .dqSel => s.regs.dqSel.setWidth 32
  | .dqScale => s.regs.dqScale.setWidth 32
  | .dqOut => (dqOutView s).signExtend 32
  | .lenWF => s.regs.lenWF
  | .lenPW => s.regs.lenPW
  | .lenSC => s.regs.lenSC
  | .lenACT => s.regs.lenACT
  | .lenOUT => s.regs.lenOUT

/-- `x[i] <- v` by the host for a register whose write stores a value (10_state R35): the low bits of a wide value are
kept, a read-only register keeps its value. `CMD` is not written here: see `startCommand`. -/
def writeReg (r : Regs) (x : CtrlReg) (v : Nat) : Regs :=
  match x with
  | .cmd | .status | .cause | .dqOut => r
  | .dimM => { r with dimM := BitVec.ofNat 32 v }
  | .dimK => { r with dimK := BitVec.ofNat 32 v }
  | .dimN => { r with dimN := BitVec.ofNat 32 v }
  | .dimG => { r with dimG := BitVec.ofNat 32 v }
  | .dqByte => { r with dqByte := BitVec.ofNat 8 v }
  | .dqSel => { r with dqSel := BitVec.ofNat 1 v }
  | .dqScale => { r with dqScale := BitVec.ofNat 8 v }
  | .lenWF => { r with lenWF := BitVec.ofNat 32 v }
  | .lenPW => { r with lenPW := BitVec.ofNat 32 v }
  | .lenSC => { r with lenSC := BitVec.ofNat 32 v }
  | .lenACT => { r with lenACT := BitVec.ofNat 32 v }
  | .lenOUT => { r with lenOUT := BitVec.ofNat 32 v }

/-! ### A command's start and end, and the exception -/

/-- What a write of `CMD` does before the command's own rule (10_state R36, R43): `STATUS <- BUSY`, `CAUSE <- NONE`,
`PHASE <- CHECK`. `CMD` holds the op code while the command runs (log 7), and the buffers are noted for a reset in
mid-command (log 13). -/
def startCommand (op : Byte) (s : State) : State :=
  { s with
    regs := { s.regs with cmd := op, status := .busy, cause := .none }
    seq := { s.seq with phase := .check }
    env := { s.env with atStart := s.bufs } }

/-- The end of a command that has not been rejected: `PHASE <- IDLE ; STATUS <- DONE` (40 R131, 41 R161, 43 R190). -/
def finish (s : State) : State :=
  { s with
    regs := { s.regs with cmd := 0, status := .done }
    seq := { s.seq with phase := .idle } }

/-- `raise Reject(cause)`, the one exception of the block (60_exceptions R234): `CAUSE <- cause`,
`STATUS <- REJECTED`, `PHASE <- IDLE`, nothing else. `CMD` keeps no value when the command ends (10_state R36).
There is no return operation: the next `startCommand` clears `CAUSE` and `STATUS` (60_exceptions R235). -/
def raiseReject (c : Cause) (s : State) : State :=
  { s with
    regs := { s.regs with cmd := 0, status := .rejected, cause := c }
    seq := { s.seq with phase := .idle } }

/-- The five arrays hold no value: before an invocation writes them (10_state R45) and after it (20_memory R80
"discarded after it", 93 U14; log 10). -/
def discardScratch (s : State) : State :=
  { s with scr := { s.scr with acache := [], wcache := [], awork := [], wwork := [], acc := [] } }

/-- CHECK passed for GEMM: `PHASE <- PRELOAD ; P1_DONE <- 0 ; P2_DONE <- 0` (43 R190). -/
def enterPreload (s : State) : State :=
  let t := discardScratch s
  { t with seq := { t.seq with phase := .preload, p1Done := false, p2Done := false } }

/-- Both preloads done: `PHASE <- TILES`, `(SEQ_MT, SEQ_NT, SEQ_K) <- (0, 0, 0)` (10_state R43). -/
def enterTiles (s : State) : State :=
  { s with seq := { s.seq with phase := .tiles, mt := 0, nt := 0, k := 0 } }

/-- CHECK passed for QUANT: `PHASE <- QUANT` (40 R131), from the first group and pair. -/
def enterQuant (s : State) : State :=
  { s with seq := { s.seq with phase := .quant, g := 0, i := 0 } }

/-- CHECK passed for DEQ: `PHASE <- DEQ` (41 R161). -/
def enterDeq (s : State) : State :=
  { s with seq := { s.seq with phase := .deq } }

/-- `SEQ_MT <- mt ; SEQ_NT <- nt ; SEQ_K <- 0` (43 R190). -/
def setTile (mt nt : Nat) (s : State) : State :=
  { s with seq := { s.seq with mt := BitVec.ofNat 32 mt, nt := BitVec.ofNat 32 nt, k := 0 } }

end Sys2Proof.Machine
end

