-- ==== Sys2Proof/Machine/Operands.lean ====
section
/-!
DEFINITION. The numbers of the rules: integer primitives (00_scope R10), the nibble and the dequantization primitive
(41_dequantization), binary32 weights as exact integers and the codec's arithmetic (40_quantization_codec), and the
index maps and derived quantities (30_encoding R98 to R101, 00_scope R7).
-/
namespace Sys2Proof.Machine

/-! ### Integer primitives (00_scope R10) -/

/-- `wrap_N(x)`: the low `N` bits, read as two's complement. -/
def wrap (n : Nat) (x : Int) : Int := Int.bmod x (2 ^ n)

/-- `clamp(x, lo, hi)`. -/
def clamp (x lo hi : Int) : Int := if x < lo then lo else if hi < x then hi else x

/-- Whether an integer lies in the signed 32-bit range (30_encoding R97). -/
def fits32 (x : Int) : Bool := -2147483648 ≤ x && x ≤ 2147483647

/-! ### The dequantization primitive (41_dequantization R150 to R156) -/

/-- "extract the 4-bit field": select 0 is `byte[3:0]`, 1 is `byte[7:4]` (R150, R151). -/
def nibble (byte : Byte) (sel : BitVec 1) : BitVec 4 :=
  if sel = 0 then byte.extractLsb' 0 4 else byte.extractLsb' 4 4

/-- "if bit 3 set, OR in 0xF0 before treating as signed 8-bit" (R151, R152): the pattern whose signed value is `q`. -/
def signExtendNibble (n : BitVec 4) : Byte :=
  if n.getLsbD 3 then n.setWidth 8 ||| 0xF0 else n.setWidth 8

/-- NIBSEL as a function (R151): the 8-bit pattern of `q`. -/
def nibSel (byte : Byte) (sel : BitVec 1) : Byte := signExtendNibble (nibble byte sel)

/-- `s <- scale[1:0]` (R153, 30_encoding R95). -/
def scaleBits (scale : Byte) : BitVec 2 := scale.extractLsb' 0 2

/-- The scale factor `4^s` (30_encoding R96). -/
def scaleFactor (s : BitVec 2) : Nat := 4 ^ s.toNat

/-- `D <- q << sh = q * 4^s`, the exact value (R154), from the pattern of `q`. -/
def shiftExact (q : Byte) (scale : Byte) : Int := q.toInt * (scaleFactor (scaleBits scale) : Int)

/-- The second half of the primitive: `D` wrapped to `DQ_BITS` bits (R155); at 10 bits that is `D` (R158). -/
def shiftWrap (bits : Nat) (q : Byte) (scale : Byte) : Int := wrap bits (shiftExact q scale)

/-- The exact signed integer a nibble and a scale denote (R154). -/
def deqExact (byte : Byte) (sel : BitVec 1) (scale : Byte) : Int := shiftExact (nibSel byte sel) scale

/-- DEQ as one function (R156): the one decoder of nibbles (R160), used by the DEQ command, by LOADW and by the
reference. The width of its result is the parameter `DQ_BITS` (93_implementation_defined U11). -/
def deq (bits : Nat) (byte : Byte) (sel : BitVec 1) (scale : Byte) : Int := shiftWrap bits (nibSel byte sel) scale

/-! ### binary32 weights (00_scope R8, 30_encoding R91; log 27) -/

/-- Bits 30:23, the biased exponent. -/
def f32Exp (w : Word) : Nat := (w.extractLsb' 23 8).toNat

/-- Bits 22:0, the fraction. -/
def f32Frac (w : Word) : Nat := (w.extractLsb' 0 23).toNat

/-- A finite value: not a NaN, not an infinity (40 R134). -/
def f32Finite (w : Word) : Bool := decide (f32Exp w ≠ 255)

/-- The magnitude of a finite value in units of `2^-149`, exact for every zero, subnormal and normal. -/
def f32Mag (w : Word) : Nat :=
  if f32Exp w = 0 then f32Frac w else (2 ^ 23 + f32Frac w) * 2 ^ (f32Exp w - 1)

/-- The real number a finite float denotes, in units of `2^-149`; `-0` denotes 0 (30_encoding R91). -/
def f32Units (w : Word) : Int := if w.msb then -(f32Mag w : Int) else (f32Mag w : Int)

/-- How many units of `2^-149` make 1. -/
def f32One : Nat := 2 ^ 149

/-! ### The codec's arithmetic (40_quantization_codec R122, R126, R127) -/

/-- `floorlog2(ma)` of a positive magnitude, exact (00_scope R11, R122). -/
def floorLog2 (mag : Nat) : Int := (Nat.log2 mag : Int) - 149

/-- The scale of a group from its largest magnitude (R122, R124). -/
def scaleOf (mag : Nat) : BitVec 2 :=
  if mag = 0 then 0 else BitVec.ofInt 2 (clamp (floorLog2 mag - 3) 0 3)

/-- The largest of a running maximum and the magnitudes of `n` elements from `base` (R122's loop). -/
def groupMax (m : Bufs) (base n : Nat) : Nat :=
  (List.range n).foldl
    (fun ma t => if ma < f32Mag (m.word .wf (base + t)) then f32Mag (m.word .wf (base + t)) else ma) 0

/-- `round_TIE(num / den)` for `den > 0` (00_scope R11, R127): the nearest integer, an exact half going as `TIE`
says. -/
def roundTie (tie : Tie) (num : Int) (den : Nat) : Int :=
  let q := num.natAbs / den
  let r := num.natAbs % den
  let up : Nat :=
    if 2 * r < den then 0
    else if den < 2 * r then 1
    else match tie with
      | .away => 1
      | .even => q % 2
  if num < 0 then -((q + up : Nat) : Int) else ((q + up : Nat) : Int)

/-- `clamp(round_TIE(w / 4^s), -8, 7)` for a finite weight (R126, R128). -/
def quantWeight (tie : Tie) (s : BitVec 2) (w : Word) : Int :=
  clamp (roundTie tie (f32Units w) (f32One * scaleFactor s)) (-8) 7

/-- `(u_4(q1) << 4) | u_4(q0)` (30_encoding R93). -/
def packByte (q0 q1 : Int) : Byte := BitVec.ofInt 4 q1 ++ BitVec.ofInt 4 q0

/-! ### Derived quantities (00_scope R7) and index maps (30_encoding R98 to R101) -/

/-- `NUM_M_TILES = M / PE_ROWS`. -/
def Dims.mTiles (p : Params) (d : Dims) : Nat := d.m.toNat / p.peRows

/-- `NUM_N_TILES = N / PE_COLS`. -/
def Dims.nTiles (p : Params) (d : Dims) : Nat := d.n.toNat / p.peCols

/-- `NUM_GROUPS = L / G`. -/
def Dims.groups (d : Dims) : Nat := d.k.toNat * d.n.toNat / d.g.toNat

/-- The number of pairs in a group, `G / 2` (30_encoding R94). -/
def Dims.pairs (d : Dims) : Nat := d.g.toNat / 2

/-- The cell `[r][k]` of an array of rows of `CAP_K` cells: `ACACHE[mt][i][k]` has `r = mt*PE_ROWS + i`,
`WCACHE[nt][j][k]` has `r = nt*PE_COLS + j` (30_encoding R101), `AWORK[i][k]` and `WWORK[j][k]` their own row. -/
def rowCell (p : Params) (r k : Nat) : Nat := r * p.capK + k

/-- The cell `ACC[i][j]` (10_state R31). -/
def accCell (p : Params) (i j : Nat) : Nat := i * p.peCols + j

/-- The flattened weight index `f = k*N + n` (30_encoding R98). -/
def flatIndex (nDim k n : Nat) : Nat := k * nDim + n

/-- The nibble select of a flattened index, `f mod 2` (30_encoding R99). -/
def selOf (f : Nat) : BitVec 1 := BitVec.ofNat 1 f

/-- The weight at flattened index `f`, dequantized from `PW` and `SC` with group size `g`
(30_encoding R99, 42_reference_model R171, 43_tiled_engine R184). -/
def weightAt (bits : Nat) (b : Bufs) (g f : Nat) : Int := deq bits (b.byte .pw (f / 2)) (selOf f) (b.byte .sc (f / g))

/-- The output index of row `i`, column `j` of tile pair `(mt, nt)` (30_encoding R101, 43 R188). -/
def outIndex (p : Params) (nDim mt nt i j : Nat) : Nat := (mt * p.peRows + i) * nDim + nt * p.peCols + j

/-- The dimension registers as the four dimensions (10_state R39). -/
def Regs.dims (r : Regs) : Dims := { m := r.dimM, k := r.dimK, n := r.dimN, g := r.dimG }

end Sys2Proof.Machine
end

