-- ==== Sys2Proof/Machine/Flags.lean ====
section
/-!
DEFINITION. The block has no status flags and no condition codes (10_state R34). What a command computes about its
operands instead is the cause CHECK rejects it with (60_exceptions R231), in the order of 60_exceptions R233; the
passing CHECK latches the dimensions (43_tiled_engine R182; log 6).
-/
namespace Sys2Proof.Machine

/-- GEMM's tests (43_tiled_engine R182), the first failing one first. -/
def gemmCause (p : Params) (r : Regs) : Option Cause :=
  let m := r.dimM.toNat
  let k := r.dimK.toNat
  let n := r.dimN.toNat
  let g := r.dimG.toNat
  if ¬(1 ≤ m ∧ m ≤ p.capM ∧ 1 ≤ k ∧ k ≤ p.capK ∧ 1 ≤ n ∧ n ≤ p.capN) then some .dimRange
  else if ¬(2 ≤ g ∧ g % 2 = 0) then some .groupSize
  else if ¬(m % p.peRows = 0 ∧ n % p.peCols = 0 ∧ k % p.peRows = 0 ∧ k % p.peCols = 0) then some .tileDivisibility
  else if ¬(k * n % g = 0) then some .groupDivisibility
  else if ¬(r.lenACT.toNat = m * k ∧ r.lenPW.toNat = k * n / 2 ∧ r.lenSC.toNat = k * n / g ∧
      r.lenOUT.toNat = m * n) then some .bufferLength
  else none

/-- QUANT's tests (40_quantization_codec R137), the first failing one first. `DIM_M` is not read. -/
def quantCause (p : Params) (r : Regs) : Option Cause :=
  let k := r.dimK.toNat
  let n := r.dimN.toNat
  let g := r.dimG.toNat
  if ¬(1 ≤ k ∧ k ≤ p.capK ∧ 1 ≤ n ∧ n ≤ p.capN) then some .dimRange
  else if ¬(2 ≤ g ∧ g % 2 = 0) then some .groupSize
  else if ¬(k * n % g = 0) then some .groupDivisibility
  else if ¬(r.lenWF.toNat = k * n ∧ r.lenPW.toNat = k * n / 2 ∧ r.lenSC.toNat = k * n / g) then some .bufferLength
  else none

/-- The cause a command is rejected with, if any (43_tiled_engine R182): DEQ has no precondition, and a byte that is
no command is illegal "before anything else". -/
def checkCause (p : Params) (op : Byte) (r : Regs) : Option Cause :=
  if op = 0x01 then quantCause p r
  else if op = 0x02 then none
  else if op = 0x03 then gemmCause p r
  else some .illegalOp

/-- The latched dimensions after CHECK passed a command (43_tiled_engine R182 "latched for the invocation"): GEMM all
four, QUANT all but `M`, which it ignores, DEQ none (10_state R39). -/
def latchDims (op : Byte) (r : Regs) (old : Dims) : Dims :=
  if op = 0x03 then r.dims
  else if op = 0x01 then { r.dims with m := old.m }
  else old

/-- CHECK on the op code of a command (43_tiled_engine R182): reads registers only. -/
def checkOp (p : Params) (op : Byte) (s : State) : State :=
  match checkCause p op s.regs with
  | some c => raiseReject c s
  | none => { s with seq := { s.seq with lat := latchDims op s.regs s.seq.lat } }

/-- The rest of a command, unless CHECK rejected it. -/
def afterCheck (p : Params) (op : Byte) (k : State → Run) (s : State) : Run :=
  match checkCause p op s.regs with
  | some _ => .next (checkOp p op s)
  | none => k (checkOp p op s)

end Sys2Proof.Machine
end

