-- ==== Sys2Proof/Machine/Codec.lean ====
section
/-!
DEFINITION. The operations of the Quantization Codec: QSCALE, QPAIR and the command QUANT (40_quantization_codec
R122, R126, R131).
-/
namespace Sys2Proof.Machine

/-- What QSCALE `g` leaves (R122): `QS`. -/
def qscaleDone (g : Nat) (s : State) : State :=
  let n := s.seq.lat.g.toNat
  { s with scr := { s.scr with qs := scaleOf (groupMax s.bufs (g * n) n), qsSet := true } }

/-- QSCALE `g` (R122). The operand's range is `0 <= g < NUM_GROUPS` (log 17). -/
def qscaleOp (g : Nat) (s : State) : Run :=
  let d := s.seq.lat
  let n := d.g.toNat
  demand (g < d.groups) .operandRange <|
  demand (g * n + n ≤ s.regs.len .wf) (.outOfRange .wf) <|
  refuseIf (!(List.range n).all fun t => f32Finite (s.bufs.word .wf (g * n + t))) .nonFiniteWeight <|
  .next (qscaleDone g s)

/-- `MemWrite(SC[g], 1, zext_8(QS))` (R131), bits 7:2 zero (30_encoding R95). -/
def storeScaleDone (g : Nat) (s : State) : State :=
  { s with bufs := { s.bufs with sc := cellSet (w := 8) s.bufs.sc g (s.scr.qs.setWidth 8) } }

/-- The scale byte of group `g`, written where `SC` has such an element (R131). -/
def storeScale (g : Nat) (s : State) : Run :=
  demand (g < s.regs.len .sc) (.outOfRange .sc) <| .next (storeScaleDone g s)

/-- The flattened index of the first weight of pair `i` of group `g` (R126, 30_encoding R94). -/
def pairIndex (s : State) (g i : Nat) : Nat := g * s.seq.lat.g.toNat + 2 * i

/-- What QPAIR `g, i` leaves (R126): one byte of `PW`. -/
def qpairDone (p : Params) (g i : Nat) (s : State) : State :=
  let f := pairIndex s g i
  { s with bufs := { s.bufs with
    pw := cellSet (w := 8) s.bufs.pw (f / 2)
      (packByte (quantWeight p.tie s.scr.qs (s.bufs.word .wf f))
        (quantWeight p.tie s.scr.qs (s.bufs.word .wf (f + 1)))) } }

/-- QPAIR `g, i` with the parameter `TIE` (R126). The operands' ranges are `0 <= g < NUM_GROUPS`, `0 <= i < G/2`
(log 17). -/
def qpairOp (p : Params) (g i : Nat) (s : State) : Run :=
  let d := s.seq.lat
  let f := pairIndex s g i
  demand (g < d.groups && i < d.pairs) .operandRange <|
  demand s.scr.qsSet .unwrittenQS <|
  demand (f + 1 < s.regs.len .wf) (.outOfRange .wf) <|
  demand (f / 2 < s.regs.len .pw) (.outOfRange .pw) <|
  refuseIf (!(f32Finite (s.bufs.word .wf f) && f32Finite (s.bufs.word .wf (f + 1)))) .nonFiniteWeight <|
  .next (qpairDone p g i s)

/-- The next pair of the group, or the first pair of the next group (the canonical order of R131; log 4). -/
def bumpPair (s : State) : State :=
  let groupEnds : Bool := decide ((s.seq.i + 1).toNat = s.seq.lat.pairs)
  { s with seq := { s.seq with
    i := if groupEnds then 0 else s.seq.i + 1
    g := if groupEnds then s.seq.g + 1 else s.seq.g } }

/-- Whether every group has been quantized. -/
def groupsDone (s : State) : Bool := decide (s.seq.lat.groups ≤ s.seq.g.toNat)

/-- One group of QUANT (R131): QSCALE, the scale byte, then the pairs in ascending order. -/
def quantGroup (p : Params) (g : Nat) (s : State) : Run :=
  andThen (qscaleOp g s) fun t =>
  andThen (storeScale g t) fun u =>
  loop u.seq.lat.pairs (fun i v => andThen (qpairOp p g i v) fun w => .next (bumpPair w)) u

/-- QUANT after CHECK has passed (R131), the groups in ascending order. -/
def quantBody (p : Params) (s : State) : Run :=
  let t := enterQuant s
  andThen (loop t.seq.lat.groups (quantGroup p) t) fun u => .next (finish u)

/-- QUANT, the whole command (R131). -/
def quantOp (p : Params) (s : State) : Run := afterCheck p 0x01 (quantBody p) (startCommand 0x01 s)

/-- QSCALE on the sequencer's group. -/
def execQscale (s : State) : Run := qscaleOp s.seq.g.toNat s

/-- QPAIR on the sequencer's group and pair. -/
def execQpair (s : State) : Run := qpairOp Config.params s.seq.g.toNat s.seq.i.toNat s

/-- QUANT. -/
def execQuant (s : State) : Run := quantOp Config.params s

end Sys2Proof.Machine
end

