-- ==== Sys2Proof/Machine/Engine.lean ====
section
/-!
DEFINITION. The operations of the Tiled Compute Engine: CHECK, LOADA, LOADW, TCOPY, ACLR, MAC, TSTORE, TILE and the
command GEMM (43_tiled_engine R182 to R190).
-/
namespace Sys2Proof.Machine

/-- CHECK on the op code in `CMD` (R182). -/
def execCheck (s : State) : Run := .next (checkOp Config.params s.regs.cmd s)

/-- The rows `mt*PE_ROWS + i` that LOADA copies (R183). -/
def loadaRows (p : Params) (s : State) : Nat := s.seq.lat.mTiles p * p.peRows

/-- What LOADA leaves (R183): the in-use cells of `ACACHE`, and `P1_DONE`. -/
def loadaDone (p : Params) (s : State) : State :=
  let k := s.seq.lat.k.toNat
  { s with
    scr := { s.scr with
      acache := cellStore s.scr.acache
        (grid (loadaRows p s) k fun r c => (rowCell p r c, s.bufs.byte .act (r * k + c))) }
    seq := { s.seq with p1Done := true } }

/-- LOADA, Phase 1 (R183): rows `r = mt*PE_ROWS + i` of the `NUM_M_TILES` tiles. -/
def loadaOp (p : Params) (s : State) : Run :=
  let rows := loadaRows p s
  let k := s.seq.lat.k.toNat
  demand (rows ≤ p.capM && k ≤ p.capK) (.noSuchCell .acache) <|
  demand (rows * k ≤ s.regs.len .act) (.outOfRange .act) <|
  .next (loadaDone p s)

/-- The columns `nt*PE_COLS + j` that LOADW fills (R184). -/
def loadwCols (p : Params) (s : State) : Nat := s.seq.lat.nTiles p * p.peCols

/-- What LOADW leaves (R184): the in-use cells of `WCACHE`, and `P2_DONE`. -/
def loadwDone (p : Params) (s : State) : State :=
  { s with
    scr := { s.scr with
      wcache := cellStore s.scr.wcache
        (grid (loadwCols p s) s.seq.lat.k.toNat fun c x =>
          (rowCell p c x,
            BitVec.ofInt 10 (weightAt p.dqBits s.bufs s.seq.lat.g.toNat (flatIndex s.seq.lat.n.toNat x c)))) }
    seq := { s.seq with p2Done := true } }

/-- LOADW, Phase 2 (R184): columns `c = nt*PE_COLS + j` of the `NUM_N_TILES` tiles, each weight through the one
primitive (41_dequantization R160). -/
def loadwOp (p : Params) (s : State) : Run :=
  let cols := loadwCols p s
  let k := s.seq.lat.k.toNat
  let n := s.seq.lat.n.toNat
  let g := s.seq.lat.g.toNat
  demand (cols ≤ p.capN && k ≤ p.capK) (.noSuchCell .wcache) <|
  demand (decide (g ≠ 0) || decide (cols * k = 0)) .zeroDivisor <|
  demand (allGrid cols k fun c x => flatIndex n x c / 2 < s.regs.len .pw) (.outOfRange .pw) <|
  demand (allGrid cols k fun c x => flatIndex n x c / g < s.regs.len .sc) (.outOfRange .sc) <|
  .next (loadwDone p s)

/-- What TCOPY `mt, nt` leaves (R185): the working buffers. -/
def tcopyDone (p : Params) (mt nt : Nat) (s : State) : State :=
  let k := s.seq.lat.k.toNat
  { s with scr := { s.scr with
    awork := cellStore s.scr.awork
      (grid p.peRows k fun i c => (rowCell p i c, cellVal s.scr.acache (rowCell p (mt * p.peRows + i) c)))
    wwork := cellStore s.scr.wwork
      (grid p.peCols k fun j c => (rowCell p j c, cellVal s.scr.wcache (rowCell p (nt * p.peCols + j) c))) } }

/-- TCOPY `mt, nt` (R185): the tile's rows of both caches, verbatim. -/
def tcopyOp (p : Params) (mt nt : Nat) (s : State) : Run :=
  let k := s.seq.lat.k.toNat
  demand (mt < s.seq.lat.mTiles p && nt < s.seq.lat.nTiles p) .operandRange <|
  demand (k ≤ p.capK) (.noSuchCell .awork) <|
  demand (allGrid p.peRows k fun i c => cellHas s.scr.acache (rowCell p (mt * p.peRows + i) c))
    (.unwrittenCell .acache) <|
  demand (allGrid p.peCols k fun j c => cellHas s.scr.wcache (rowCell p (nt * p.peCols + j) c))
    (.unwrittenCell .wcache) <|
  .next (tcopyDone p mt nt s)

/-- ACLR (R186). -/
def aclrOp (p : Params) (s : State) : State :=
  { s with scr := { s.scr with acc := cellStore s.scr.acc (grid p.peRows p.peCols fun i j => (accCell p i j, 0)) } }

/-- `ACC[i][j] + AWORK[i][k] * WWORK[j][k]`, exact on signed integers (R187). -/
def macSum (p : Params) (s : State) (k i j : Nat) : Int :=
  (cellVal s.scr.acc (accCell p i j)).toInt +
    (cellVal s.scr.awork (rowCell p i k)).toInt * (cellVal s.scr.wwork (rowCell p j k)).toInt

/-- What MAC `k` leaves (R187): every cell of `ACC`, and `SEQ_K`. -/
def macDone (p : Params) (k : Nat) (s : State) : State :=
  { s with
    scr := { s.scr with
      acc := cellStore s.scr.acc
        (grid p.peRows p.peCols fun i j => (accCell p i j, BitVec.ofInt 32 (macSum p s k i j))) }
    seq := { s.seq with k := BitVec.ofNat 32 (k + 1) } }

/-- MAC `k` (R187). An addition that leaves the 32-bit range has no meaning (R194, 93 U1). The operand's range is
`0 <= k < K` (log 17). -/
def macOp (p : Params) (k : Nat) (s : State) : Run :=
  demand (k < s.seq.lat.k.toNat) .operandRange <|
  demand (k < p.capK) (.noSuchCell .awork) <|
  demand ((List.range p.peRows).all fun i => cellHas s.scr.awork (rowCell p i k)) (.unwrittenCell .awork) <|
  demand ((List.range p.peCols).all fun j => cellHas s.scr.wwork (rowCell p j k)) (.unwrittenCell .wwork) <|
  demand (allGrid p.peRows p.peCols fun i j => cellHas s.scr.acc (accCell p i j)) (.unwrittenCell .acc) <|
  refuseIf (!allGrid p.peRows p.peCols fun i j => fits32 (macSum p s k i j)) .accOverflow <|
  .next (macDone p k s)

/-- The bytes TSTORE `mt, nt` writes, with their addresses (R188). -/
def tileBytes (p : Params) (mt nt : Nat) (s : State) : List (Nat × Byte) :=
  (grid p.peRows p.peCols fun i j =>
    bytes32 (outIndex p s.seq.lat.n.toNat mt nt i j) (cellVal s.scr.acc (accCell p i j))).flatten

/-- What TSTORE `mt, nt` leaves (R188): the tile's region of `OUT`. -/
def tstoreDone (p : Params) (mt nt : Nat) (s : State) : State :=
  { s with bufs := { s.bufs with out := cellStore (w := 8) s.bufs.out (tileBytes p mt nt s) } }

/-- TSTORE `mt, nt` (R188). -/
def tstoreOp (p : Params) (mt nt : Nat) (s : State) : Run :=
  let n := s.seq.lat.n.toNat
  demand (mt < s.seq.lat.mTiles p && nt < s.seq.lat.nTiles p) .operandRange <|
  demand (allGrid p.peRows p.peCols fun i j => outIndex p n mt nt i j < s.regs.len .out) (.outOfRange .out) <|
  demand (allGrid p.peRows p.peCols fun i j => cellHas s.scr.acc (accCell p i j)) (.unwrittenCell .acc) <|
  .next (tstoreDone p mt nt s)

/-- TILE `mt, nt` (R189): TCOPY, ACLR, MAC `k` for `k = 0 .. K-1`, TSTORE. -/
def tileOp (p : Params) (mt nt : Nat) (s : State) : Run :=
  andThen (tcopyOp p mt nt s) fun t =>
  andThen (loop t.seq.lat.k.toNat (macOp p) (aclrOp p t)) fun u =>
  tstoreOp p mt nt u

/-- The next tile pair in row-major order (10_state R43): `SEQ_K <- 0`, `SEQ_NT <- SEQ_NT + 1`, and at the end of the
row `SEQ_NT <- 0`, `SEQ_MT <- SEQ_MT + 1`. -/
def bumpTile (p : Params) (s : State) : State :=
  let rowEnds : Bool := decide ((s.seq.nt + 1).toNat = s.seq.lat.nTiles p)
  { s with seq := { s.seq with
    k := 0
    nt := if rowEnds then 0 else s.seq.nt + 1
    mt := if rowEnds then s.seq.mt + 1 else s.seq.mt } }

/-- Whether every tile pair has been computed: `SEQ_MT = NUM_M_TILES` (10_state R43). -/
def tilesDone (p : Params) (s : State) : Bool := decide (s.seq.lat.mTiles p ≤ s.seq.mt.toNat)

/-- One round of GEMM's inner loop (R190, 10_state R43; log 26). -/
def tileRound (p : Params) (mt nt : Nat) (s : State) : Run :=
  andThen (tileOp p mt nt (setTile mt nt s)) fun t => .next (bumpTile p t)

/-- Phase 3 (R190), the tile pairs in row-major order (R191). -/
def tilesOp (p : Params) (s : State) : Run :=
  loop (s.seq.lat.mTiles p) (fun mt => loop (s.seq.lat.nTiles p) (fun nt => tileRound p mt nt)) s

/-- GEMM after CHECK has passed (R190), in the canonical order; the scratch holds no value afterwards (log 10). -/
def gemmBody (p : Params) (s : State) : Run :=
  andThen (loadaOp p (enterPreload s)) fun t =>
  andThen (loadwOp p t) fun u =>
  andThen (tilesOp p (enterTiles u)) fun v =>
  .next (finish (discardScratch v))

/-- GEMM, the whole command (R190). -/
def gemmOp (p : Params) (s : State) : Run := afterCheck p 0x03 (gemmBody p) (startCommand 0x03 s)

/-- LOADA. -/
def execLoada (s : State) : Run := loadaOp Config.params s

/-- LOADW. -/
def execLoadw (s : State) : Run := loadwOp Config.params s

/-- TCOPY on the sequencer's tile pair. -/
def execTcopy (s : State) : Run := tcopyOp Config.params s.seq.mt.toNat s.seq.nt.toNat s

/-- ACLR. -/
def execAclr (s : State) : Run := .next (aclrOp Config.params s)

/-- MAC on the sequencer's reduction index. -/
def execMac (s : State) : Run := macOp Config.params s.seq.k.toNat s

/-- TSTORE on the sequencer's tile pair. -/
def execTstore (s : State) : Run := tstoreOp Config.params s.seq.mt.toNat s.seq.nt.toNat s

/-- TILE on the sequencer's tile pair. -/
def execTile (s : State) : Run := tileOp Config.params s.seq.mt.toNat s.seq.nt.toNat s

/-- GEMM. -/
def execGemm (s : State) : Run := gemmOp Config.params s

end Sys2Proof.Machine
end

