-- ==== Sys2Proof/Machine/Primitive.lean ====
section
/-!
DEFINITION. The operations of the Dequantization Primitive: NIBSEL and the command DEQ (41_dequantization R151, R161).
-/
namespace Sys2Proof.Machine

/-- NIBSEL on `DQ_BYTE` and `DQ_SEL` (41_dequantization R151), its result held in the model's latch (log 5). -/
def nibselOp (s : State) : State :=
  { s with scr := { s.scr with nib := nibSel s.regs.dqByte s.regs.dqSel } }

/-- The second half of DEQ: the latched `q` shifted by `DQ_SCALE` and wrapped, its pattern in `DQ_OUT` (R153 to R155,
R161). `DQ_OUT` has 8 bits at either `DQ_BITS` and keeps the low ones (log 16). -/
def deqStore (p : Params) (s : State) : State :=
  { s with regs := { s.regs with
    dqOut := BitVec.ofInt 8 (shiftWrap p.dqBits s.scr.nib s.regs.dqScale), dqOutSet := true } }

/-- DEQ with the parameter `DQ_BITS` (R161): CHECK has nothing to check for it. -/
def deqOp (p : Params) (s : State) : Run :=
  afterCheck p 0x02 (fun t => .next (finish (deqStore p (nibselOp (enterDeq t))))) (startCommand 0x02 s)

/-- NIBSEL. -/
def execNibsel (s : State) : Run := .next (nibselOp s)

/-- DEQ. -/
def execDeq (s : State) : Run := deqOp Config.params s

end Sys2Proof.Machine
end

