-- ==== Sys2Proof/Machine/Dispatch.lean ====
section
/-!
DEFINITION. The meaning of every operation: one arm per constructor of Instr.
-/
namespace Sys2Proof.Machine

def exec (i : Instr) (s : State) : Host.Outcome State Fault Refusal :=
  match i with
  | .quant => Sys2Proof.Machine.execQuant s
  | .deq => Sys2Proof.Machine.execDeq s
  | .gemm => Sys2Proof.Machine.execGemm s
  | .qscale => Sys2Proof.Machine.execQscale s
  | .qpair => Sys2Proof.Machine.execQpair s
  | .nibsel => Sys2Proof.Machine.execNibsel s
  | .check => Sys2Proof.Machine.execCheck s
  | .loada => Sys2Proof.Machine.execLoada s
  | .loadw => Sys2Proof.Machine.execLoadw s
  | .tcopy => Sys2Proof.Machine.execTcopy s
  | .aclr => Sys2Proof.Machine.execAclr s
  | .mac => Sys2Proof.Machine.execMac s
  | .tstore => Sys2Proof.Machine.execTstore s
  | .tile => Sys2Proof.Machine.execTile s

end Sys2Proof.Machine
end

