-- ==== Sys2Proof/Machine/Sequencer.lean ====
section
/-!
DEFINITION. The sequencer (10_state R42, R43): what the block issues next after each operation, in the canonical order
(43_tiled_engine R190, 40_quantization_codec R131). It acts only while STATUS is BUSY; an operation issued outside a
command is followed by nothing.
-/
namespace Sys2Proof.Machine

/-- The operation in the issue slot becomes `op`. -/
def issueOp (op : Instr) (s : State) : State := { s with seq := { s.seq with issue := some (encodeOp op) } }

/-- The slot's op code is taken out when it is fetched. -/
def takeIssue (s : State) : State := { s with seq := { s.seq with issue := none } }

/-- The first operation of a tile pair: TCOPY, or TILE when the schedule goes tile by tile (log 2). -/
def issueTile (s : State) : State :=
  match s.env.grain with
  | .tile => issueOp .tile s
  | .command | .micro => issueOp .tcopy s

/-- After a preload: the other one if it is not done, else Phase 3 (10_state R43, 20_memory R72 (b)). -/
def afterPreload (s : State) : State :=
  if !s.seq.p1Done then issueOp .loada s
  else if !s.seq.p2Done then issueOp .loadw s
  else issueTile (enterTiles s)

/-- After CHECK passed: `PHASE <- QUANT`, `DEQ` or `PRELOAD` "by the op code" (10_state R43). -/
def afterPass (s : State) : State :=
  if s.regs.cmd = 0x01 then issueOp .qscale (enterQuant s)
  else if s.regs.cmd = 0x02 then issueOp .nibsel (enterDeq s)
  else issueOp .loada (enterPreload s)

/-- After a QPAIR: the next pair, the next group, or the end of QUANT. -/
def afterPair (s : State) : State :=
  let t := bumpPair s
  if groupsDone t then finish t
  else if t.seq.i = 0 then issueOp .qscale t
  else issueOp .qpair t

/-- After a MAC: the next one, or TSTORE "when `SEQ_K = K`" (10_state R43). -/
def afterMac (s : State) : State :=
  if s.seq.k = s.seq.lat.k then issueOp .tstore s else issueOp .mac s

/-- After a tile pair has been written: the next pair, or the end of GEMM (10_state R43). -/
def afterTile (p : Params) (s : State) : State :=
  let t := bumpTile p s
  if tilesDone p t then finish (discardScratch t) else issueTile t

/-- What follows an operation of the running command. -/
def sequel (p : Params) (i : Instr) (s : State) : Run :=
  match i with
  | .check => .next (afterPass s)
  | .nibsel => .next (finish (deqStore p s))
  | .qscale => andThen (storeScale s.seq.g.toNat s) fun t => .next (issueOp .qpair t)
  | .qpair => .next (afterPair s)
  | .loada => .next (afterPreload s)
  | .loadw => .next (afterPreload s)
  | .tcopy => .next (issueOp .aclr s)
  | .aclr => .next (issueOp .mac s)
  | .mac => .next (afterMac s)
  | .tstore => .next (afterTile p s)
  | .tile => .next (afterTile p s)
  | .quant => .next s
  | .deq => .next s
  | .gemm => .next s

/-- The sequencer's part of a step, after the operation itself: while the command runs, what follows; once it has
ended, or outside a command, nothing. -/
def advance (i : Instr) (s : State) : Run :=
  if s.regs.status = .busy then sequel Config.params i s else .next s

end Sys2Proof.Machine
end

