-- ==== Sys2Proof/Machine/HostPort.lean ====
section
/-!
DEFINITION. The host's side: its actions of 30_encoding R107 on the control registers and the buffers, and the reset
event (70_reset R260).
-/
namespace Sys2Proof.Machine

/-- Whether a command is running. -/
def busy (s : State) : Bool := decide (s.regs.status = .busy)

/-- The operation a `CMD` write puts in the issue slot: CHECK, the first step of every command (43_tiled_engine R182),
or, when the schedule takes commands whole, a legal command itself (log 2). -/
def firstOp (grain : Grain) (op : Byte) : Byte :=
  match grain with
  | .command => if commandByteWf op then op else encodeOp .check
  | .tile | .micro => encodeOp .check

/-- `WR CMD, v`: "a host write of an 8-bit op code while `STATUS != BUSY` starts a command" (10_state R36). -/
def writeCmd (v : Nat) (s : State) : State :=
  let t := startCommand (BitVec.ofNat 8 v) s
  { t with seq := { t.seq with issue := some (firstOp s.env.grain (BitVec.ofNat 8 v)) } }

/-- `WR <reg>, <value>` (10_state R35); while BUSY it has no meaning (70_reset R266; log 14). -/
def hostWrite (x : CtrlReg) (v : Nat) (s : State) : Run :=
  refuseIf (busy s) .registerWriteWhileBusy <|
  if x = .cmd then .next (writeCmd v s) else .next { s with regs := writeReg s.regs x v }

/-- The host has read a value (log 23). -/
def note (v : Word) (s : State) : State := { s with env := { s.env with seen := v :: s.env.seen } }

/-- `RD <reg>` (10_state R35, R40). `DQ_OUT` is the output of a running DEQ, not to be read before `DONE`
(93 U10; log 14). -/
def hostRead (x : CtrlReg) (s : State) : Run :=
  refuseIf (busy s && decide (s.regs.cmd = 0x02) && decide (x = .dqOut)) .accessWhileBusy <|
  .next (note (readReg s x) s)

/-- `ST <buf>[i], <value>` (30_encoding R107): "only while STATUS != BUSY" (log 14); a value wider than the element
keeps its low bits (log 21). -/
def hostStore (b : Buf) (i v : Nat) (s : State) : Run :=
  refuseIf (busy s) .accessWhileBusy <|
  demand (HostEvent.wf (.st b i v)) (.outOfRange b) <|
  .next { s with bufs := s.bufs.put b (elemPut b (s.bufs.get b) i (BitVec.ofNat 32 v)) }

/-- `LD <buf>[i]` (30_encoding R107): "only while STATUS != BUSY" (log 14). -/
def hostLoad (b : Buf) (i : Nat) (s : State) : Run :=
  refuseIf (busy s) .accessWhileBusy <|
  demand (HostEvent.wf (.ld b i)) (.outOfRange b) <|
  .next (note (s.bufs.elem b i) s)

/-- The running command carried to its end from the buffers as they stood at the `CMD` write: what it "would have
written" (70_reset R260). -/
def wouldWrite (s : State) : Run :=
  let t := { s with bufs := s.env.atStart }
  if s.regs.cmd = 0x01 then quantOp Config.params t
  else if s.regs.cmd = 0x03 then gemmOp Config.params t
  else .next t

/-- `len` bytes of buffer `b` at any value at all. -/
def anyBytes (n : Nat) (b : Buf) (len : Nat) (old : Memory) : Memory :=
  cellStore (w := 8) old ((List.range len).map fun a => (a, Config.resetContent n (bufNumber b) a))

/-- The running command's output buffers at any contents, the others as they were at the `CMD` write (log 13). -/
def anyOutput (s : State) : Bufs :=
  let old := s.env.atStart
  let n := s.env.resets
  if s.regs.cmd = 0x01 then
    { old with pw := anyBytes n .pw (s.regs.len .pw) old.pw, sc := anyBytes n .sc (s.regs.len .sc) old.sc }
  else if s.regs.cmd = 0x03 then { old with out := anyBytes n .out (4 * s.regs.len .out) old.out }
  else old

/-- What the abandoned command's buffers might have come to: what it would have written, or, of a command that has no
result because it is out of contract (40_quantization_codec R134), anything in its output buffers. -/
def commandResult (s : State) : Bufs :=
  match wouldWrite s with
  | .next t => t.bufs
  | .fault _ => anyOutput s
  | .refused _ => anyOutput s

/-- A buffer after a reset in mid-command: each element either as it was or as it would have been written, a free
choice for each (70_reset R260, 93 U13; log 13). -/
def mixMemory (n : Nat) (b : Buf) (old new : Memory) : Memory :=
  cellStore (w := 8) old
    (new.filter fun c => Config.resetFindsWritten n (bufNumber b) (c.1 / elemSize b))

/-- The buffers after a reset in mid-command: inputs as they were, outputs mixed. -/
def abandonedBufs (n : Nat) (old new : Bufs) : Bufs :=
  { old with
    pw := mixMemory n .pw old.pw new.pw
    sc := mixMemory n .sc old.sc new.sc
    out := mixMemory n .out old.out new.out }

/-- The block at its reset values (10_state R49) beside these buffers; the host goes on. -/
def resetBlock (bufs : Bufs) (s : State) : State :=
  { State.reset with
    bufs := bufs
    env := { s.env with atStart := bufs, resets := s.env.resets + 1 } }

/-- The buffers after the reset event: not changed (70_reset R260), unless it abandons a command. -/
def resetBufs (s : State) : Bufs :=
  if busy s then abandonedBufs s.env.resets s.env.atStart (commandResult s) else s.bufs

/-- The reset event (70_reset R260), in every state. -/
def hostReset (s : State) : Run := .next (resetBlock (resetBufs s) s)

end Sys2Proof.Machine
end

