-- ==== Sys2Proof/Machine/Step.lean ====
section
/-!
DEFINITION. One step of the machine: the agent whose turn it is, by the head of the host's script, takes its action.
-/
namespace Sys2Proof.Machine

/-- The block's turn: the operation in the issue slot, then the sequencer. With nothing issued the block waits for a
`CMD` write (60_exceptions R248; log 22). -/
def blockStep (s : State) : Host.Outcome State Fault Refusal :=
  match s.seq.issue with
  | some op =>
    match decode [op] with
    | .ok (i, _) => andThen (exec i (takeIssue s)) (advance i)
    | .error _ => .fault (.unknownOp op)
  | none => if busy s then .fault .nothingIssued else .next s

/-- The state with the head of the script taken off. -/
def dropEvent (s : State) : State := { s with env := { s.env with script := s.env.script.tail } }

/-- What the action at the head of the script does. -/
def eventStep (e : HostEvent) (s : State) : Host.Outcome State Fault Refusal :=
  match e with
  | .wr x v => hostWrite x v (dropEvent s)
  | .rd x => hostRead x (dropEvent s)
  | .st b i v => hostStore b i v (dropEvent s)
  | .ld b i => hostLoad b i (dropEvent s)
  | .wait => if busy s then blockStep s else .next (dropEvent s)
  | .reset => hostReset (dropEvent s)
  | .block => blockStep (dropEvent s)

/-- One step. With no host action to come the block goes on with its command. -/
def step (s : State) : Host.Outcome State Fault Refusal :=
  match s.env.script with
  | [] => blockStep s
  | e :: _ => eventStep e s

/-- `s` with the operation in `w` in the issue slot and the block to move next (log 1, 4). -/
def State.withFetchWord (s : State) (nbits w : Nat) : State :=
  { s with
    seq := { s.seq with issue := if 8 ≤ nbits then some (BitVec.ofNat 8 w) else none }
    env := { s.env with script := .block :: s.env.script } }

end Sys2Proof.Machine
end

