-- ==== Sys2Proof/Safety.lean ====
section
/-!
DEFINITION. The terms claims use: when a QUANT has a meaning (40_quantization_codec R134, R137), the reference
product (42_reference_model R171), what a valid state keeps, and runs of several steps.
-/
namespace Sys2Proof

/-- The width of each register (10_state R35). -/
def CtrlReg.width : CtrlReg → Nat
  | .cmd => 8 | .status => 2 | .cause => 3
  | .dimM => 32 | .dimK => 32 | .dimN => 32 | .dimG => 32
  | .dqByte => 8 | .dqSel => 1 | .dqScale => 8 | .dqOut => 8
  | .lenWF => 32 | .lenPW => 32 | .lenSC => 32 | .lenACT => 32 | .lenOUT => 32

/-- The registers a host write changes (10_state R35), `CMD` apart. -/
def CtrlReg.writable : CtrlReg → Bool
  | .cmd | .status | .cause | .dqOut => false
  | .dimM | .dimK | .dimN | .dimG | .dqByte | .dqSel | .dqScale | .lenWF | .lenPW | .lenSC | .lenACT
  | .lenOUT => true

end Sys2Proof

namespace Sys2Proof.Machine

/-! ### Elements of buffers -/

/-- A step of the model has written all four bytes of a 4-byte element. -/
def written32 (m : Memory) (i : Nat) : Bool :=
  cellHas (w := 8) m (4 * i) && cellHas (w := 8) m (4 * i + 1) && cellHas (w := 8) m (4 * i + 2) &&
  cellHas (w := 8) m (4 * i + 3)

/-- QUANT's preconditions hold (40_quantization_codec R137) and every weight is finite (R134). -/
structure QuantReady (p : Params) (s : State) : Prop where
  check : quantCause p s.regs = none
  finite : ∀ f < s.regs.dimK.toNat * s.regs.dimN.toNat, f32Finite (s.bufs.word .wf f) = true

/-! ### The reference model (42_reference_model R171) -/

/-- `A(m, k) = sext_8(ACT[m*K + k])`. -/
def refA (b : Bufs) (d : Dims) (m k : Nat) : Int := (b.byte .act (m * d.k.toNat + k)).toInt

/-- `W(k, n) = DEQ(PW[(k*N + n) div 2], (k*N + n) mod 2, SC[(k*N + n) div G])`. -/
def refW (p : Params) (b : Bufs) (d : Dims) (k n : Nat) : Int :=
  weightAt p.dqBits b d.g.toNat (flatIndex d.n.toNat k n)

/-- `RefMM[m][n] = sum over k = 0 .. K-1 of A(m, k) * W(k, n)`. -/
def refMM (p : Params) (b : Bufs) (d : Dims) (m n : Nat) : Int :=
  ∑ k ∈ Finset.range d.k.toNat, refA b d m k * refW p b d k n

/-! ### The codec as a function (40_quantization_codec R131) -/

/-- `S(g)`, the scale of group `g` of size `n`. -/
def groupScale (b : Bufs) (n g : Nat) : BitVec 2 := scaleOf (groupMax b (g * n) n)

/-- `Q(f) = clamp(round_TIE(WF[f] / 4^S(group(f))), -8, 7)`. -/
def quantValue (tie : Tie) (b : Bufs) (n f : Nat) : Int := quantWeight tie (groupScale b n (f / n)) (b.word .wf f)

/-! ### What a valid state keeps -/

/-- Every buffer and array is in canonical form. -/
structure Canonical (s : State) : Prop where
  bufs : ∀ b : Buf, Memory.wf (s.bufs.get b) = true
  atStart : ∀ b : Buf, Memory.wf (s.env.atStart.get b) = true
  acache : cellsWf s.scr.acache = true
  wcache : cellsWf s.scr.wcache = true
  awork : cellsWf s.scr.awork = true
  wwork : cellsWf s.scr.wwork = true
  acc : cellsWf s.scr.acc = true

/-- Every listed cell of an array exists: its address is below `n`. -/
def cellsBelow {w : Nat} (n : Nat) (m : Cells w) : Prop := ∀ q ∈ m, q.1 < n

/-- Every listed cell of an array holds a signed value of `bits` bits. -/
def cellsFit {w : Nat} (bits : Nat) (m : Cells w) : Prop :=
  ∀ q ∈ m, -2 ^ (bits - 1) ≤ q.2.toInt ∧ q.2.toInt < 2 ^ (bits - 1)

/-- The on-chip arrays hold no more than their capacity (10_state R27 to R31), and the cells of the weight arrays a
value of `DQ_BITS` bits (00_scope R5; log 16). -/
structure WithinCapacity (p : Params) (s : State) : Prop where
  acache : cellsBelow (p.capM * p.capK) s.scr.acache
  wcache : cellsBelow (p.capN * p.capK) s.scr.wcache
  awork : cellsBelow (p.peRows * p.capK) s.scr.awork
  wwork : cellsBelow (p.peCols * p.capK) s.scr.wwork
  acc : cellsBelow (p.peRows * p.peCols) s.scr.acc
  wcacheFits : cellsFit p.dqBits s.scr.wcache
  wworkFits : cellsFit p.dqBits s.scr.wwork

/-- Which operation may be issued next, by the command running and its phase (10_state R43): CHECK, or the command
itself when the schedule takes it whole; then the operations of the command's own phase. -/
def stage (cmd : Byte) (phase : Phase) (i : Instr) : Bool :=
  match phase, i with
  | .check, .check => true
  | .check, .quant => cmd = 0x01
  | .check, .deq => cmd = 0x02
  | .check, .gemm => cmd = 0x03
  | .quant, .qscale => cmd = 0x01
  | .quant, .qpair => cmd = 0x01
  | .deq, .nibsel => cmd = 0x02
  | .preload, .loada => cmd = 0x03
  | .preload, .loadw => cmd = 0x03
  | .tiles, .tcopy => cmd = 0x03
  | .tiles, .aclr => cmd = 0x03
  | .tiles, .mac => cmd = 0x03
  | .tiles, .tstore => cmd = 0x03
  | .tiles, .tile => cmd = 0x03
  | _, _ => false

/-- The command protocol (10_state R36, R37, R38, R43): a cause exactly when rejected, the sequencer idle exactly when
no command runs, `CMD` without a value and nothing issued outside a command, and an operation of the command's phase
issued as long as it runs. -/
structure Protocol (s : State) : Prop where
  cause : s.regs.cause ≠ .none ↔ s.regs.status = .rejected
  phase : s.seq.phase = .idle ↔ s.regs.status ≠ .busy
  quiet : s.regs.status ≠ .busy → s.regs.cmd = 0 ∧ s.seq.issue = none
  issued : s.regs.status = .busy →
    ∃ i, s.seq.issue = some (encodeOp i) ∧ stage s.regs.cmd s.seq.phase i = true

/-! ### What CHECK rejects (60_exceptions R231) -/

/-- The condition of each cause for a command, each on its own, as the table of 60_exceptions R231 gives it. -/
def violates (p : Params) (op : Byte) (r : Regs) : Cause → Prop
  | .none => False
  | .illegalOp => op ≠ 0x01 ∧ op ≠ 0x02 ∧ op ≠ 0x03
  | .dimRange => (op = 0x01 ∨ op = 0x03) ∧
      (r.dimK.toNat = 0 ∨ p.capK < r.dimK.toNat ∨ r.dimN.toNat = 0 ∨ p.capN < r.dimN.toNat ∨
        (op = 0x03 ∧ (r.dimM.toNat = 0 ∨ p.capM < r.dimM.toNat)))
  | .groupSize => (op = 0x01 ∨ op = 0x03) ∧ (r.dimG.toNat < 2 ∨ r.dimG.toNat % 2 = 1)
  | .tileDivisibility => op = 0x03 ∧
      (r.dimM.toNat % p.peRows ≠ 0 ∨ r.dimN.toNat % p.peCols ≠ 0 ∨ r.dimK.toNat % p.peRows ≠ 0 ∨
        r.dimK.toNat % p.peCols ≠ 0)
  | .groupDivisibility => (op = 0x01 ∨ op = 0x03) ∧ r.dimK.toNat * r.dimN.toNat % r.dimG.toNat ≠ 0
  | .bufferLength =>
      (op = 0x01 ∨ op = 0x03) ∧
      (r.lenPW.toNat ≠ r.dimK.toNat * r.dimN.toNat / 2 ∨
        r.lenSC.toNat ≠ r.dimK.toNat * r.dimN.toNat / r.dimG.toNat ∨
        (op = 0x01 ∧ r.lenWF.toNat ≠ r.dimK.toNat * r.dimN.toNat) ∨
        (op = 0x03 ∧ (r.lenACT.toNat ≠ r.dimM.toNat * r.dimK.toNat ∨
          r.lenOUT.toNat ≠ r.dimM.toNat * r.dimN.toNat)))

/-! ### Runs -/

/-- `n` steps, the first stop ending the run. -/
def stepN : Nat → State → Run
  | 0, s => .next s
  | n + 1, s => andThen (step s) (stepN n)

/-- Tile pairs computed one after the other in the order of the list (20_memory R73 (c), 43_tiled_engine R191). -/
def runTiles (p : Params) : List (Nat × Nat) → State → Run
  | [], s => .next s
  | (mt, nt) :: rest, s => andThen (tileOp p mt nt s) (runTiles p rest)

/-- The tile pairs of the latched dimensions in the canonical order (43_tiled_engine R191). -/
def allTiles (p : Params) (s : State) : List (Nat × Nat) :=
  grid (s.seq.lat.mTiles p) (s.seq.lat.nTiles p) fun mt nt => (mt, nt)

end Sys2Proof.Machine
end

