-- ==== Sys2Proof/Certificates/Slice0/Obligations.lean ====
section
/-!
DEFINITION. The statements for the provers. Each docstring names the rule of spec/ it formalises.
-/
open Sys2Proof Sys2Proof.Machine

/-! ### Op codes and the step -/

/-- The op code map of 30_encoding R103, byte by byte, with the format of each operation: CMD8 for the three the host
issues, UOP8 for the others. -/
def Obligations.OpCodesDecode : Prop :=
  decodeOp 0x01 = some .quant ∧ decodeOp 0x02 = some .deq ∧ decodeOp 0x03 = some .gemm ∧
  decodeOp 0x10 = some .qscale ∧ decodeOp 0x11 = some .qpair ∧ decodeOp 0x20 = some .nibsel ∧
  decodeOp 0x30 = some .check ∧ decodeOp 0x31 = some .loada ∧ decodeOp 0x32 = some .loadw ∧
  decodeOp 0x33 = some .tcopy ∧ decodeOp 0x34 = some .aclr ∧ decodeOp 0x35 = some .mac ∧
  decodeOp 0x36 = some .tstore ∧ decodeOp 0x37 = some .tile ∧ decodeOp 0x00 = none ∧ decodeOp 0xFF = none ∧
  (∀ i ∈ [Instr.quant, .deq, .gemm], i.issuable = true) ∧
  (∀ i ∈ [Instr.qscale, .qpair, .nibsel, .check, .loada, .loadw, .tcopy, .aclr, .mac, .tstore, .tile],
    i.issuable = false)

/-- Decoding and encoding agree in both directions (30_encoding R103, R105): bytes decode to an operation exactly
when they begin with its op code, and what follows is left. -/
def Obligations.DecodeExactlyInvertsEncode : Prop :=
  ∀ (bytes rest : List Byte) (i : Instr), decode bytes = .ok (i, rest) ↔ bytes = encode i ++ rest

/-- A step of the block runs the decoded operation, then the sequencer (10_state R43): when the host has nothing
more to do, when the script gives the block its turn, and while the host waits for a running command.
The issue slot and the script are the model's own (log 1, 4). -/
def Obligations.StepRunsIssuedOperation : Prop :=
  ∀ (s : State) (op : Byte) (i : Instr), s.seq.issue = some op → decode [op] = .ok (i, []) →
    (s.env.script = [] → step s = andThen (exec i (takeIssue s)) (advance i)) ∧
    (∀ rest, s.env.script = .block :: rest →
      step s = andThen (exec i (takeIssue (dropEvent s))) (advance i)) ∧
    (∀ rest, s.env.script = .wait :: rest → s.regs.status = .busy →
      step s = andThen (exec i (takeIssue s)) (advance i))

/-- The operation placed for the next step is the one the next step runs.
The placing is the model's own (log 1). -/
def Obligations.FetchWordRunsNext : Prop :=
  ∀ (s : State) (w : Nat) (i : Instr), decodeTableWord 8 w = some i →
    step (s.withFetchWord 8 w) = andThen (exec i (takeIssue s)) (advance i)

/-- "The block is either waiting for a `CMD` write or running a command" (60_exceptions R248): waiting changes
nothing.
That waiting changes nothing is the model's reading (log 22). -/
def Obligations.IdleBlockWaits : Prop :=
  ∀ s : State, s.env.script = [] → s.seq.issue = none → s.regs.status ≠ .busy → step s = .next s

/-! ### The host -/

/-- A `CMD` write while not BUSY (10_state R36): `STATUS <- BUSY`, `CAUSE <- NONE`, `PHASE <- CHECK`, nothing else of
the block, and the command's first operation issued.
What `CMD` holds, the issue and the noted buffers are the model's own (log 2, 4, 7, 13). -/
def Obligations.CommandWriteStartsCommand : Prop :=
  ∀ (s : State) (v : Nat) (rest : List HostEvent), s.regs.status ≠ .busy → s.env.script = .wr .cmd v :: rest →
    ∃ t, step s = .next t ∧
      t.regs = { s.regs with cmd := BitVec.ofNat 8 v, status := .busy, cause := .none } ∧
      t.bufs = s.bufs ∧ t.scr = s.scr ∧
      t.seq = { s.seq with phase := .check, issue := t.seq.issue } ∧
      (s.env.grain ≠ .command ∨ commandByteWf (BitVec.ofNat 8 v) = false → t.seq.issue = some 0x30) ∧
      (s.env.grain = .command → commandByteWf (BitVec.ofNat 8 v) = true →
        t.seq.issue = some (BitVec.ofNat 8 v)) ∧
      t.env = { s.env with script := rest, atStart := s.bufs }

/-- Every `CMD` byte other than 0x01, 0x02, 0x03 is rejected with `ILLEGAL_OP` and nothing else changes
(30_encoding R104).
`CMD` reading 0 afterwards and the noted buffers are the model's own (log 7, 13). -/
def Obligations.IllegalCommandRejected : Prop :=
  ∀ (s : State) (v : Nat) (rest : List HostEvent), s.regs.status ≠ .busy →
    s.env.script = .wr .cmd v :: .block :: rest → commandByteWf (BitVec.ofNat 8 v) = false →
    ∃ t, stepN 2 s = .next t ∧
      t.regs = { s.regs with cmd := 0, status := .rejected, cause := .illegalOp } ∧
      t.bufs = s.bufs ∧ t.scr = s.scr ∧ t.seq = { s.seq with phase := .idle, issue := none } ∧
      t.env = { s.env with script := rest, atStart := s.bufs }

/-- Host writes of registers other than `CMD` (10_state R35): the low bits of the register's width are kept, a
read-only register keeps its value, and nothing else changes. -/
def Obligations.RegisterWriteKeepsLowBits : Prop :=
  ∀ (s : State) (x : CtrlReg) (v : Nat) (rest : List HostEvent), s.regs.status ≠ .busy → x ≠ .cmd →
    s.env.script = .wr x v :: rest →
    ∃ t, step s = .next t ∧
      (x.writable = true → (readReg t x).toNat = v % 2 ^ x.width) ∧
      (x.writable = false → t.regs = s.regs) ∧
      (∀ y, y ≠ x → readReg t y = readReg s y) ∧
      t.regs.cmd = s.regs.cmd ∧ t.bufs = s.bufs ∧ t.scr = s.scr ∧ t.seq = s.seq ∧
      t.env = { s.env with script := rest }

/-- Host reads of registers have no side effect (20_memory R66) and return the register's value, 0 for `CMD`, and
`DQ_OUT` sign-extended once a DEQ has written it (10_state R35, R40).
That the registers other than `STATUS` can be read while BUSY is the model's reading (log 24), the one read left out
is the refused one of log 14, and the list of values read is the model's (log 23). -/
def Obligations.RegisterReadHasNoSideEffect : Prop :=
  ∀ (s : State) (x : CtrlReg) (rest : List HostEvent), s.env.script = .rd x :: rest →
    ¬(s.regs.status = .busy ∧ s.regs.cmd = 0x02 ∧ x = .dqOut) →
    ∃ (t : State) (v : Word), step s = .next t ∧ t.regs = s.regs ∧ t.bufs = s.bufs ∧ t.scr = s.scr ∧
      t.seq = s.seq ∧ t.env = { s.env with script := rest, seen := v :: s.env.seen } ∧
      (x = .cmd → v = 0) ∧ (x = .status → v = s.regs.status.code) ∧ (x = .cause → v = s.regs.cause.code) ∧
      (x = .dqOut → s.regs.dqOutSet = true → v.toInt = s.regs.dqOut.toInt) ∧
      (x = .dimM → v = s.regs.dimM) ∧ (x = .dimK → v = s.regs.dimK) ∧ (x = .dimN → v = s.regs.dimN) ∧
      (x = .dimG → v = s.regs.dimG) ∧ (x = .dqByte → v.toNat = s.regs.dqByte.toNat) ∧
      (x = .dqSel → v.toNat = s.regs.dqSel.toNat) ∧ (x = .dqScale → v.toNat = s.regs.dqScale.toNat) ∧
      (x = .lenWF → v = s.regs.lenWF) ∧ (x = .lenPW → v = s.regs.lenPW) ∧ (x = .lenSC → v = s.regs.lenSC) ∧
      (x = .lenACT → v = s.regs.lenACT) ∧ (x = .lenOUT → v = s.regs.lenOUT)

/-- A host read of `DQ_OUT` before any DEQ gives the free value, whatever it is (93_implementation_defined U8;
log 9). -/
def Obligations.UnwrittenDqOutReadsFree : Prop :=
  ∀ (s : State) (rest : List HostEvent), s.env.script = .rd .dqOut :: rest → s.regs.dqOutSet = false →
    s.regs.status ≠ .busy →
    step s = .next { s with env := { s.env with
      script := rest
      seen := (Config.freeDqOut s.env.resets).signExtend 32 :: s.env.seen } }

/-- What the host may not do while BUSY (70_reset R264, R265, R266; 93_implementation_defined U10) has no meaning.
How far the refusal goes is the model's choice (log 14). -/
def Obligations.HostKeepsOffWhileBusy : Prop :=
  ∀ (s : State) (rest : List HostEvent), s.regs.status = .busy →
    (∀ x v, s.env.script = .wr x v :: rest → step s = .refused .registerWriteWhileBusy) ∧
    (∀ b i v, s.env.script = .st b i v :: rest → step s = .refused .accessWhileBusy) ∧
    (∀ b i, s.env.script = .ld b i :: rest → step s = .refused .accessWhileBusy) ∧
    (s.regs.cmd = 0x02 → s.env.script = .rd .dqOut :: rest → step s = .refused .accessWhileBusy)

/-- A host write of a buffer element and its read back (30_encoding R107, 20_memory R60, R62, R65): the low bits of
the element's width, and no other byte of any buffer changes.
That both complete at every 32-bit index, whatever the length register holds, is the model's reading (log 18); that a
wide value keeps its low bits and that a byte is read with zeros above it are its choices (log 21, 30). -/
def Obligations.StoreThenLoadReturnsValue : Prop :=
  ∀ (s : State) (b : Buf) (i v : Nat) (rest : List HostEvent), s.regs.status ≠ .busy → i < 2 ^ 32 →
    s.env.script = .st b i v :: .ld b i :: rest →
    ∃ t u, step s = .next t ∧ step t = .next u ∧
      (∃ x, u.env.seen = x :: s.env.seen ∧ x.toNat = v % 2 ^ (8 * elemSize b)) ∧
      (∀ a, a / elemSize b ≠ i → cellGet (w := 8) (u.bufs.get b) a = cellGet (w := 8) (s.bufs.get b) a) ∧
      (∀ c, c ≠ b → u.bufs.get c = s.bufs.get c) ∧
      u.regs = s.regs ∧ u.scr = s.scr ∧ u.seq = s.seq ∧
      u.env = { s.env with script := rest, seen := u.env.seen }

/-! ### Reset -/

/-- The values of 10_state R49 in the state after reset; where the rule gives no value, the cell is not listed or its
flag says that nothing has written it. -/
def Obligations.ResetStateValues : Prop :=
  State.reset.regs.cmd = 0 ∧ State.reset.regs.status = .idle ∧ State.reset.regs.cause = .none ∧
  State.reset.regs.dims = { m := 0, k := 0, n := 0, g := 0 } ∧
  State.reset.regs.dqByte = 0 ∧ State.reset.regs.dqSel = 0 ∧ State.reset.regs.dqScale = 0 ∧
  (∀ b, State.reset.regs.len b = 0) ∧ State.reset.regs.dqOutSet = false ∧ State.reset.scr.qsSet = false ∧
  State.reset.scr.acache = [] ∧ State.reset.scr.wcache = [] ∧ State.reset.scr.awork = [] ∧
  State.reset.scr.wwork = [] ∧ State.reset.scr.acc = [] ∧
  State.reset.seq.phase = .idle ∧ State.reset.seq.mt = 0 ∧ State.reset.seq.nt = 0 ∧ State.reset.seq.k = 0 ∧
  State.reset.seq.p1Done = false ∧ State.reset.seq.p2Done = false

/-- The reset event between commands (70_reset R260, 10_state R49): every piece of the block at its reset value, the
external buffers unchanged, the host's script going on. R49 gives `DQ_OUT` and `QS` no value: what they hold with their
flag saying "unwritten" is the model's (log 8, 9), and so are the values of its own fields: the latch (log 5), `CMD`
holding 0, the codec's numbers, the issue slot and the latched dimensions (log 4, 6, 7), the noted buffers, the count
of resets and the script (log 1, 13, 25). -/
def Obligations.ResetEventRestoresBlock : Prop :=
  ∀ (s : State) (rest : List HostEvent), s.regs.status ≠ .busy → s.env.script = .reset :: rest →
    ∃ t, step s = .next t ∧ t.regs = State.reset.regs ∧ t.scr = State.reset.scr ∧ t.seq = State.reset.seq ∧
      t.bufs = s.bufs ∧ t.env = { s.env with script := rest, atStart := s.bufs, resets := s.env.resets + 1 }

/-- A reset during a command abandons it, whatever the command is (70_reset R260): the block at its reset values, the
inputs as at the `CMD` write, and each element of the output buffers either as it was then or as the command would have
written it. Of a command that would have no result (40_quantization_codec R134) the model leaves its own output
buffers open and everything else as it was. How the choice is drawn is the model's (log 13), and so are the values of
`DQ_OUT`, of `QS` and of its own fields (log 1, 4, 5, 6, 7, 8, 9, 25). -/
def Obligations.ResetAbandonsCommand : Prop :=
  ∀ (s : State) (rest : List HostEvent), s.regs.status = .busy → s.env.script = .reset :: rest →
    ∃ t, step s = .next t ∧ t.regs = State.reset.regs ∧ t.scr = State.reset.scr ∧ t.seq = State.reset.seq ∧
      t.env.script = rest ∧ t.bufs.wf = s.env.atStart.wf ∧ t.bufs.act = s.env.atStart.act ∧
      (∀ u, wouldWrite (dropEvent s) = .next u →
        (∀ b ∈ [Buf.pw, .sc], ∀ a,
          t.bufs.byte b a = s.env.atStart.byte b a ∨ t.bufs.byte b a = u.bufs.byte b a) ∧
        (∀ o, t.bufs.word .out o = s.env.atStart.word .out o ∨ t.bufs.word .out o = u.bufs.word .out o)) ∧
      ((∀ u, wouldWrite (dropEvent s) ≠ .next u) →
        (∀ b ∈ [Buf.pw, .sc], ∀ a, s.regs.cmd ≠ 0x01 ∨ s.regs.len b ≤ a →
          t.bufs.byte b a = s.env.atStart.byte b a) ∧
        (∀ o, s.regs.cmd ≠ 0x03 ∨ s.regs.len .out ≤ o → t.bufs.word .out o = s.env.atStart.word .out o))

/-! ### CHECK and rejection -/

/-- CHECK completes in every state (43_tiled_engine R182, 40_quantization_codec R137): with no condition of
60_exceptions R231 it latches the dimensions and changes nothing else; otherwise it rejects with the lowest code
whose condition holds (R233), changing `CAUSE`, `STATUS` and `PHASE` only (R234), `CMD` having no value once the
command ends.
The latch and `CMD` are the model's reading (log 6, 7). -/
def Obligations.CheckRejectsLowestCause : Prop :=
  ∀ s : State, ∃ t, exec .check s = .next t ∧ t.bufs = s.bufs ∧ t.scr = s.scr ∧ t.env = s.env ∧
    ((∀ c, ¬violates Config.params s.regs.cmd s.regs c) →
      t.regs = s.regs ∧ t.seq = { s.seq with lat := latchDims s.regs.cmd s.regs s.seq.lat }) ∧
    (∀ c, violates Config.params s.regs.cmd s.regs c →
      (∀ d, d.code < c.code → ¬violates Config.params s.regs.cmd s.regs d) →
      t.regs = { s.regs with cmd := 0, status := .rejected, cause := c } ∧ t.seq = { s.seq with phase := .idle })

/-- A rejected GEMM or QUANT leaves every buffer and all scratch state untouched (43_tiled_engine R199,
60_exceptions R234): only `STATUS`, `CAUSE` and `PHASE` differ, `CMD` having no value once the command ends.
The noted buffers and `CMD` are the model's own (log 7, 13). -/
def Obligations.RejectedCommandChangesNothing : Prop :=
  ∀ (s : State) (c : Cause),
    (gemmCause Config.params s.regs = some c → ∃ t, exec .gemm s = .next t ∧
      t.regs = { s.regs with cmd := 0, status := .rejected, cause := c } ∧ t.bufs = s.bufs ∧ t.scr = s.scr ∧
      t.seq = { s.seq with phase := .idle } ∧ t.env = { s.env with atStart := s.bufs }) ∧
    (quantCause Config.params s.regs = some c → ∃ t, exec .quant s = .next t ∧
      t.regs = { s.regs with cmd := 0, status := .rejected, cause := c } ∧ t.bufs = s.bufs ∧ t.scr = s.scr ∧
      t.seq = { s.seq with phase := .idle } ∧ t.env = { s.env with atStart := s.bufs })

/-! ### The Dequantization Primitive -/

/-- NIBSEL (41_dequantization R151, R152): the signed value of the selected nibble, and nothing else changes but the
latch that holds it (log 5). -/
def Obligations.NibselGivesSignedNibble : Prop :=
  ∀ s : State, ∃ t, exec .nibsel s = .next t ∧
    (let n := if s.regs.dqSel = 0 then s.regs.dqByte.toNat % 16 else s.regs.dqByte.toNat / 16
     t.scr.nib.toInt = if n < 8 then (n : Int) else (n : Int) - 16) ∧
    t.regs = s.regs ∧ t.bufs = s.bufs ∧ t.seq = s.seq ∧ t.env = s.env ∧
    t.scr = { s.scr with nib := t.scr.nib }

/-- DEQ, the command (41_dequantization R161, R155): it completes from every state, `DQ_OUT` holds `wrap_8(q * 4^s)`,
`STATUS` is `DONE`, and the operand, dimension and length registers, the buffers, the caches and the accumulator are
unchanged. -/
def Obligations.DeqCommandResult : Prop :=
  ∀ s : State, ∃ t, exec .deq s = .next t ∧
    t.regs = { s.regs with
      cmd := t.regs.cmd, status := .done, cause := .none, dqOut := t.regs.dqOut, dqOutSet := true } ∧
    t.regs.dqOut.toInt = deq 8 s.regs.dqByte s.regs.dqSel s.regs.dqScale ∧
    t.regs.dqOut.toInt = Int.bmod (deqExact s.regs.dqByte s.regs.dqSel s.regs.dqScale) 256 ∧
    t.bufs = s.bufs ∧ t.scr = { s.scr with nib := t.scr.nib } ∧ t.seq = { s.seq with phase := .idle } ∧
    t.env = { s.env with atStart := t.env.atStart }

/-- The complete table of the primitive (41_dequantization R157): for the selected nibble pattern `n` (rows) the value
`q` and the results at the four scales (columns), with the exact value `q * 4^s`; whatever the other nibble and bits
7:2 of the scale byte hold (R156, R153). -/
def Obligations.DequantizationTable : Prop :=
  ∀ (byte : Byte) (sel : BitVec 1) (scale : Byte),
    let n := if sel = 0 then byte.toNat % 16 else byte.toNat / 16
    let row : Int × List Int :=
      match n with
      | 0x0 => (0, [0, 0, 0, 0])
      | 0x1 => (1, [1, 4, 16, 64])
      | 0x2 => (2, [2, 8, 32, -128])
      | 0x3 => (3, [3, 12, 48, -64])
      | 0x4 => (4, [4, 16, 64, 0])
      | 0x5 => (5, [5, 20, 80, 64])
      | 0x6 => (6, [6, 24, 96, -128])
      | 0x7 => (7, [7, 28, 112, -64])
      | 0x8 => (-8, [-8, -32, -128, 0])
      | 0x9 => (-7, [-7, -28, -112, 64])
      | 0xA => (-6, [-6, -24, -96, -128])
      | 0xB => (-5, [-5, -20, -80, -64])
      | 0xC => (-4, [-4, -16, -64, 0])
      | 0xD => (-3, [-3, -12, -48, 64])
      | 0xE => (-2, [-2, -8, -32, -128])
      | _ => (-1, [-1, -4, -16, -64])
    (nibSel byte sel).toInt = row.1 ∧ deqExact byte sel scale = row.1 * 4 ^ (scale.toNat % 4) ∧
    row.2[scale.toNat % 4]? = some (deq 8 byte sel scale)

/-- The agreement domain (41_dequantization R158): the 8-bit result is the exact value exactly when that fits 8 bits,
which is at every scale but 3, and at 3 for `q` in -2, -1, 0, 1; otherwise they differ by a multiple of 256. The other
reading, `DQ_BITS = 10`, is always the exact value. -/
def Obligations.DequantizationExactDomain : Prop :=
  ∀ (byte : Byte) (sel : BitVec 1) (scale : Byte),
    (deq 8 byte sel scale = deqExact byte sel scale ↔
      -128 ≤ deqExact byte sel scale ∧ deqExact byte sel scale ≤ 127) ∧
    (deq 8 byte sel scale = deqExact byte sel scale ↔
      scale.toNat % 4 ≠ 3 ∨ (-2 ≤ (nibSel byte sel).toInt ∧ (nibSel byte sel).toInt ≤ 1)) ∧
    (deq 8 byte sel scale - deqExact byte sel scale) % 256 = 0 ∧
    deq 10 byte sel scale = deqExact byte sel scale

/-- The range of the primitive's result (41_dequantization R159): -128 to 112, 112 only for `q = 7`, `s = 2`, and
-128 for `q = -8`, `s = 2` and four patterns at `s = 3`; 120 is a value of neither reading. -/
def Obligations.DequantizationRange : Prop :=
  ∀ (byte : Byte) (sel : BitVec 1) (scale : Byte),
    -128 ≤ deq 8 byte sel scale ∧ deq 8 byte sel scale ≤ 112 ∧
    (deq 8 byte sel scale = 112 ↔ (nibSel byte sel).toInt = 7 ∧ scale.toNat % 4 = 2) ∧
    (deq 8 byte sel scale = -128 ↔
      ((nibSel byte sel).toInt = -8 ∧ scale.toNat % 4 = 2) ∨
      (scale.toNat % 4 = 3 ∧ ((nibSel byte sel).toInt = 2 ∨ (nibSel byte sel).toInt = 6 ∨
        (nibSel byte sel).toInt = -6 ∨ (nibSel byte sel).toInt = -2))) ∧
    deqExact byte sel scale ≠ 120

/-! ### The Quantization Codec -/

/-- The scale as a function of `max_abs` (40_quantization_codec R123), closed on the left at 16, 32 and 64, with
`floorlog2` and the scale factor; `mag` is `max_abs` in units of `2^-149` (log 27). -/
def Obligations.ScaleThresholds : Prop :=
  ∀ mag : Nat,
    (mag < 16 * f32One → scaleOf mag = 0 ∧ scaleFactor (scaleOf mag) = 1 ∧ (mag ≠ 0 → floorLog2 mag ≤ 3)) ∧
    (16 * f32One ≤ mag → mag < 32 * f32One →
      scaleOf mag = 1 ∧ scaleFactor (scaleOf mag) = 4 ∧ floorLog2 mag = 4) ∧
    (32 * f32One ≤ mag → mag < 64 * f32One →
      scaleOf mag = 2 ∧ scaleFactor (scaleOf mag) = 16 ∧ floorLog2 mag = 5) ∧
    (64 * f32One ≤ mag → scaleOf mag = 3 ∧ scaleFactor (scaleOf mag) = 64 ∧ 6 ≤ floorLog2 mag)

/-- `round_TIE` (00_scope R11, 40_quantization_codec R127): a nearest integer; of an exact half the one farther from
zero if `TIE = away`, the even one if `TIE = even`. -/
def Obligations.RoundsToNearest : Prop :=
  ∀ (tie : Tie) (num : Int) (den : Nat), 0 < den →
    |2 * ((den : Int) * roundTie tie num den - num)| ≤ den ∧
    (|2 * ((den : Int) * roundTie tie num den - num)| = den →
      (tie = .away → |num| < |(den : Int) * roundTie tie num den|) ∧
      (tie = .even → roundTie tie num den % 2 = 0))

/-- "Round then clamp equals clamp then round" (40_quantization_codec R129), under either tie rule. -/
def Obligations.RoundAndClampCommute : Prop :=
  ∀ (tie : Tie) (num : Int) (den : Nat), 0 < den →
    roundTie tie (clamp num (-8 * den) (7 * den)) den = clamp (roundTie tie num den) (-8) 7

/-- The round-trip error of a weight (40_quantization_codec R135), `x = w / 4^s`, `D = q * 4^s`, in units of
`2^-149`: at most half a scale step if `-8.5 <= x <= 7.5`; beyond, the error of the clamped value, larger than the
bound; and the 8-bit result of the primitive is `D` only in the domain of 41_dequantization R158. -/
def Obligations.RoundTripErrorBound : Prop :=
  ∀ (tie : Tie) (s : BitVec 2) (w : Word),
    let step : Int := f32One * scaleFactor s
    let d : Int := quantWeight tie s w * step
    (-17 * step ≤ 2 * f32Units w → 2 * f32Units w ≤ 15 * step → |2 * (d - f32Units w)| ≤ step) ∧
    (15 * step < 2 * f32Units w → d = 7 * step ∧ step < 2 * (f32Units w - d)) ∧
    (2 * f32Units w < -17 * step → d = -8 * step ∧ step < 2 * (d - f32Units w)) ∧
    (shiftWrap 8 (BitVec.ofInt 8 (quantWeight tie s w)) (s.setWidth 8) = quantWeight tie s w * scaleFactor s ↔
      s ≠ 3 ∨ (-2 ≤ quantWeight tie s w ∧ quantWeight tie s w ≤ 1))

/-- QSCALE (40_quantization_codec R122): `QS` is the scale of the group's largest magnitude, and nothing else
changes. -/
def Obligations.QscaleDerivesScale : Prop :=
  ∀ s : State,
    let g := s.seq.g.toNat
    let n := s.seq.lat.g.toNat
    g < s.seq.lat.groups → g * n + n ≤ s.regs.len .wf →
    (∀ x < n, f32Finite (s.bufs.word .wf (g * n + x)) = true) →
    ∃ (t : State) (ma : Nat), exec .qscale s = .next t ∧
      (∀ x < n, f32Mag (s.bufs.word .wf (g * n + x)) ≤ ma) ∧
      (ma = 0 ∨ ∃ x < n, ma = f32Mag (s.bufs.word .wf (g * n + x))) ∧
      t.scr = { s.scr with qs := scaleOf ma, qsSet := true } ∧
      t.regs = s.regs ∧ t.bufs = s.bufs ∧ t.seq = s.seq ∧ t.env = s.env

/-- QPAIR (40_quantization_codec R126, 30_encoding R93, R94): one byte of `PW` holds both quantized weights, the even
index low; nothing else changes. That the group and the pair stand in fields of the sequencer is the model's (log 4);
the value of an exact half follows its tie rule (log 15). -/
def Obligations.QpairPacksTwoWeights : Prop :=
  ∀ s : State,
    let f := s.seq.g.toNat * s.seq.lat.g.toNat + 2 * s.seq.i.toNat
    s.seq.g.toNat < s.seq.lat.groups → s.seq.i.toNat < s.seq.lat.pairs → s.scr.qsSet = true →
    f + 1 < s.regs.len .wf → f / 2 < s.regs.len .pw →
    f32Finite (s.bufs.word .wf f) = true → f32Finite (s.bufs.word .wf (f + 1)) = true →
    ∃ (t : State) (b : Byte), exec .qpair s = .next t ∧ cellGet (w := 8) t.bufs.pw (f / 2) = some b ∧
      nibble b 0 = BitVec.ofInt 4 (quantWeight .away s.scr.qs (s.bufs.word .wf f)) ∧
      nibble b 1 = BitVec.ofInt 4 (quantWeight .away s.scr.qs (s.bufs.word .wf (f + 1))) ∧
      (∀ a, a ≠ f / 2 → cellGet (w := 8) t.bufs.pw a = cellGet (w := 8) s.bufs.pw a) ∧
      t.bufs = { s.bufs with pw := t.bufs.pw } ∧ t.regs = s.regs ∧ t.scr = s.scr ∧ t.seq = s.seq ∧ t.env = s.env

/-- QUANT (40_quantization_codec R131, 70_reset R277): it ends in `DONE`, every scale byte and every nibble is the
function of the rule, bits 7:2 of a scale byte are zero, and nothing outside `PW`, `SC` and the codec's own scratch
changes.
The latched dimensions, `CMD` and the noted buffers are the model's own (log 6, 7, 13); the tie rule that the nibbles
follow is its reading (log 15). -/
def Obligations.QuantCommandResult : Prop :=
  ∀ s : State, QuantReady Config.params s →
    let total := s.regs.dimK.toNat * s.regs.dimN.toNat
    let g := s.regs.dimG.toNat
    ∃ t, exec .quant s = .next t ∧
      (∀ x < total / g, cellGet (w := 8) t.bufs.sc x = some ((groupScale s.bufs g x).setWidth 8)) ∧
      (∀ f < total, ∃ b, cellGet (w := 8) t.bufs.pw (f / 2) = some b ∧
        nibble b (selOf f) = BitVec.ofInt 4 (quantValue Config.params.tie s.bufs g f)) ∧
      (∀ a, total / g ≤ a → cellGet (w := 8) t.bufs.sc a = cellGet (w := 8) s.bufs.sc a) ∧
      (∀ a, total / 2 ≤ a → cellGet (w := 8) t.bufs.pw a = cellGet (w := 8) s.bufs.pw a) ∧
      t.bufs = { s.bufs with pw := t.bufs.pw, sc := t.bufs.sc } ∧
      t.regs = { s.regs with cmd := 0, status := .done, cause := .none } ∧
      t.scr = { s.scr with qs := t.scr.qs, qsSet := true } ∧
      t.seq = { s.seq with phase := .idle, lat := { s.regs.dims with m := s.seq.lat.m }, g := t.seq.g, i := t.seq.i } ∧
      t.env = { s.env with atStart := s.bufs }

/-- A group of zeros gets scale byte 0x00 and all-zero packed bytes (40_quantization_codec R138). -/
def Obligations.ZeroGroupQuantizesToZero : Prop :=
  ∀ (s : State) (x : Nat), QuantReady Config.params s →
    x < s.regs.dimK.toNat * s.regs.dimN.toNat / s.regs.dimG.toNat →
    (∀ y < s.regs.dimG.toNat, f32Units (s.bufs.word .wf (x * s.regs.dimG.toNat + y)) = 0) →
    ∃ t, exec .quant s = .next t ∧ cellGet (w := 8) t.bufs.sc x = some 0 ∧
      ∀ y < s.regs.dimG.toNat / 2, cellGet (w := 8) t.bufs.pw (x * (s.regs.dimG.toNat / 2) + y) = some 0

/-- "The result for group `g` depends only on the `G` weights of group `g`" (40_quantization_codec R132): two runs
with the same `K`, `N` and `G` whose weights agree on a group agree on its scale byte and its packed bytes. `DIM_M`,
which QUANT ignores (R131), may differ. -/
def Obligations.GroupsAreIndependent : Prop :=
  ∀ (s s' : State) (x : Nat), QuantReady Config.params s → QuantReady Config.params s' →
    s.regs.dimK = s'.regs.dimK → s.regs.dimN = s'.regs.dimN → s.regs.dimG = s'.regs.dimG →
    x < s.regs.dimK.toNat * s.regs.dimN.toNat / s.regs.dimG.toNat →
    (∀ y < s.regs.dimG.toNat, s.bufs.word .wf (x * s.regs.dimG.toNat + y) =
      s'.bufs.word .wf (x * s.regs.dimG.toNat + y)) →
    ∃ t t', exec .quant s = .next t ∧ exec .quant s' = .next t' ∧
      cellGet (w := 8) t.bufs.sc x = cellGet (w := 8) t'.bufs.sc x ∧
      ∀ y < s.regs.dimG.toNat / 2, cellGet (w := 8) t.bufs.pw (x * (s.regs.dimG.toNat / 2) + y) =
        cellGet (w := 8) t'.bufs.pw (x * (s.regs.dimG.toNat / 2) + y)

/-- A QUANT that passes CHECK on a `WF` holding a NaN or an infinity has no meaning (40_quantization_codec R134). -/
def Obligations.NonFiniteWeightRefused : Prop :=
  ∀ (s : State) (f : Nat), quantCause Config.params s.regs = none →
    f < s.regs.dimK.toNat * s.regs.dimN.toNat → f32Finite (s.bufs.word .wf f) = false →
    exec .quant s = .refused .nonFiniteWeight

/-! ### The engine's micro-operations -/

/-- LOADA (43_tiled_engine R183): `ACACHE[mt][i][k] = ACT[(mt*PE_ROWS + i)*K + k]`, `P1_DONE` set, nothing else
changed. -/
def Obligations.LoadaCopiesActivations : Prop :=
  ∀ s : State,
    let p := Config.params
    let k := s.seq.lat.k.toNat
    let rows := s.seq.lat.mTiles p * p.peRows
    rows ≤ p.capM → k ≤ p.capK → rows * k ≤ s.regs.len .act →
    ∃ t, exec .loada s = .next t ∧
      (∀ mt < s.seq.lat.mTiles p, ∀ i < p.peRows, ∀ c < k,
        cellGet t.scr.acache (rowCell p (mt * p.peRows + i) c) =
          some (s.bufs.byte .act ((mt * p.peRows + i) * k + c))) ∧
      (∀ a, (∀ r < rows, ∀ c < k, a ≠ rowCell p r c) → cellGet t.scr.acache a = cellGet s.scr.acache a) ∧
      t.scr = { s.scr with acache := t.scr.acache } ∧ t.seq = { s.seq with p1Done := true } ∧
      t.regs = s.regs ∧ t.bufs = s.bufs ∧ t.env = s.env

/-- LOADW (43_tiled_engine R184): `WCACHE[nt][j][k]` is the dequantized weight `(k, nt*PE_COLS + j)`, `P2_DONE` set,
nothing else changed. -/
def Obligations.LoadwDequantizesWeights : Prop :=
  ∀ s : State,
    let p := Config.params
    let k := s.seq.lat.k.toNat
    let n := s.seq.lat.n.toNat
    let g := s.seq.lat.g.toNat
    let cols := s.seq.lat.nTiles p * p.peCols
    cols ≤ p.capN → k ≤ p.capK → (g ≠ 0 ∨ cols * k = 0) →
    (∀ c < cols, ∀ x < k, (x * n + c) / 2 < s.regs.len .pw ∧ (x * n + c) / g < s.regs.len .sc) →
    ∃ t, exec .loadw s = .next t ∧
      (∀ nt < s.seq.lat.nTiles p, ∀ j < p.peCols, ∀ x < k,
        let f := x * n + (nt * p.peCols + j)
        ∃ v, cellGet t.scr.wcache (rowCell p (nt * p.peCols + j) x) = some v ∧
          v.toInt = deq 8 (s.bufs.byte .pw (f / 2)) (BitVec.ofNat 1 f) (s.bufs.byte .sc (f / g))) ∧
      (∀ a, (∀ c < cols, ∀ x < k, a ≠ rowCell p c x) → cellGet t.scr.wcache a = cellGet s.scr.wcache a) ∧
      t.scr = { s.scr with wcache := t.scr.wcache } ∧ t.seq = { s.seq with p2Done := true } ∧
      t.regs = s.regs ∧ t.bufs = s.bufs ∧ t.env = s.env

/-- TCOPY (43_tiled_engine R185): the tile's slices of both caches in the working buffers, verbatim; nothing else
changed. -/
def Obligations.TcopyCopiesSlices : Prop :=
  ∀ s : State,
    let p := Config.params
    let k := s.seq.lat.k.toNat
    let mt := s.seq.mt.toNat
    let nt := s.seq.nt.toNat
    mt < s.seq.lat.mTiles p → nt < s.seq.lat.nTiles p → k ≤ p.capK →
    (∀ i < p.peRows, ∀ c < k, cellHas s.scr.acache (rowCell p (mt * p.peRows + i) c) = true) →
    (∀ j < p.peCols, ∀ c < k, cellHas s.scr.wcache (rowCell p (nt * p.peCols + j) c) = true) →
    ∃ t, exec .tcopy s = .next t ∧
      (∀ i < p.peRows, ∀ c < k, cellGet t.scr.awork (rowCell p i c) =
        cellGet s.scr.acache (rowCell p (mt * p.peRows + i) c)) ∧
      (∀ j < p.peCols, ∀ c < k, cellGet t.scr.wwork (rowCell p j c) =
        cellGet s.scr.wcache (rowCell p (nt * p.peCols + j) c)) ∧
      (∀ a, (∀ i < p.peRows, ∀ c < k, a ≠ rowCell p i c) → cellGet t.scr.awork a = cellGet s.scr.awork a) ∧
      (∀ a, (∀ j < p.peCols, ∀ c < k, a ≠ rowCell p j c) → cellGet t.scr.wwork a = cellGet s.scr.wwork a) ∧
      t.scr = { s.scr with awork := t.scr.awork, wwork := t.scr.wwork } ∧
      t.regs = s.regs ∧ t.bufs = s.bufs ∧ t.seq = s.seq ∧ t.env = s.env

/-- ACLR (43_tiled_engine R186): every `ACC[i][j] = 0`, from any state; nothing else changed. -/
def Obligations.AclrZeroesAccumulator : Prop :=
  ∀ s : State, ∃ t, exec .aclr s = .next t ∧
    (∀ i < Config.params.peRows, ∀ j < Config.params.peCols,
      cellGet t.scr.acc (accCell Config.params i j) = some 0) ∧
    t.scr = { s.scr with acc := t.scr.acc } ∧
    t.regs = s.regs ∧ t.bufs = s.bufs ∧ t.seq = s.seq ∧ t.env = s.env

/-- MAC (43_tiled_engine R187): every `ACC[i][j]` grows by the exact signed product, `SEQ_K <- k + 1`; nothing else
changed. The hypotheses are the operand's range, that the cells read have been written (10_state R45), and that every
sum is one of 32 bits (R194). -/
def Obligations.MacAddsProducts : Prop :=
  ∀ s : State,
    let p := Config.params
    let k := s.seq.k.toNat
    k < s.seq.lat.k.toNat → k < p.capK →
    (∀ i < p.peRows, cellHas s.scr.awork (rowCell p i k) = true) →
    (∀ j < p.peCols, cellHas s.scr.wwork (rowCell p j k) = true) →
    (∀ i < p.peRows, ∀ j < p.peCols, cellHas s.scr.acc (accCell p i j) = true) →
    (∀ i < p.peRows, ∀ j < p.peCols, -2147483648 ≤ macSum p s k i j ∧ macSum p s k i j ≤ 2147483647) →
    ∃ t, exec .mac s = .next t ∧
      (∀ i < p.peRows, ∀ j < p.peCols, ∃ old new a w,
        cellGet s.scr.acc (accCell p i j) = some old ∧ cellGet s.scr.awork (rowCell p i k) = some a ∧
        cellGet s.scr.wwork (rowCell p j k) = some w ∧ cellGet t.scr.acc (accCell p i j) = some new ∧
        new.toInt = old.toInt + a.toInt * w.toInt) ∧
      t.seq = { s.seq with k := s.seq.k + 1 } ∧ t.scr = { s.scr with acc := t.scr.acc } ∧
      t.regs = s.regs ∧ t.bufs = s.bufs ∧ t.env = s.env

/-- The bound of the accumulation (43_tiled_engine R193, R194): from sums bounded by `k * 16384` a MAC step does not
overflow and leaves sums bounded by `(k + 1) * 16384`. The weight cells hold 8-bit values, which the capacity invariant
says (log 16). -/
def Obligations.MacKeepsAccumulatorBound : Prop :=
  ∀ s : State,
    let p := Config.params
    let k := s.seq.k.toNat
    WithinCapacity p s → k < s.seq.lat.k.toNat → k < p.capK →
    (∀ i < p.peRows, cellHas s.scr.awork (rowCell p i k) = true) →
    (∀ j < p.peCols, cellHas s.scr.wwork (rowCell p j k) = true) →
    (∀ i < p.peRows, ∀ j < p.peCols, ∃ v, cellGet s.scr.acc (accCell p i j) = some v ∧ |v.toInt| ≤ k * 16384) →
    ∃ t, exec .mac s = .next t ∧
      ∀ i < p.peRows, ∀ j < p.peCols, ∃ v, cellGet t.scr.acc (accCell p i j) = some v ∧
        |v.toInt| ≤ (k + 1) * 16384

/-- An accumulator addition that leaves 32 bits has no meaning (43_tiled_engine R194, 93_implementation_defined
U1): neither wrapped nor saturated. -/
def Obligations.AccumulatorOverflowRefused : Prop :=
  ∀ (s : State) (i j : Nat),
    let p := Config.params
    let k := s.seq.k.toNat
    k < s.seq.lat.k.toNat → k < p.capK →
    (∀ i < p.peRows, cellHas s.scr.awork (rowCell p i k) = true) →
    (∀ j < p.peCols, cellHas s.scr.wwork (rowCell p j k) = true) →
    (∀ i < p.peRows, ∀ j < p.peCols, cellHas s.scr.acc (accCell p i j) = true) →
    i < p.peRows → j < p.peCols → (macSum p s k i j < -2147483648 ∨ 2147483647 < macSum p s k i j) →
    exec .mac s = .refused .accOverflow

/-- A read of a scratch cell that nothing has written is a fault of the model (10_state R45, 93_implementation_defined
U8): MAC on any cell of `AWORK`, `WWORK` or `ACC` that it reads, TCOPY and TILE on any cell of `ACACHE` or `WCACHE`,
TSTORE on any cell of `ACC`, QPAIR on `QS`. Where a first array has all its cells the fault names the second. -/
def Obligations.UnwrittenScratchFaults : Prop :=
  ∀ s : State,
    let p := Config.params
    let k := s.seq.lat.k.toNat
    let mt := s.seq.mt.toNat
    let nt := s.seq.nt.toNat
    let x := s.seq.k.toNat
    let awork := ∀ i < p.peRows, cellHas s.scr.awork (rowCell p i x) = true
    let wwork := ∀ j < p.peCols, cellHas s.scr.wwork (rowCell p j x) = true
    let acache := ∀ i < p.peRows, ∀ c < k, cellHas s.scr.acache (rowCell p (mt * p.peRows + i) c) = true
    let wcache := ∀ j < p.peCols, ∀ c < k, cellHas s.scr.wcache (rowCell p (nt * p.peCols + j) c) = true
    let acc := ∀ i < p.peRows, ∀ j < p.peCols, cellHas s.scr.acc (accCell p i j) = true
    (x < k → x < p.capK →
      (¬awork → exec .mac s = .fault (.unwrittenCell .awork)) ∧
      (awork → ¬wwork → exec .mac s = .fault (.unwrittenCell .wwork)) ∧
      (awork → wwork → ¬acc → exec .mac s = .fault (.unwrittenCell .acc))) ∧
    (mt < s.seq.lat.mTiles p → nt < s.seq.lat.nTiles p → k ≤ p.capK →
      (¬acache → exec .tcopy s = .fault (.unwrittenCell .acache) ∧
        exec .tile s = .fault (.unwrittenCell .acache)) ∧
      (acache → ¬wcache → exec .tcopy s = .fault (.unwrittenCell .wcache) ∧
        exec .tile s = .fault (.unwrittenCell .wcache))) ∧
    (mt < s.seq.lat.mTiles p → nt < s.seq.lat.nTiles p →
      (∀ i < p.peRows, ∀ j < p.peCols, outIndex p s.seq.lat.n.toNat mt nt i j < s.regs.len .out) →
      ¬acc → exec .tstore s = .fault (.unwrittenCell .acc)) ∧
    (s.seq.g.toNat < s.seq.lat.groups → s.seq.i.toNat < s.seq.lat.pairs → s.scr.qsSet = false →
      exec .qpair s = .fault .unwrittenQS)

/-- TSTORE (43_tiled_engine R188): `OUT[(mt*PE_ROWS + i)*N + nt*PE_COLS + j] = ACC[i][j]`; no other byte of memory
and nothing else changed. -/
def Obligations.TstoreWritesTile : Prop :=
  ∀ s : State,
    let p := Config.params
    let n := s.seq.lat.n.toNat
    let mt := s.seq.mt.toNat
    let nt := s.seq.nt.toNat
    mt < s.seq.lat.mTiles p → nt < s.seq.lat.nTiles p →
    (∀ i < p.peRows, ∀ j < p.peCols, outIndex p n mt nt i j < s.regs.len .out) →
    (∀ i < p.peRows, ∀ j < p.peCols, cellHas s.scr.acc (accCell p i j) = true) →
    ∃ t, exec .tstore s = .next t ∧
      (∀ i < p.peRows, ∀ j < p.peCols, written32 t.bufs.out (outIndex p n mt nt i j) = true ∧
        cellGet s.scr.acc (accCell p i j) = some (t.bufs.word .out (outIndex p n mt nt i j))) ∧
      (∀ a, (∀ i < p.peRows, ∀ j < p.peCols, a / 4 ≠ outIndex p n mt nt i j) →
        cellGet (w := 8) t.bufs.out a = cellGet (w := 8) s.bufs.out a) ∧
      t.bufs = { s.bufs with out := t.bufs.out } ∧ t.regs = s.regs ∧ t.scr = s.scr ∧ t.seq = s.seq ∧ t.env = s.env

/-- TILE (43_tiled_engine R189): the tile's region of `OUT` holds the exact sums over `k` of the products of the
caches' cells; no other byte of memory, no register and no cache changes. -/
def Obligations.TileComputesRegion : Prop :=
  ∀ s : State,
    let p := Config.params
    let n := s.seq.lat.n.toNat
    let k := s.seq.lat.k.toNat
    let mt := s.seq.mt.toNat
    let nt := s.seq.nt.toNat
    mt < s.seq.lat.mTiles p → nt < s.seq.lat.nTiles p → k ≤ p.capK →
    (∀ i < p.peRows, ∀ c < k, cellHas s.scr.acache (rowCell p (mt * p.peRows + i) c) = true) →
    (∀ j < p.peCols, ∀ c < k, cellHas s.scr.wcache (rowCell p (nt * p.peCols + j) c) = true) →
    (∀ i < p.peRows, ∀ j < p.peCols, outIndex p n mt nt i j < s.regs.len .out) →
    ∃ t, exec .tile s = .next t ∧
      (∀ i < p.peRows, ∀ j < p.peCols,
        written32 t.bufs.out (outIndex p n mt nt i j) = true ∧
        (t.bufs.word .out (outIndex p n mt nt i j)).toInt =
          ∑ c ∈ Finset.range k, (cellVal s.scr.acache (rowCell p (mt * p.peRows + i) c)).toInt *
            (cellVal s.scr.wcache (rowCell p (nt * p.peCols + j) c)).toInt) ∧
      (∀ a, (∀ i < p.peRows, ∀ j < p.peCols, a / 4 ≠ outIndex p n mt nt i j) →
        cellGet (w := 8) t.bufs.out a = cellGet (w := 8) s.bufs.out a) ∧
      t.bufs = { s.bufs with out := t.bufs.out } ∧ t.regs = s.regs ∧ t.env = s.env ∧
      t.scr = { s.scr with awork := t.scr.awork, wwork := t.scr.wwork, acc := t.scr.acc } ∧
      t.seq = { s.seq with k := t.seq.k }

/-! ### GEMM -/

/-- GEMM equals the reference (43_tiled_engine R195, R196, 42_reference_model R171): for every valid input it ends in
`DONE` with `OUT[m*N + n] = RefMM[m][n]` for all `m`, `n`; the inputs, the other registers, `QS` and every byte of
`OUT` beyond `M*N` elements are unchanged. Nothing is said of the arrays afterwards (70_reset R277). -/
def Obligations.GemmComputesReference : Prop :=
  ∀ s : State, gemmCause Config.params s.regs = none →
    ∃ t, exec .gemm s = .next t ∧
      (∀ m < s.regs.dimM.toNat, ∀ n < s.regs.dimN.toNat,
        written32 t.bufs.out (m * s.regs.dimN.toNat + n) = true ∧
        (t.bufs.word .out (m * s.regs.dimN.toNat + n)).toInt = refMM Config.params s.bufs s.regs.dims m n) ∧
      (∀ a, 4 * (s.regs.dimM.toNat * s.regs.dimN.toNat) ≤ a →
        cellGet (w := 8) t.bufs.out a = cellGet (w := 8) s.bufs.out a) ∧
      t.bufs = { s.bufs with out := t.bufs.out } ∧
      t.regs = { s.regs with cmd := t.regs.cmd, status := .done, cause := .none } ∧
      t.scr.qs = s.scr.qs ∧ t.scr.qsSet = s.scr.qsSet ∧ t.scr.nib = s.scr.nib ∧
      t.seq.phase = .idle ∧ t.seq.issue = s.seq.issue ∧ t.seq.g = s.seq.g ∧ t.seq.i = s.seq.i ∧
      t.env = { s.env with atStart := t.env.atStart }

/-- The reference sum fits 32 bits (42_reference_model R172): every factor is at most 128 in magnitude, the sum at most
`K * 16384`, and for `K <= 4096` at most `2^26`, so that it is its own 32-bit sum. -/
def Obligations.ReferenceSumFits : Prop :=
  ∀ (b : Bufs) (d : Dims) (m n : Nat),
    (∀ k, |refA b d m k| ≤ 128 ∧ |refW Config.params b d k n| ≤ 128) ∧
    |refMM Config.params b d m n| ≤ d.k.toNat * 16384 ∧
    (d.k.toNat ≤ 4096 → |refMM Config.params b d m n| ≤ 2 ^ 26 ∧
      (BitVec.ofInt 32 (refMM Config.params b d m n)).toInt = refMM Config.params b d m n)

/-- Tile independence (43_tiled_engine R197): two GEMMs whose activations agree on a tile's rows and whose weights
agree on its columns agree on its region of `OUT`. -/
def Obligations.TileRegionsAreIndependent : Prop :=
  ∀ (s s' : State) (m n : Nat), gemmCause Config.params s.regs = none → gemmCause Config.params s'.regs = none →
    s.regs.dims = s'.regs.dims →
    m < s.regs.dimM.toNat → n < s.regs.dimN.toNat →
    (∀ k < s.regs.dimK.toNat, refA s.bufs s.regs.dims m k = refA s'.bufs s'.regs.dims m k) →
    (∀ k < s.regs.dimK.toNat, refW Config.params s.bufs s.regs.dims k n =
      refW Config.params s'.bufs s'.regs.dims k n) →
    ∃ t t', exec .gemm s = .next t ∧ exec .gemm s' = .next t' ∧
      t.bufs.word .out (m * s.regs.dimN.toNat + n) = t'.bufs.word .out (m * s.regs.dimN.toNat + n)

/-- "Phase 1 and Phase 2 preloads are independent of each other" (20_memory R73 (b)): in either order, the same
state. -/
def Obligations.PreloadsCommute : Prop :=
  ∀ s t : State, andThen (exec .loada s) (exec .loadw) = .next t ↔
    andThen (exec .loadw s) (exec .loada) = .next t

/-- "TCOPY and ACLR in either order" (43_tiled_engine R189): the same state. -/
def Obligations.CopyAndClearCommute : Prop :=
  ∀ s t : State, andThen (exec .tcopy s) (exec .aclr) = .next t ↔ andThen (exec .aclr s) (exec .tcopy) = .next t

/-- The tile pairs may be computed in any order (20_memory R73 (c), R74; 43_tiled_engine R191): every order of all
pairs completes with the same `OUT` as the canonical one. -/
def Obligations.TileOrderDoesNotMatter : Prop :=
  ∀ (s : State) (order : List (Nat × Nat)),
    let p := Config.params
    let k := s.seq.lat.k.toNat
    order.Perm (allTiles p s) → k ≤ p.capK →
    (∀ r < s.seq.lat.mTiles p * p.peRows, ∀ c < k, cellHas s.scr.acache (rowCell p r c) = true) →
    (∀ r < s.seq.lat.nTiles p * p.peCols, ∀ c < k, cellHas s.scr.wcache (rowCell p r c) = true) →
    s.seq.lat.m.toNat * s.seq.lat.n.toNat ≤ s.regs.len .out →
    ∃ t u, runTiles p order s = .next t ∧ runTiles p (allTiles p s) s = .next u ∧
      (∀ a, cellGet (w := 8) t.bufs.out a = cellGet (w := 8) u.bufs.out a) ∧
      t.regs = u.regs ∧ t.env = u.env

/-! ### The sequencer -/

/-- Each MAC advances `SEQ_K` by one and is followed by the next MAC, or by TSTORE when `SEQ_K = K`
(10_state R43, 20_memory R72 (c)). -/
def Obligations.MacStepsAscend : Prop :=
  ∀ s t : State, s.env.script = [] → s.regs.status = .busy → s.seq.issue = some 0x35 → step s = .next t →
    t.seq.k = s.seq.k + 1 ∧ t.seq.issue = some (if s.seq.k + 1 = s.seq.lat.k then 0x36 else 0x35) ∧
    t.seq.mt = s.seq.mt ∧ t.seq.nt = s.seq.nt ∧ t.regs = s.regs ∧ t.bufs = s.bufs

/-- After TSTORE the tile pairs follow row-major over M-tiles and within each over N-tiles, and after the last one the
command is `DONE` and the sequencer idle (10_state R43, 43_tiled_engine R191).
What the sequencer holds after the last pair is the model's reading (log 26). -/
def Obligations.TilePairsRowMajor : Prop :=
  ∀ s t : State, s.env.script = [] → s.env.grain = .micro → s.regs.status = .busy → s.seq.issue = some 0x36 →
    step s = .next t →
    let mt := s.seq.mt.toNat
    let nt := s.seq.nt.toNat
    let nm := s.seq.lat.mTiles Config.params
    let nn := s.seq.lat.nTiles Config.params
    if nt + 1 < nn then
      t.seq.mt.toNat = mt ∧ t.seq.nt.toNat = nt + 1 ∧ t.seq.k = 0 ∧ t.seq.issue = some 0x33 ∧
        t.regs.status = .busy
    else if mt + 1 < nm then
      t.seq.mt.toNat = mt + 1 ∧ t.seq.nt = 0 ∧ t.seq.k = 0 ∧ t.seq.issue = some 0x33 ∧ t.regs.status = .busy
    else
      t.seq.mt.toNat = nm ∧ t.seq.nt = 0 ∧ t.seq.k = 0 ∧ t.seq.issue = none ∧ t.seq.phase = .idle ∧
        t.regs.status = .done

/-- DEQ taken micro-operation by micro-operation (CHECK, then NIBSEL and the store of `DQ_OUT`) leaves the registers,
buffers and scratch that DEQ taken whole leaves (41_dequantization R151, R161).
The grain is the model's choice (log 2). -/
def Obligations.DeqStepsEqualCommand : Prop :=
  ∀ s : State, s.env.script = [] → s.env.grain ≠ .command →
    ∃ t u, stepN 2 (writeCmd 0x02 s) = .next t ∧ exec .deq s = .next u ∧
      t.regs = u.regs ∧ t.bufs = u.bufs ∧ t.scr = u.scr ∧ t.seq.phase = u.seq.phase ∧ t.seq.issue = none

/-- GEMM run by the sequencer, tile by tile or micro-operation by micro-operation, ends after finitely many steps with
the registers, buffers and scratch that GEMM taken whole leaves (43_tiled_engine R190, R201; 70_reset R276).
The grain and the empty arrays after a command are the model's choice (log 2, 10). -/
def Obligations.GemmStepsEqualCommand : Prop :=
  ∀ s : State, gemmCause Config.params s.regs = none → s.env.script = [] → s.env.grain ≠ .command →
    ∃ (n : Nat) (t u : State), stepN n (writeCmd 0x03 s) = .next t ∧ exec .gemm s = .next u ∧
      t.regs = u.regs ∧ t.bufs = u.bufs ∧ t.scr = u.scr ∧ t.seq.phase = .idle ∧ t.seq.issue = none

/-- QUANT run by the sequencer micro-operation by micro-operation ends after finitely many steps with the registers,
buffers and scratch that QUANT taken whole leaves (40_quantization_codec R131, 70_reset R276).
The grain is the model's choice (log 2). -/
def Obligations.QuantStepsEqualCommand : Prop :=
  ∀ s : State, QuantReady Config.params s → s.env.script = [] → s.env.grain ≠ .command →
    ∃ (n : Nat) (t u : State), stepN n (writeCmd 0x01 s) = .next t ∧ exec .quant s = .next u ∧
      t.regs = u.regs ∧ t.bufs = u.bufs ∧ t.scr = u.scr ∧ t.seq.phase = .idle ∧ t.seq.issue = none

/-! ### Whole-machine rules -/

/-- The state after reset meets the invariants. -/
def Obligations.ResetMeetsInvariants : Prop :=
  Canonical State.reset ∧ WithinCapacity Config.params State.reset ∧ Protocol State.reset

/-- Every step keeps every buffer and array in canonical form (20_memory R60, 10_state R45).
The form is the model's (log 10, 11). -/
def Obligations.StepKeepsCanonicalForm : Prop :=
  ∀ s t : State, Canonical s → step s = .next t → Canonical t

/-- Every step keeps the on-chip arrays within their capacity (10_state R27 to R31), and the cells of the weight arrays
values of `DQ_BITS` bits (00_scope R5; the model's cells are wider, log 16). -/
def Obligations.StepKeepsCapacity : Prop :=
  ∀ s t : State, WithinCapacity Config.params s → step s = .next t → WithinCapacity Config.params t

/-- Every step keeps the command protocol (10_state R36, R37, R38, R43).
What `CMD` holds and the issue slot are the model's own (log 4, 7). -/
def Obligations.StepKeepsProtocol : Prop :=
  ∀ s t : State, Protocol s → step s = .next t → Protocol t

/-- The transitions of `STATUS` (10_state R37): to BUSY on a `CMD` write from any other, from BUSY to DONE or
REJECTED; "No other transition exists", the reset event apart. -/
def Obligations.StatusTransitions : Prop :=
  ∀ s t : State, Protocol s → step s = .next t → s.env.script.head? ≠ some .reset →
    t.regs.status = s.regs.status ∨
    (s.regs.status ≠ .busy ∧ t.regs.status = .busy ∧ ∃ v, s.env.script.head? = some (.wr .cmd v)) ∨
    (s.regs.status = .busy ∧ (t.regs.status = .done ∨ t.regs.status = .rejected))

/-- "Inputs are read-only" (20_memory R69): while a command runs, no step of the machine but a reset changes `WF` or
`ACT`; a GEMM does not change `PW` or `SC`. Beyond R69: a QUANT does not change `OUT`, a DEQ changes no buffer. That the
command running is read off `CMD` is the model's (log 7). -/
def Obligations.InputsReadOnlyWhileBusy : Prop :=
  ∀ s t : State, Protocol s → step s = .next t → s.regs.status = .busy → s.env.script.head? ≠ some .reset →
    t.bufs.wf = s.bufs.wf ∧ t.bufs.act = s.bufs.act ∧
    (s.regs.cmd = 0x03 → t.bufs.pw = s.bufs.pw ∧ t.bufs.sc = s.bufs.sc) ∧
    (s.regs.cmd = 0x01 → t.bufs.out = s.bufs.out) ∧
    (s.regs.cmd = 0x02 → t.bufs = s.bufs)

/-- The control registers other than `CMD`, `STATUS`, `CAUSE` and `DQ_OUT` are the host's (10_state R35, 70_reset
R277): no step but the host's own write or a reset changes one. -/
def Obligations.OnlyHostChangesOperandRegisters : Prop :=
  ∀ s t : State, step s = .next t → s.env.script.head? ≠ some .reset →
    (∀ x v, s.env.script.head? ≠ some (.wr x v)) →
    t.regs = { s.regs with
      cmd := t.regs.cmd, status := t.regs.status, cause := t.regs.cause, dqOut := t.regs.dqOut,
      dqOutSet := t.regs.dqOutSet }
end

