-- ==== Sys2Proof/Laws/Cells.lean ====
section
/-!
SUPPORT. Laws of sparse arrays: what a read finds after a write or a bulk write, that every write keeps the canonical
form and the capacity, and what a grid of cells holds.
-/
namespace Sys2Proof.Machine

variable {w : Nat}

@[simp] theorem cellGet_nil (a : Nat) : cellGet ([] : Cells w) a = none := rfl

theorem cellGet_cellSet (m : Cells w) (a b : Nat) (v : BitVec w) :
    cellGet (cellSet m a v) b = if b = a then some v else cellGet m b := by
  induction m with
  | nil => simp [cellSet, cellGet]
  | cons p m ih =>
    obtain ⟨k, x⟩ := p
    simp only [cellSet]
    split
    · simp [cellGet]
    · split
      · subst_vars
        by_cases h : b = k <;> simp [cellGet, h]
      · simp only [cellGet, ih]
        by_cases h : b = k
        · have : b ≠ a := by omega
          simp [h, show ¬ k = a by omega]
        · simp [h]

@[simp] theorem cellGet_cellSet_same (m : Cells w) (a : Nat) (v : BitVec w) :
    cellGet (cellSet m a v) a = some v := by simp [cellGet_cellSet]

theorem cellGet_cellSet_ne (m : Cells w) {a b : Nat} (v : BitVec w) (h : b ≠ a) :
    cellGet (cellSet m a v) b = cellGet m b := by simp [cellGet_cellSet, h]

@[simp] theorem cellStore_nil (m : Cells w) : cellStore m [] = m := rfl

@[simp] theorem cellStore_cons (m : Cells w) (p : Nat × BitVec w) (l : List (Nat × BitVec w)) :
    cellStore m (p :: l) = cellSet (cellStore m l) p.1 p.2 := rfl

/-- A bulk write is read through its own list first. -/
theorem cellGet_cellStore (m : Cells w) (l : List (Nat × BitVec w)) (a : Nat) :
    cellGet (cellStore m l) a = (cellGet (w := w) l a).or (cellGet m a) := by
  induction l with
  | nil => simp
  | cons p l ih =>
    obtain ⟨k, x⟩ := p
    rw [cellStore_cons, cellGet_cellSet]
    by_cases h : a = k
    · simp [cellGet, h]
    · simp [cellGet, h, ih]

/-- A cell that no entry of the list names is not written. -/
theorem cellGet_cellStore_of_not_mem (m : Cells w) (l : List (Nat × BitVec w)) (a : Nat)
    (h : ∀ p ∈ l, p.1 ≠ a) : cellGet (cellStore m l) a = cellGet m a := by
  induction l with
  | nil => rfl
  | cons p l ih =>
    rw [cellStore_cons, cellGet_cellSet_ne _ _ (Ne.symm (h p (by simp)))]
    exact ih fun q hq => h q (by simp [hq])

/-- A cell that the list names, always with the same value, holds that value. -/
theorem cellGet_cellStore_of_mem (m : Cells w) (l : List (Nat × BitVec w)) (a : Nat) (v : BitVec w)
    (h : (a, v) ∈ l) (huniq : ∀ p ∈ l, p.1 = a → p.2 = v) : cellGet (cellStore m l) a = some v := by
  induction l with
  | nil => simp at h
  | cons p l ih =>
    rw [cellStore_cons, cellGet_cellSet]
    by_cases hp : a = p.1
    · simp [hp, huniq p (by simp) hp.symm]
    · simp only [hp, if_false]
      refine ih ?_ fun q hq => huniq q (by simp [hq])
      rcases List.mem_cons.1 h with h | h
      · exact absurd (congrArg Prod.fst h) hp
      · exact h

/-- Reading a list from which whole addresses have been filtered out. -/
theorem cellGet_filter (m : Cells w) (p : Nat → Bool) (a : Nat) :
    cellGet (w := w) (m.filter fun c => p c.1) a = if p a then cellGet m a else none := by
  induction m with
  | nil => simp
  | cons c m ih =>
    obtain ⟨k, x⟩ := c
    by_cases ha : a = k
    · subst ha
      by_cases hk : p a <;> simp [hk, cellGet, ih]
    · by_cases hk : p k <;> simp [hk, ha, cellGet, ih]

/-! ### The canonical form and the capacity -/

theorem cellsFrom_mono {m : Cells w} {lo lo' : Nat} (h : cellsFrom lo m = true) (hl : lo' ≤ lo) :
    cellsFrom lo' m = true := by
  cases m with
  | nil => rfl
  | cons p m =>
    obtain ⟨k, x⟩ := p
    simp only [cellsFrom, Bool.and_eq_true, decide_eq_true_eq] at h ⊢
    exact ⟨by omega, h.2⟩

theorem cellsFrom_cellSet {m : Cells w} {lo a : Nat} (v : BitVec w) (h : cellsFrom lo m = true) (ha : lo ≤ a) :
    cellsFrom lo (cellSet m a v) = true := by
  induction m generalizing lo with
  | nil => simp [cellSet, cellsFrom, ha]
  | cons p m ih =>
    obtain ⟨k, x⟩ := p
    simp only [cellsFrom, Bool.and_eq_true, decide_eq_true_eq] at h
    simp only [cellSet]
    split
    · simp only [cellsFrom, Bool.and_eq_true, decide_eq_true_eq]
      exact ⟨ha, by omega, h.2⟩
    · split
      · subst_vars
        simp only [cellsFrom, Bool.and_eq_true, decide_eq_true_eq]
        exact ⟨ha, h.2⟩
      · simp only [cellsFrom, Bool.and_eq_true, decide_eq_true_eq]
        exact ⟨h.1, ih h.2 (by omega)⟩

/-- Writing a cell keeps the canonical form. -/
theorem cellsWf_cellSet {m : Cells w} {a : Nat} (v : BitVec w) (h : cellsWf m = true) :
    cellsWf (cellSet m a v) = true := cellsFrom_cellSet v h (Nat.zero_le a)

/-- A bulk write keeps the canonical form. -/
theorem cellsWf_cellStore {m : Cells w} (l : List (Nat × BitVec w)) (h : cellsWf m = true) :
    cellsWf (cellStore m l) = true := by
  induction l with
  | nil => exact h
  | cons p l ih => exact cellsWf_cellSet p.2 ih

@[simp] theorem cellsWf_nil : cellsWf ([] : Cells w) = true := rfl

/-- Every listed address of an array is below `n`. -/
theorem mem_cellSet {m : Cells w} {a : Nat} {v : BitVec w} {q : Nat × BitVec w} (h : q ∈ cellSet m a v) :
    q = (a, v) ∨ q ∈ m := by
  induction m with
  | nil => exact .inl (by simpa [cellSet] using h)
  | cons p m ih =>
    obtain ⟨k, x⟩ := p
    simp only [cellSet] at h
    split at h
    · simpa using h
    · split at h
      · rcases List.mem_cons.1 h with h | h
        · exact .inl h
        · exact .inr (by simp [h])
      · rcases List.mem_cons.1 h with h | h
        · exact .inr (by simp [h])
        · rcases ih h with h | h
          · exact .inl h
          · exact .inr (by simp [h])

/-- An entry of a bulk write's result is one of the list or one that stood there. -/
theorem mem_cellStore {m : Cells w} {l : List (Nat × BitVec w)} {q : Nat × BitVec w} (h : q ∈ cellStore m l) :
    q ∈ l ∨ q ∈ m := by
  induction l with
  | nil => exact .inr h
  | cons p l ih =>
    rcases mem_cellSet h with h | h
    · exact .inl (by simp [h])
    · rcases ih h with h | h
      · exact .inl (by simp [h])
      · exact .inr h

/-! ### Grids -/

theorem mem_grid {α : Type} {a b : Nat} {f : Nat → Nat → α} {x : α} :
    x ∈ grid a b f ↔ ∃ i < a, ∃ j < b, f i j = x := by
  simp [grid]

theorem allGrid_iff {a b : Nat} {p : Nat → Nat → Bool} :
    allGrid a b p = true ↔ ∀ i < a, ∀ j < b, p i j = true := by
  simp [allGrid]

/-- What a bulk write of a grid leaves in the cell of `(i, j)`, where no two places of the grid share a cell. -/
theorem cellGet_store_grid (m : Cells w) {a b : Nat} {key : Nat → Nat → Nat} {val : Nat → Nat → BitVec w} {i j : Nat}
    (hi : i < a) (hj : j < b)
    (hinj : ∀ i' < a, ∀ j' < b, key i' j' = key i j → i' = i ∧ j' = j) :
    cellGet (cellStore m (grid a b fun x y => (key x y, val x y))) (key i j) = some (val i j) := by
  apply cellGet_cellStore_of_mem
  · exact mem_grid.2 ⟨i, hi, j, hj, rfl⟩
  · intro p hp hk
    obtain ⟨i', hi', j', hj', rfl⟩ := mem_grid.1 hp
    obtain ⟨rfl, rfl⟩ := hinj i' hi' j' hj' hk
    rfl

/-- A cell outside the grid is not written. -/
theorem cellGet_store_grid_outside (m : Cells w) {a b : Nat} {key : Nat → Nat → Nat} {val : Nat → Nat → BitVec w}
    {c : Nat} (h : ∀ i < a, ∀ j < b, key i j ≠ c) :
    cellGet (cellStore m (grid a b fun x y => (key x y, val x y))) c = cellGet m c := by
  apply cellGet_cellStore_of_not_mem
  intro p hp
  obtain ⟨i, hi, j, hj, rfl⟩ := mem_grid.1 hp
  exact h i hi j hj

/-- Row-major addresses name one place each. -/
theorem row_major_inj {c i j i' j' : Nat} (hj : j < c) (hj' : j' < c) (h : i * c + j = i' * c + j') :
    i = i' ∧ j = j' := by
  have hc : 0 < c := by omega
  have h1 : (i * c + j) / c = i := by
    rw [Nat.add_comm, Nat.add_mul_div_right _ _ hc, Nat.div_eq_of_lt hj, Nat.zero_add]
  have h2 : (i' * c + j') / c = i' := by
    rw [Nat.add_comm, Nat.add_mul_div_right _ _ hc, Nat.div_eq_of_lt hj', Nat.zero_add]
  have : i = i' := by rw [← h1, ← h2, h]
  subst this
  exact ⟨rfl, by omega⟩

theorem rowCell_inj {p : Params} {r k r' k' : Nat} (hk : k < p.capK) (hk' : k' < p.capK)
    (h : rowCell p r k = rowCell p r' k') : r = r' ∧ k = k' := row_major_inj hk hk' h

theorem accCell_inj {p : Params} {i j i' j' : Nat} (hj : j < p.peCols) (hj' : j' < p.peCols)
    (h : accCell p i j = accCell p i' j') : i = i' ∧ j = j' := row_major_inj hj hj' h

/-- A row-major address lies below the size of its array. -/
theorem row_major_lt {r c i j : Nat} (hi : i < r) (hj : j < c) : i * c + j < r * c :=
  calc i * c + j < i * c + c := by omega
    _ = (i + 1) * c := by ring
    _ ≤ r * c := Nat.mul_le_mul_right c hi

theorem cellHas_iff {m : Cells w} {a : Nat} : cellHas m a = true ↔ ∃ v, cellGet m a = some v := by
  simp [cellHas, Option.isSome_iff_exists]

theorem cellVal_of_get {m : Cells w} {a : Nat} {v : BitVec w} (h : cellGet m a = some v) : cellVal m a = v := by
  simp [cellVal, h]

end Sys2Proof.Machine
end

