-- ==== Sys2Proof/Laws/Ops.lean ====
section
/-!
SUPPORT. Laws of the chained outcomes (when a chain answers a next state), of loops (an invariant rule and a
completion rule), and of the elements of buffers.
-/
namespace Sys2Proof.Machine

@[simp] theorem andThen_next (s : State) (f : State → Run) : andThen (.next s) f = f s := rfl

@[simp] theorem andThen_fault (e : Fault) (f : State → Run) : andThen (.fault e) f = .fault e := rfl

@[simp] theorem andThen_refused (e : Refusal) (f : State → Run) : andThen (.refused e) f = .refused e := rfl

/-- A chain answers a next state exactly if both its parts do. -/
theorem andThen_eq_next {r : Run} {f : State → Run} {t : State} :
    andThen r f = .next t ↔ ∃ u, r = .next u ∧ f u = .next t := by
  cases r <;> simp [andThen]

@[simp] theorem demand_true (e : Fault) (r : Run) : demand true e r = r := rfl

@[simp] theorem demand_false (e : Fault) (r : Run) : demand false e r = .fault e := rfl

/-- A demand answers a next state exactly if it is met. -/
theorem demand_eq_next {c : Bool} {e : Fault} {r : Run} {t : State} :
    demand c e r = .next t ↔ c = true ∧ r = .next t := by
  cases c <;> simp [demand]

@[simp] theorem refuseIf_true (e : Refusal) (r : Run) : refuseIf true e r = .refused e := rfl

@[simp] theorem refuseIf_false (e : Refusal) (r : Run) : refuseIf false e r = r := rfl

/-- A refusal's absence. -/
theorem refuseIf_eq_next {c : Bool} {e : Refusal} {r : Run} {t : State} :
    refuseIf c e r = .next t ↔ c = false ∧ r = .next t := by
  cases c <;> simp [refuseIf]

/-- A command whose CHECK passes goes on (43_tiled_engine R182). -/
theorem afterCheck_pass {p : Params} {op : Byte} {k : State → Run} {s : State} (h : checkCause p op s.regs = none) :
    afterCheck p op k s = k (checkOp p op s) := by
  rw [afterCheck, h]

/-- A command whose CHECK fails ends there (60_exceptions R234). -/
theorem afterCheck_reject {p : Params} {op : Byte} {k : State → Run} {s : State} {c : Cause}
    (h : checkCause p op s.regs = some c) : afterCheck p op k s = .next (raiseReject c s) := by
  simp only [afterCheck, checkOp, h]

/-! ### Loops -/

theorem loopFrom_zero (body : Nat → State → Run) (i : Nat) (s : State) : loopFrom body 0 i s = .next s := rfl

theorem loopFrom_succ (body : Nat → State → Run) (n i : Nat) (s : State) :
    loopFrom body (n + 1) i s = andThen (body i s) (loopFrom body n (i + 1)) := rfl

/-- What holds before a loop and is kept by each of its rounds that answers a next state holds after it. -/
theorem loopFrom_inv {body : Nat → State → Run} {I : Nat → State → Prop} {n i : Nat} {s t : State}
    (h : loopFrom body n i s = .next t) (h0 : I i s)
    (hstep : ∀ j u v, i ≤ j → j < i + n → I j u → body j u = .next v → I (j + 1) v) : I (i + n) t := by
  induction n generalizing i s with
  | zero =>
    cases h
    simpa using h0
  | succ n ih =>
    obtain ⟨u, hu, hr⟩ := andThen_eq_next.1 h
    have := ih hr (hstep i s u (Nat.le_refl i) (by omega) h0 hu)
      fun j u v h1 h2 => hstep j u v (by omega) (by omega)
    rwa [show i + 1 + n = i + (n + 1) by omega] at this

theorem loop_inv {body : Nat → State → Run} {I : Nat → State → Prop} {n : Nat} {s t : State}
    (h : loop n body s = .next t) (h0 : I 0 s)
    (hstep : ∀ j u v, j < n → I j u → body j u = .next v → I (j + 1) v) : I n t := by
  have := loopFrom_inv (I := I) h h0 fun j u v _ h2 => hstep j u v (by omega)
  simpa using this

/-- A loop completes, and its invariant holds after it, if each round completes and keeps the invariant. -/
theorem loopFrom_completes {body : Nat → State → Run} {I : Nat → State → Prop} {n i : Nat} {s : State}
    (h0 : I i s) (hstep : ∀ j u, i ≤ j → j < i + n → I j u → ∃ v, body j u = .next v ∧ I (j + 1) v) :
    ∃ t, loopFrom body n i s = .next t ∧ I (i + n) t := by
  induction n generalizing i s with
  | zero => exact ⟨s, rfl, by simpa using h0⟩
  | succ n ih =>
    obtain ⟨v, hv, hI⟩ := hstep i s (Nat.le_refl i) (by omega) h0
    obtain ⟨t, ht, hIt⟩ := ih hI fun j u h1 h2 => hstep j u (by omega) (by omega)
    refine ⟨t, by rw [loopFrom_succ, hv]; exact ht, ?_⟩
    rwa [show i + 1 + n = i + (n + 1) by omega] at hIt

theorem loop_completes {body : Nat → State → Run} {I : Nat → State → Prop} {n : Nat} {s : State}
    (h0 : I 0 s) (hstep : ∀ j u, j < n → I j u → ∃ v, body j u = .next v ∧ I (j + 1) v) :
    ∃ t, loop n body s = .next t ∧ I n t := by
  have := loopFrom_completes (I := I) (n := n) h0 fun j u _ h2 => hstep j u (by omega)
  simpa [loop] using this

/-! ### Elements of buffers -/

@[simp] theorem Bufs.get_put_same (m : Bufs) (b : Buf) (x : Memory) : (m.put b x).get b = x := by
  cases b <;> rfl

theorem Bufs.get_put_ne (m : Bufs) {b c : Buf} (x : Memory) (h : c ≠ b) : (m.put b x).get c = m.get c := by
  cases b <;> cases c <;> first | rfl | exact absurd rfl h

/-- A byte outside an element is not written with it. -/
theorem cellGet_store_bytes32_outside (m : Memory) (i : Nat) (v : Word) {a : Nat}
    (h : a < 4 * i ∨ 4 * i + 4 ≤ a) : cellGet (w := 8) (cellStore (w := 8) m (bytes32 i v)) a = cellGet (w := 8) m a := by
  apply cellGet_cellStore_of_not_mem
  intro p hp
  simp only [bytes32, List.mem_cons, List.not_mem_nil, or_false] at hp
  rcases hp with rfl | rfl | rfl | rfl <;> simp only [ne_eq] <;> omega

/-- The four bytes of a word, put together again. -/
theorem bytes_append (v : Word) :
    v.extractLsb' 24 8 ++ v.extractLsb' 16 8 ++ v.extractLsb' 8 8 ++ v.extractLsb' 0 8 = v := by
  ext i hi
  simp only [BitVec.getElem_append, BitVec.getElem_extractLsb']
  split
  · simp [BitVec.getLsbD_eq_getElem hi]
  · split
    · rw [show 8 + (i - 8) = i by omega, BitVec.getLsbD_eq_getElem hi]
    · split
      · rw [show 16 + (i - 8 - 8) = i by omega, BitVec.getLsbD_eq_getElem hi]
      · rw [show 24 + (i - 8 - 8 - 8) = i by omega, BitVec.getLsbD_eq_getElem hi]

/-- A byte that has been written reads as written. -/
theorem byte_of_get {m : Bufs} {b : Buf} {a : Nat} {v : Byte} (h : cellGet (w := 8) (m.get b) a = some v) :
    m.byte b a = v := by
  rw [Bufs.byte, h, Option.getD_some]

/-- A word is read back from the four bytes it was written to. -/
theorem word_of_bytes {m : Bufs} {b : Buf} {i : Nat} {v : Word}
    (h : ∀ p ∈ bytes32 i v, cellGet (w := 8) (m.get b) p.1 = some p.2) :
    written32 (m.get b) i = true ∧ m.word b i = v := by
  simp only [bytes32, List.mem_cons, List.not_mem_nil, or_false, forall_eq_or_imp, forall_eq] at h
  obtain ⟨h0, h1, h2, h3⟩ := h
  refine ⟨by simp [written32, cellHas, h0, h1, h2, h3], ?_⟩
  simp only [Bufs.word, byte_of_get h0, byte_of_get h1, byte_of_get h2, byte_of_get h3]
  exact bytes_append v

/-- Buffers of which every byte reads the same agree on every element. -/
theorem word_congr {m m' : Bufs} {b : Buf} (h : ∀ a, cellGet (w := 8) (m.get b) a = cellGet (w := 8) (m'.get b) a)
    (i : Nat) : m.word b i = m'.word b i := by
  simp only [Bufs.word, Bufs.byte, h]

/-- Two different elements share no byte. -/
theorem bytes32_disjoint {i j : Nat} {u v : Word} {p q : Nat × Byte} (hp : p ∈ bytes32 i u) (hq : q ∈ bytes32 j v)
    (h : p.1 = q.1) : i = j := by
  simp only [bytes32, List.mem_cons, List.not_mem_nil, or_false] at hp hq
  rcases hp with rfl | rfl | rfl | rfl <;> rcases hq with rfl | rfl | rfl | rfl <;> simp only at h <;> omega

end Sys2Proof.Machine
end

