-- ==== Sys2Proof/Laws/State.lean ====
section
/-!
SUPPORT. What each named update of the state leaves in each field, one lemma per field, true by rfl: later proofs
unfold no record update.
-/
namespace Sys2Proof.Machine

variable (s : State)

/-! ### startCommand -/

@[simp] theorem startCommand_bufs (op : Byte) : (startCommand op s).bufs = s.bufs := rfl

@[simp] theorem startCommand_scr (op : Byte) : (startCommand op s).scr = s.scr := rfl

@[simp] theorem startCommand_regs_cmd (op : Byte) : (startCommand op s).regs.cmd = op := rfl

@[simp] theorem startCommand_regs_status (op : Byte) : (startCommand op s).regs.status = .busy := rfl

@[simp] theorem startCommand_regs_cause (op : Byte) : (startCommand op s).regs.cause = .none := rfl

@[simp] theorem startCommand_regs_dims (op : Byte) : (startCommand op s).regs.dims = s.regs.dims := rfl

@[simp] theorem startCommand_seq_phase (op : Byte) : (startCommand op s).seq.phase = .check := rfl

@[simp] theorem startCommand_seq_lat (op : Byte) : (startCommand op s).seq.lat = s.seq.lat := rfl

@[simp] theorem startCommand_seq_issue (op : Byte) : (startCommand op s).seq.issue = s.seq.issue := rfl

@[simp] theorem startCommand_env_script (op : Byte) : (startCommand op s).env.script = s.env.script := rfl

@[simp] theorem startCommand_env_grain (op : Byte) : (startCommand op s).env.grain = s.env.grain := rfl

@[simp] theorem startCommand_env_atStart (op : Byte) : (startCommand op s).env.atStart = s.bufs := rfl

@[simp] theorem startCommand_env_seen (op : Byte) : (startCommand op s).env.seen = s.env.seen := rfl

@[simp] theorem startCommand_env_resets (op : Byte) : (startCommand op s).env.resets = s.env.resets := rfl

/-! ### finish -/

@[simp] theorem finish_bufs : (finish s).bufs = s.bufs := rfl

@[simp] theorem finish_scr : (finish s).scr = s.scr := rfl

@[simp] theorem finish_env : (finish s).env = s.env := rfl

@[simp] theorem finish_regs_cmd : (finish s).regs.cmd = 0 := rfl

@[simp] theorem finish_regs_status : (finish s).regs.status = .done := rfl

@[simp] theorem finish_regs_cause : (finish s).regs.cause = s.regs.cause := rfl

@[simp] theorem finish_seq_phase : (finish s).seq.phase = .idle := rfl

@[simp] theorem finish_seq_lat : (finish s).seq.lat = s.seq.lat := rfl

@[simp] theorem finish_seq_issue : (finish s).seq.issue = s.seq.issue := rfl

/-! ### raiseReject -/

@[simp] theorem raiseReject_bufs (c : Cause) : (raiseReject c s).bufs = s.bufs := rfl

@[simp] theorem raiseReject_scr (c : Cause) : (raiseReject c s).scr = s.scr := rfl

@[simp] theorem raiseReject_env (c : Cause) : (raiseReject c s).env = s.env := rfl

@[simp] theorem raiseReject_regs_cmd (c : Cause) : (raiseReject c s).regs.cmd = 0 := rfl

@[simp] theorem raiseReject_regs_status (c : Cause) : (raiseReject c s).regs.status = .rejected := rfl

@[simp] theorem raiseReject_regs_cause (c : Cause) : (raiseReject c s).regs.cause = c := rfl

@[simp] theorem raiseReject_seq_phase (c : Cause) : (raiseReject c s).seq.phase = .idle := rfl

@[simp] theorem raiseReject_seq_lat (c : Cause) : (raiseReject c s).seq.lat = s.seq.lat := rfl

@[simp] theorem raiseReject_seq_issue (c : Cause) : (raiseReject c s).seq.issue = s.seq.issue := rfl

/-! ### discardScratch -/

@[simp] theorem discardScratch_regs : (discardScratch s).regs = s.regs := rfl

@[simp] theorem discardScratch_bufs : (discardScratch s).bufs = s.bufs := rfl

@[simp] theorem discardScratch_seq : (discardScratch s).seq = s.seq := rfl

@[simp] theorem discardScratch_env : (discardScratch s).env = s.env := rfl

@[simp] theorem discardScratch_scr_acache : (discardScratch s).scr.acache = [] := rfl

@[simp] theorem discardScratch_scr_wcache : (discardScratch s).scr.wcache = [] := rfl

@[simp] theorem discardScratch_scr_awork : (discardScratch s).scr.awork = [] := rfl

@[simp] theorem discardScratch_scr_wwork : (discardScratch s).scr.wwork = [] := rfl

@[simp] theorem discardScratch_scr_acc : (discardScratch s).scr.acc = [] := rfl

@[simp] theorem discardScratch_scr_qs : (discardScratch s).scr.qs = s.scr.qs := rfl

@[simp] theorem discardScratch_scr_qsSet : (discardScratch s).scr.qsSet = s.scr.qsSet := rfl

@[simp] theorem discardScratch_scr_nib : (discardScratch s).scr.nib = s.scr.nib := rfl

/-! ### enterPreload -/

@[simp] theorem enterPreload_regs : (enterPreload s).regs = s.regs := rfl

@[simp] theorem enterPreload_bufs : (enterPreload s).bufs = s.bufs := rfl

@[simp] theorem enterPreload_env : (enterPreload s).env = s.env := rfl

@[simp] theorem enterPreload_scr : (enterPreload s).scr = (discardScratch s).scr := rfl

@[simp] theorem enterPreload_seq_phase : (enterPreload s).seq.phase = .preload := rfl

@[simp] theorem enterPreload_seq_lat : (enterPreload s).seq.lat = s.seq.lat := rfl

@[simp] theorem enterPreload_seq_issue : (enterPreload s).seq.issue = s.seq.issue := rfl

@[simp] theorem enterPreload_seq_p1Done : (enterPreload s).seq.p1Done = false := rfl

@[simp] theorem enterPreload_seq_p2Done : (enterPreload s).seq.p2Done = false := rfl

/-! ### enterTiles -/

@[simp] theorem enterTiles_regs : (enterTiles s).regs = s.regs := rfl

@[simp] theorem enterTiles_bufs : (enterTiles s).bufs = s.bufs := rfl

@[simp] theorem enterTiles_scr : (enterTiles s).scr = s.scr := rfl

@[simp] theorem enterTiles_env : (enterTiles s).env = s.env := rfl

@[simp] theorem enterTiles_seq_phase : (enterTiles s).seq.phase = .tiles := rfl

@[simp] theorem enterTiles_seq_mt : (enterTiles s).seq.mt = 0 := rfl

@[simp] theorem enterTiles_seq_nt : (enterTiles s).seq.nt = 0 := rfl

@[simp] theorem enterTiles_seq_k : (enterTiles s).seq.k = 0 := rfl

@[simp] theorem enterTiles_seq_lat : (enterTiles s).seq.lat = s.seq.lat := rfl

@[simp] theorem enterTiles_seq_issue : (enterTiles s).seq.issue = s.seq.issue := rfl

/-! ### enterQuant -/

@[simp] theorem enterQuant_regs : (enterQuant s).regs = s.regs := rfl

@[simp] theorem enterQuant_bufs : (enterQuant s).bufs = s.bufs := rfl

@[simp] theorem enterQuant_scr : (enterQuant s).scr = s.scr := rfl

@[simp] theorem enterQuant_env : (enterQuant s).env = s.env := rfl

@[simp] theorem enterQuant_seq_phase : (enterQuant s).seq.phase = .quant := rfl

@[simp] theorem enterQuant_seq_g : (enterQuant s).seq.g = 0 := rfl

@[simp] theorem enterQuant_seq_i : (enterQuant s).seq.i = 0 := rfl

@[simp] theorem enterQuant_seq_lat : (enterQuant s).seq.lat = s.seq.lat := rfl

@[simp] theorem enterQuant_seq_issue : (enterQuant s).seq.issue = s.seq.issue := rfl

/-! ### enterDeq -/

@[simp] theorem enterDeq_regs : (enterDeq s).regs = s.regs := rfl

@[simp] theorem enterDeq_bufs : (enterDeq s).bufs = s.bufs := rfl

@[simp] theorem enterDeq_scr : (enterDeq s).scr = s.scr := rfl

@[simp] theorem enterDeq_env : (enterDeq s).env = s.env := rfl

@[simp] theorem enterDeq_seq_phase : (enterDeq s).seq.phase = .deq := rfl

@[simp] theorem enterDeq_seq_lat : (enterDeq s).seq.lat = s.seq.lat := rfl

@[simp] theorem enterDeq_seq_issue : (enterDeq s).seq.issue = s.seq.issue := rfl

/-! ### setTile -/

@[simp] theorem setTile_regs (mt nt : Nat) : (setTile mt nt s).regs = s.regs := rfl

@[simp] theorem setTile_bufs (mt nt : Nat) : (setTile mt nt s).bufs = s.bufs := rfl

@[simp] theorem setTile_scr (mt nt : Nat) : (setTile mt nt s).scr = s.scr := rfl

@[simp] theorem setTile_env (mt nt : Nat) : (setTile mt nt s).env = s.env := rfl

@[simp] theorem setTile_seq_mt (mt nt : Nat) : (setTile mt nt s).seq.mt = BitVec.ofNat 32 mt := rfl

@[simp] theorem setTile_seq_nt (mt nt : Nat) : (setTile mt nt s).seq.nt = BitVec.ofNat 32 nt := rfl

@[simp] theorem setTile_seq_k (mt nt : Nat) : (setTile mt nt s).seq.k = 0 := rfl

@[simp] theorem setTile_seq_lat (mt nt : Nat) : (setTile mt nt s).seq.lat = s.seq.lat := rfl

@[simp] theorem setTile_seq_phase (mt nt : Nat) : (setTile mt nt s).seq.phase = s.seq.phase := rfl

@[simp] theorem setTile_seq_issue (mt nt : Nat) : (setTile mt nt s).seq.issue = s.seq.issue := rfl

/-! ### nibselOp -/

@[simp] theorem nibselOp_regs : (nibselOp s).regs = s.regs := rfl

@[simp] theorem nibselOp_bufs : (nibselOp s).bufs = s.bufs := rfl

@[simp] theorem nibselOp_seq : (nibselOp s).seq = s.seq := rfl

@[simp] theorem nibselOp_env : (nibselOp s).env = s.env := rfl

@[simp] theorem nibselOp_scr_nib : (nibselOp s).scr.nib = nibSel s.regs.dqByte s.regs.dqSel := rfl

/-! ### deqStore -/

@[simp] theorem deqStore_bufs (p : Params) : (deqStore p s).bufs = s.bufs := rfl

@[simp] theorem deqStore_scr (p : Params) : (deqStore p s).scr = s.scr := rfl

@[simp] theorem deqStore_seq (p : Params) : (deqStore p s).seq = s.seq := rfl

@[simp] theorem deqStore_env (p : Params) : (deqStore p s).env = s.env := rfl

@[simp] theorem deqStore_regs_dqOut (p : Params) : (deqStore p s).regs.dqOut =
    BitVec.ofInt 8 (shiftWrap p.dqBits s.scr.nib s.regs.dqScale) := rfl

@[simp] theorem deqStore_regs_dqOutSet (p : Params) : (deqStore p s).regs.dqOutSet = true := rfl

@[simp] theorem deqStore_regs_status (p : Params) : (deqStore p s).regs.status = s.regs.status := rfl

@[simp] theorem deqStore_regs_cause (p : Params) : (deqStore p s).regs.cause = s.regs.cause := rfl

@[simp] theorem deqStore_regs_cmd (p : Params) : (deqStore p s).regs.cmd = s.regs.cmd := rfl

/-! ### resetBlock -/

@[simp] theorem resetBlock_regs (b : Bufs) : (resetBlock b s).regs = State.reset.regs := rfl

@[simp] theorem resetBlock_scr (b : Bufs) : (resetBlock b s).scr = State.reset.scr := rfl

@[simp] theorem resetBlock_seq (b : Bufs) : (resetBlock b s).seq = State.reset.seq := rfl

@[simp] theorem resetBlock_bufs (b : Bufs) : (resetBlock b s).bufs = b := rfl

@[simp] theorem resetBlock_env_script (b : Bufs) : (resetBlock b s).env.script = s.env.script := rfl

/-! ### aclrOp -/

@[simp] theorem aclrOp_regs (p : Params) : (aclrOp p s).regs = s.regs := rfl

@[simp] theorem aclrOp_bufs (p : Params) : (aclrOp p s).bufs = s.bufs := rfl

@[simp] theorem aclrOp_seq (p : Params) : (aclrOp p s).seq = s.seq := rfl

@[simp] theorem aclrOp_env (p : Params) : (aclrOp p s).env = s.env := rfl

@[simp] theorem aclrOp_scr_acache (p : Params) : (aclrOp p s).scr.acache = s.scr.acache := rfl

@[simp] theorem aclrOp_scr_wcache (p : Params) : (aclrOp p s).scr.wcache = s.scr.wcache := rfl

@[simp] theorem aclrOp_scr_awork (p : Params) : (aclrOp p s).scr.awork = s.scr.awork := rfl

@[simp] theorem aclrOp_scr_wwork (p : Params) : (aclrOp p s).scr.wwork = s.scr.wwork := rfl

@[simp] theorem aclrOp_scr_qs (p : Params) : (aclrOp p s).scr.qs = s.scr.qs := rfl

@[simp] theorem aclrOp_scr_qsSet (p : Params) : (aclrOp p s).scr.qsSet = s.scr.qsSet := rfl

@[simp] theorem aclrOp_scr_nib (p : Params) : (aclrOp p s).scr.nib = s.scr.nib := rfl

/-! ### issueOp -/

@[simp] theorem issueOp_regs (i : Instr) : (issueOp i s).regs = s.regs := rfl

@[simp] theorem issueOp_bufs (i : Instr) : (issueOp i s).bufs = s.bufs := rfl

@[simp] theorem issueOp_scr (i : Instr) : (issueOp i s).scr = s.scr := rfl

@[simp] theorem issueOp_env (i : Instr) : (issueOp i s).env = s.env := rfl

@[simp] theorem issueOp_seq_issue (i : Instr) : (issueOp i s).seq.issue = some (encodeOp i) := rfl

@[simp] theorem issueOp_seq_phase (i : Instr) : (issueOp i s).seq.phase = s.seq.phase := rfl

@[simp] theorem issueOp_seq_lat (i : Instr) : (issueOp i s).seq.lat = s.seq.lat := rfl

@[simp] theorem issueOp_seq_mt (i : Instr) : (issueOp i s).seq.mt = s.seq.mt := rfl

@[simp] theorem issueOp_seq_nt (i : Instr) : (issueOp i s).seq.nt = s.seq.nt := rfl

@[simp] theorem issueOp_seq_k (i : Instr) : (issueOp i s).seq.k = s.seq.k := rfl

@[simp] theorem issueOp_seq_g (i : Instr) : (issueOp i s).seq.g = s.seq.g := rfl

@[simp] theorem issueOp_seq_i (i : Instr) : (issueOp i s).seq.i = s.seq.i := rfl

@[simp] theorem issueOp_seq_p1Done (i : Instr) : (issueOp i s).seq.p1Done = s.seq.p1Done := rfl

@[simp] theorem issueOp_seq_p2Done (i : Instr) : (issueOp i s).seq.p2Done = s.seq.p2Done := rfl

/-! ### takeIssue -/

@[simp] theorem takeIssue_regs : (takeIssue s).regs = s.regs := rfl

@[simp] theorem takeIssue_bufs : (takeIssue s).bufs = s.bufs := rfl

@[simp] theorem takeIssue_scr : (takeIssue s).scr = s.scr := rfl

@[simp] theorem takeIssue_env : (takeIssue s).env = s.env := rfl

@[simp] theorem takeIssue_seq_issue : (takeIssue s).seq.issue = none := rfl

@[simp] theorem takeIssue_seq_phase : (takeIssue s).seq.phase = s.seq.phase := rfl

@[simp] theorem takeIssue_seq_lat : (takeIssue s).seq.lat = s.seq.lat := rfl

@[simp] theorem takeIssue_seq_mt : (takeIssue s).seq.mt = s.seq.mt := rfl

@[simp] theorem takeIssue_seq_nt : (takeIssue s).seq.nt = s.seq.nt := rfl

@[simp] theorem takeIssue_seq_k : (takeIssue s).seq.k = s.seq.k := rfl

@[simp] theorem takeIssue_seq_g : (takeIssue s).seq.g = s.seq.g := rfl

@[simp] theorem takeIssue_seq_i : (takeIssue s).seq.i = s.seq.i := rfl

/-! ### note -/

@[simp] theorem note_regs (v : Word) : (note v s).regs = s.regs := rfl

@[simp] theorem note_bufs (v : Word) : (note v s).bufs = s.bufs := rfl

@[simp] theorem note_scr (v : Word) : (note v s).scr = s.scr := rfl

@[simp] theorem note_seq (v : Word) : (note v s).seq = s.seq := rfl

@[simp] theorem note_env_seen (v : Word) : (note v s).env.seen = v :: s.env.seen := rfl

@[simp] theorem note_env_script (v : Word) : (note v s).env.script = s.env.script := rfl

@[simp] theorem note_env_atStart (v : Word) : (note v s).env.atStart = s.env.atStart := rfl

@[simp] theorem note_env_grain (v : Word) : (note v s).env.grain = s.env.grain := rfl

@[simp] theorem note_env_resets (v : Word) : (note v s).env.resets = s.env.resets := rfl

/-! ### dropEvent -/

@[simp] theorem dropEvent_regs : (dropEvent s).regs = s.regs := rfl

@[simp] theorem dropEvent_bufs : (dropEvent s).bufs = s.bufs := rfl

@[simp] theorem dropEvent_scr : (dropEvent s).scr = s.scr := rfl

@[simp] theorem dropEvent_seq : (dropEvent s).seq = s.seq := rfl

@[simp] theorem dropEvent_env_script : (dropEvent s).env.script = s.env.script.tail := rfl

@[simp] theorem dropEvent_env_seen : (dropEvent s).env.seen = s.env.seen := rfl

@[simp] theorem dropEvent_env_atStart : (dropEvent s).env.atStart = s.env.atStart := rfl

@[simp] theorem dropEvent_env_grain : (dropEvent s).env.grain = s.env.grain := rfl

@[simp] theorem dropEvent_env_resets : (dropEvent s).env.resets = s.env.resets := rfl

end Sys2Proof.Machine
end

