-- ==== Sys2Proof/Laws/Codec.lean ====
section
/-!
SUPPORT. Laws of the codec's operations: when each answers a next state and which, what each leaves unchanged, and the
largest magnitude of a group.
-/
namespace Sys2Proof.Machine

variable {p : Params} {s t : State} {g i : Nat}

/-! ### When each answers a next state, and which -/

theorem qscaleOp_eq_next : qscaleOp g s = .next t ↔
    g < s.seq.lat.groups ∧ g * s.seq.lat.g.toNat + s.seq.lat.g.toNat ≤ s.regs.len .wf ∧
    (∀ x < s.seq.lat.g.toNat, f32Finite (s.bufs.word .wf (g * s.seq.lat.g.toNat + x)) = true) ∧
    qscaleDone g s = t := by
  simp only [qscaleOp, demand_eq_next, refuseIf_eq_next, List.all_eq_true, List.mem_range, decide_eq_true_eq,
    Bool.not_eq_false', Host.Outcome.next.injEq]

theorem storeScale_eq_next : storeScale g s = .next t ↔ g < s.regs.len .sc ∧ storeScaleDone g s = t := by
  simp [storeScale, demand_eq_next]

theorem qpairOp_eq_next : qpairOp p g i s = .next t ↔
    (g < s.seq.lat.groups ∧ i < s.seq.lat.pairs) ∧ s.scr.qsSet = true ∧
    pairIndex s g i + 1 < s.regs.len .wf ∧ pairIndex s g i / 2 < s.regs.len .pw ∧
    (f32Finite (s.bufs.word .wf (pairIndex s g i)) = true ∧
      f32Finite (s.bufs.word .wf (pairIndex s g i + 1)) = true) ∧
    qpairDone p g i s = t := by
  simp only [qpairOp, demand_eq_next, refuseIf_eq_next, Bool.and_eq_true, decide_eq_true_eq, Bool.not_eq_false',
    Host.Outcome.next.injEq]

theorem quantGroup_eq_next : quantGroup p g s = .next t ↔
    ∃ u v, qscaleOp g s = .next u ∧ storeScale g u = .next v ∧
      loop v.seq.lat.pairs (fun i x => andThen (qpairOp p g i x) fun w => .next (bumpPair w)) v = .next t := by
  simp [quantGroup, andThen_eq_next]

theorem quantBody_eq_next : quantBody p s = .next t ↔
    ∃ u, loop s.seq.lat.groups (quantGroup p) (enterQuant s) = .next u ∧ finish u = t := by
  simp [quantBody, andThen_eq_next]

/-! ### What each leaves unchanged -/

section frames
variable (p s g i)

@[simp] theorem qscaleDone_regs : (qscaleDone g s).regs = s.regs := rfl
@[simp] theorem qscaleDone_bufs : (qscaleDone g s).bufs = s.bufs := rfl
@[simp] theorem qscaleDone_seq : (qscaleDone g s).seq = s.seq := rfl
@[simp] theorem qscaleDone_env : (qscaleDone g s).env = s.env := rfl
@[simp] theorem qscaleDone_acache : (qscaleDone g s).scr.acache = s.scr.acache := rfl
@[simp] theorem qscaleDone_wcache : (qscaleDone g s).scr.wcache = s.scr.wcache := rfl
@[simp] theorem qscaleDone_awork : (qscaleDone g s).scr.awork = s.scr.awork := rfl
@[simp] theorem qscaleDone_wwork : (qscaleDone g s).scr.wwork = s.scr.wwork := rfl
@[simp] theorem qscaleDone_acc : (qscaleDone g s).scr.acc = s.scr.acc := rfl
@[simp] theorem qscaleDone_nib : (qscaleDone g s).scr.nib = s.scr.nib := rfl
@[simp] theorem qscaleDone_qsSet : (qscaleDone g s).scr.qsSet = true := rfl

@[simp] theorem storeScaleDone_regs : (storeScaleDone g s).regs = s.regs := rfl
@[simp] theorem storeScaleDone_scr : (storeScaleDone g s).scr = s.scr := rfl
@[simp] theorem storeScaleDone_seq : (storeScaleDone g s).seq = s.seq := rfl
@[simp] theorem storeScaleDone_env : (storeScaleDone g s).env = s.env := rfl
@[simp] theorem storeScaleDone_wf : (storeScaleDone g s).bufs.wf = s.bufs.wf := rfl
@[simp] theorem storeScaleDone_pw : (storeScaleDone g s).bufs.pw = s.bufs.pw := rfl
@[simp] theorem storeScaleDone_act : (storeScaleDone g s).bufs.act = s.bufs.act := rfl
@[simp] theorem storeScaleDone_out : (storeScaleDone g s).bufs.out = s.bufs.out := rfl
@[simp] theorem storeScaleDone_sc :
    (storeScaleDone g s).bufs.sc = cellSet (w := 8) s.bufs.sc g (s.scr.qs.setWidth 8) := rfl

@[simp] theorem qpairDone_regs : (qpairDone p g i s).regs = s.regs := rfl
@[simp] theorem qpairDone_scr : (qpairDone p g i s).scr = s.scr := rfl
@[simp] theorem qpairDone_seq : (qpairDone p g i s).seq = s.seq := rfl
@[simp] theorem qpairDone_env : (qpairDone p g i s).env = s.env := rfl
@[simp] theorem qpairDone_wf : (qpairDone p g i s).bufs.wf = s.bufs.wf := rfl
@[simp] theorem qpairDone_sc : (qpairDone p g i s).bufs.sc = s.bufs.sc := rfl
@[simp] theorem qpairDone_act : (qpairDone p g i s).bufs.act = s.bufs.act := rfl
@[simp] theorem qpairDone_out : (qpairDone p g i s).bufs.out = s.bufs.out := rfl

@[simp] theorem bumpPair_regs : (bumpPair s).regs = s.regs := rfl
@[simp] theorem bumpPair_bufs : (bumpPair s).bufs = s.bufs := rfl
@[simp] theorem bumpPair_scr : (bumpPair s).scr = s.scr := rfl
@[simp] theorem bumpPair_env : (bumpPair s).env = s.env := rfl
@[simp] theorem bumpPair_phase : (bumpPair s).seq.phase = s.seq.phase := rfl
@[simp] theorem bumpPair_lat : (bumpPair s).seq.lat = s.seq.lat := rfl
@[simp] theorem bumpPair_issue : (bumpPair s).seq.issue = s.seq.issue := rfl

end frames

/-! ### The largest magnitude of a group -/

/-- The running maximum bounds every element seen, and is 0 or one of them (40_quantization_codec R122). -/
theorem groupMax_spec (m : Bufs) (base n : Nat) :
    (∀ x < n, f32Mag (m.word .wf (base + x)) ≤ groupMax m base n) ∧
    (groupMax m base n = 0 ∨ ∃ x < n, groupMax m base n = f32Mag (m.word .wf (base + x))) := by
  induction n with
  | zero => exact ⟨fun x hx => absurd hx (Nat.not_lt_zero x), .inl rfl⟩
  | succ n ih =>
    have hstep : groupMax m base (n + 1) =
        if groupMax m base n < f32Mag (m.word .wf (base + n)) then f32Mag (m.word .wf (base + n))
        else groupMax m base n := by
      rw [groupMax, groupMax, List.range_succ, List.foldl_append]
      rfl
    obtain ⟨ihle, iheq⟩ := ih
    rw [hstep]
    split
    · refine ⟨fun x hx => ?_, .inr ⟨n, by omega, rfl⟩⟩
      rcases Nat.lt_succ_iff_lt_or_eq.1 hx with h | rfl
      · have := ihle x h
        omega
      · exact Nat.le_refl _
    · refine ⟨fun x hx => ?_, ?_⟩
      · rcases Nat.lt_succ_iff_lt_or_eq.1 hx with h | rfl
        · exact ihle x h
        · omega
      · rcases iheq with h | ⟨x, hx, h⟩
        · exact .inl h
        · exact .inr ⟨x, by omega, h⟩

end Sys2Proof.Machine
end

