-- ==== Sys2Proof/Laws/Engine.lean ====
section
/-!
SUPPORT. Laws of the engine's operations: when each answers a next state and which, what each leaves unchanged, and
what the cells it writes hold.
-/
namespace Sys2Proof.Machine

variable {p : Params} {s t : State} {mt nt k : Nat}

/-! ### When each answers a next state, and which -/

theorem loadaOp_eq_next : loadaOp p s = .next t ↔
    (loadaRows p s ≤ p.capM ∧ s.seq.lat.k.toNat ≤ p.capK) ∧
    loadaRows p s * s.seq.lat.k.toNat ≤ s.regs.len .act ∧
    loadaDone p s = t := by
  simp [loadaOp, demand_eq_next]

theorem loadwOp_eq_next : loadwOp p s = .next t ↔
    (loadwCols p s ≤ p.capN ∧ s.seq.lat.k.toNat ≤ p.capK) ∧
    (s.seq.lat.g.toNat ≠ 0 ∨ loadwCols p s * s.seq.lat.k.toNat = 0) ∧
    (∀ c < loadwCols p s, ∀ x < s.seq.lat.k.toNat,
      flatIndex s.seq.lat.n.toNat x c / 2 < s.regs.len .pw) ∧
    (∀ c < loadwCols p s, ∀ x < s.seq.lat.k.toNat,
      flatIndex s.seq.lat.n.toNat x c / s.seq.lat.g.toNat < s.regs.len .sc) ∧
    loadwDone p s = t := by
  simp only [loadwOp, demand_eq_next, allGrid_iff, Bool.and_eq_true, Bool.or_eq_true, decide_eq_true_eq,
    Host.Outcome.next.injEq]

theorem tcopyOp_eq_next : tcopyOp p mt nt s = .next t ↔
    (mt < s.seq.lat.mTiles p ∧ nt < s.seq.lat.nTiles p) ∧ s.seq.lat.k.toNat ≤ p.capK ∧
    (∀ i < p.peRows, ∀ c < s.seq.lat.k.toNat,
      cellHas s.scr.acache (rowCell p (mt * p.peRows + i) c) = true) ∧
    (∀ j < p.peCols, ∀ c < s.seq.lat.k.toNat,
      cellHas s.scr.wcache (rowCell p (nt * p.peCols + j) c) = true) ∧
    tcopyDone p mt nt s = t := by
  simp only [tcopyOp, demand_eq_next, allGrid_iff, Bool.and_eq_true, decide_eq_true_eq, Host.Outcome.next.injEq]

theorem macOp_eq_next : macOp p k s = .next t ↔
    k < s.seq.lat.k.toNat ∧ k < p.capK ∧
    (∀ i < p.peRows, cellHas s.scr.awork (rowCell p i k) = true) ∧
    (∀ j < p.peCols, cellHas s.scr.wwork (rowCell p j k) = true) ∧
    (∀ i < p.peRows, ∀ j < p.peCols, cellHas s.scr.acc (accCell p i j) = true) ∧
    (∀ i < p.peRows, ∀ j < p.peCols, fits32 (macSum p s k i j) = true) ∧
    macDone p k s = t := by
  simp only [macOp, demand_eq_next, refuseIf_eq_next, allGrid_iff, List.all_eq_true, List.mem_range,
    Bool.not_eq_false', decide_eq_true_eq, Host.Outcome.next.injEq]

theorem tstoreOp_eq_next : tstoreOp p mt nt s = .next t ↔
    (mt < s.seq.lat.mTiles p ∧ nt < s.seq.lat.nTiles p) ∧
    (∀ i < p.peRows, ∀ j < p.peCols, outIndex p s.seq.lat.n.toNat mt nt i j < s.regs.len .out) ∧
    (∀ i < p.peRows, ∀ j < p.peCols, cellHas s.scr.acc (accCell p i j) = true) ∧
    tstoreDone p mt nt s = t := by
  simp only [tstoreOp, demand_eq_next, allGrid_iff, Bool.and_eq_true, decide_eq_true_eq, Host.Outcome.next.injEq]

theorem tileOp_eq_next : tileOp p mt nt s = .next t ↔
    ∃ u v, tcopyOp p mt nt s = .next u ∧ loop u.seq.lat.k.toNat (macOp p) (aclrOp p u) = .next v ∧
      tstoreOp p mt nt v = .next t := by
  simp [tileOp, andThen_eq_next]

theorem tileRound_eq_next : tileRound p mt nt s = .next t ↔
    ∃ u, tileOp p mt nt (setTile mt nt s) = .next u ∧ bumpTile p u = t := by
  simp [tileRound, andThen_eq_next]

theorem gemmBody_eq_next : gemmBody p s = .next t ↔
    ∃ u v w, loadaOp p (enterPreload s) = .next u ∧ loadwOp p u = .next v ∧
      tilesOp p (enterTiles v) = .next w ∧ finish (discardScratch w) = t := by
  simp [gemmBody, andThen_eq_next]

/-! ### What each leaves unchanged -/

section frames
variable (p s mt nt k)

@[simp] theorem loadaDone_regs : (loadaDone p s).regs = s.regs := rfl
@[simp] theorem loadaDone_bufs : (loadaDone p s).bufs = s.bufs := rfl
@[simp] theorem loadaDone_env : (loadaDone p s).env = s.env := rfl
@[simp] theorem loadaDone_seq : (loadaDone p s).seq = { s.seq with p1Done := true } := rfl
@[simp] theorem loadaDone_wcache : (loadaDone p s).scr.wcache = s.scr.wcache := rfl
@[simp] theorem loadaDone_awork : (loadaDone p s).scr.awork = s.scr.awork := rfl
@[simp] theorem loadaDone_wwork : (loadaDone p s).scr.wwork = s.scr.wwork := rfl
@[simp] theorem loadaDone_acc : (loadaDone p s).scr.acc = s.scr.acc := rfl
@[simp] theorem loadaDone_qs : (loadaDone p s).scr.qs = s.scr.qs := rfl
@[simp] theorem loadaDone_qsSet : (loadaDone p s).scr.qsSet = s.scr.qsSet := rfl
@[simp] theorem loadaDone_nib : (loadaDone p s).scr.nib = s.scr.nib := rfl

@[simp] theorem loadwDone_regs : (loadwDone p s).regs = s.regs := rfl
@[simp] theorem loadwDone_bufs : (loadwDone p s).bufs = s.bufs := rfl
@[simp] theorem loadwDone_env : (loadwDone p s).env = s.env := rfl
@[simp] theorem loadwDone_seq : (loadwDone p s).seq = { s.seq with p2Done := true } := rfl
@[simp] theorem loadwDone_acache : (loadwDone p s).scr.acache = s.scr.acache := rfl
@[simp] theorem loadwDone_awork : (loadwDone p s).scr.awork = s.scr.awork := rfl
@[simp] theorem loadwDone_wwork : (loadwDone p s).scr.wwork = s.scr.wwork := rfl
@[simp] theorem loadwDone_acc : (loadwDone p s).scr.acc = s.scr.acc := rfl
@[simp] theorem loadwDone_qs : (loadwDone p s).scr.qs = s.scr.qs := rfl
@[simp] theorem loadwDone_qsSet : (loadwDone p s).scr.qsSet = s.scr.qsSet := rfl
@[simp] theorem loadwDone_nib : (loadwDone p s).scr.nib = s.scr.nib := rfl

@[simp] theorem tcopyDone_regs : (tcopyDone p mt nt s).regs = s.regs := rfl
@[simp] theorem tcopyDone_bufs : (tcopyDone p mt nt s).bufs = s.bufs := rfl
@[simp] theorem tcopyDone_env : (tcopyDone p mt nt s).env = s.env := rfl
@[simp] theorem tcopyDone_seq : (tcopyDone p mt nt s).seq = s.seq := rfl
@[simp] theorem tcopyDone_acache : (tcopyDone p mt nt s).scr.acache = s.scr.acache := rfl
@[simp] theorem tcopyDone_wcache : (tcopyDone p mt nt s).scr.wcache = s.scr.wcache := rfl
@[simp] theorem tcopyDone_acc : (tcopyDone p mt nt s).scr.acc = s.scr.acc := rfl
@[simp] theorem tcopyDone_qs : (tcopyDone p mt nt s).scr.qs = s.scr.qs := rfl
@[simp] theorem tcopyDone_qsSet : (tcopyDone p mt nt s).scr.qsSet = s.scr.qsSet := rfl
@[simp] theorem tcopyDone_nib : (tcopyDone p mt nt s).scr.nib = s.scr.nib := rfl

@[simp] theorem macDone_regs : (macDone p k s).regs = s.regs := rfl
@[simp] theorem macDone_bufs : (macDone p k s).bufs = s.bufs := rfl
@[simp] theorem macDone_env : (macDone p k s).env = s.env := rfl
@[simp] theorem macDone_seq : (macDone p k s).seq = { s.seq with k := BitVec.ofNat 32 (k + 1) } := rfl
@[simp] theorem macDone_acache : (macDone p k s).scr.acache = s.scr.acache := rfl
@[simp] theorem macDone_wcache : (macDone p k s).scr.wcache = s.scr.wcache := rfl
@[simp] theorem macDone_awork : (macDone p k s).scr.awork = s.scr.awork := rfl
@[simp] theorem macDone_wwork : (macDone p k s).scr.wwork = s.scr.wwork := rfl
@[simp] theorem macDone_qs : (macDone p k s).scr.qs = s.scr.qs := rfl
@[simp] theorem macDone_qsSet : (macDone p k s).scr.qsSet = s.scr.qsSet := rfl
@[simp] theorem macDone_nib : (macDone p k s).scr.nib = s.scr.nib := rfl

@[simp] theorem tstoreDone_regs : (tstoreDone p mt nt s).regs = s.regs := rfl
@[simp] theorem tstoreDone_scr : (tstoreDone p mt nt s).scr = s.scr := rfl
@[simp] theorem tstoreDone_seq : (tstoreDone p mt nt s).seq = s.seq := rfl
@[simp] theorem tstoreDone_env : (tstoreDone p mt nt s).env = s.env := rfl
@[simp] theorem tstoreDone_wf : (tstoreDone p mt nt s).bufs.wf = s.bufs.wf := rfl
@[simp] theorem tstoreDone_pw : (tstoreDone p mt nt s).bufs.pw = s.bufs.pw := rfl
@[simp] theorem tstoreDone_sc : (tstoreDone p mt nt s).bufs.sc = s.bufs.sc := rfl
@[simp] theorem tstoreDone_act : (tstoreDone p mt nt s).bufs.act = s.bufs.act := rfl

@[simp] theorem bumpTile_regs : (bumpTile p s).regs = s.regs := rfl
@[simp] theorem bumpTile_bufs : (bumpTile p s).bufs = s.bufs := rfl
@[simp] theorem bumpTile_scr : (bumpTile p s).scr = s.scr := rfl
@[simp] theorem bumpTile_env : (bumpTile p s).env = s.env := rfl
@[simp] theorem bumpTile_phase : (bumpTile p s).seq.phase = s.seq.phase := rfl
@[simp] theorem bumpTile_lat : (bumpTile p s).seq.lat = s.seq.lat := rfl
@[simp] theorem bumpTile_issue : (bumpTile p s).seq.issue = s.seq.issue := rfl
@[simp] theorem bumpTile_k : (bumpTile p s).seq.k = 0 := rfl

end frames

/-! ### What the cells hold -/

/-- `ACACHE[r][c]` after LOADA, for a row of an in-use tile. -/
theorem loadaDone_cell {r c : Nat} (hr : r < loadaRows p s) (hc : c < s.seq.lat.k.toNat)
    (hk : s.seq.lat.k.toNat ≤ p.capK) :
    cellGet (loadaDone p s).scr.acache (rowCell p r c) =
      some (s.bufs.byte .act (r * s.seq.lat.k.toNat + c)) :=
  cellGet_store_grid _ hr hc fun _ _ _ hj' h => rowCell_inj (by omega) (by omega) h

/-- `WCACHE[c][x]` after LOADW, for a column of an in-use tile. -/
theorem loadwDone_cell {c x : Nat} (hc : c < loadwCols p s) (hx : x < s.seq.lat.k.toNat)
    (hk : s.seq.lat.k.toNat ≤ p.capK) :
    cellGet (loadwDone p s).scr.wcache (rowCell p c x) =
      some (BitVec.ofInt 10 (weightAt p.dqBits s.bufs s.seq.lat.g.toNat (flatIndex s.seq.lat.n.toNat x c))) :=
  cellGet_store_grid _ hc hx fun _ _ _ hj' h => rowCell_inj (by omega) (by omega) h

/-- `AWORK[i][c]` after TCOPY. -/
theorem tcopyDone_awork_cell {i c : Nat} (hi : i < p.peRows) (hc : c < s.seq.lat.k.toNat)
    (hk : s.seq.lat.k.toNat ≤ p.capK) :
    cellGet (tcopyDone p mt nt s).scr.awork (rowCell p i c) =
      some (cellVal s.scr.acache (rowCell p (mt * p.peRows + i) c)) :=
  cellGet_store_grid _ hi hc fun _ _ _ hj' h => rowCell_inj (by omega) (by omega) h

/-- `WWORK[j][c]` after TCOPY. -/
theorem tcopyDone_wwork_cell {j c : Nat} (hj : j < p.peCols) (hc : c < s.seq.lat.k.toNat)
    (hk : s.seq.lat.k.toNat ≤ p.capK) :
    cellGet (tcopyDone p mt nt s).scr.wwork (rowCell p j c) =
      some (cellVal s.scr.wcache (rowCell p (nt * p.peCols + j) c)) :=
  cellGet_store_grid _ hj hc fun _ _ _ hj' h => rowCell_inj (by omega) (by omega) h

/-- `ACC[i][j]` after ACLR. -/
theorem aclrOp_cell {i j : Nat} (hi : i < p.peRows) (hj : j < p.peCols) :
    cellGet (aclrOp p s).scr.acc (accCell p i j) = some 0 :=
  cellGet_store_grid (val := fun _ _ => 0) _ hi hj fun _ _ _ hj' h => accCell_inj hj' hj h

/-- `ACC[i][j]` after MAC. -/
theorem macDone_cell {i j : Nat} (hi : i < p.peRows) (hj : j < p.peCols) :
    cellGet (macDone p k s).scr.acc (accCell p i j) = some (BitVec.ofInt 32 (macSum p s k i j)) :=
  cellGet_store_grid _ hi hj fun _ _ _ hj' h => accCell_inj hj' hj h

/-- One byte of the list TSTORE writes belongs to one element of the tile. -/
theorem mem_tileBytes {q : Nat × Byte} : q ∈ tileBytes p mt nt s ↔ ∃ i < p.peRows, ∃ j < p.peCols,
    q ∈ bytes32 (outIndex p s.seq.lat.n.toNat mt nt i j) (cellVal s.scr.acc (accCell p i j)) := by
  simp only [tileBytes, List.mem_flatten, mem_grid]
  constructor
  · rintro ⟨l, ⟨i, hi, j, hj, rfl⟩, hq⟩
    exact ⟨i, hi, j, hj, hq⟩
  · rintro ⟨i, hi, j, hj, hq⟩
    exact ⟨_, ⟨i, hi, j, hj, rfl⟩, hq⟩

/-- Two places of the output matrix share no index (30_encoding R101). -/
theorem outIndex_inj {n mt' nt' i j i' j' : Nat} (hi : i < p.peRows) (hi' : i' < p.peRows) (hj : j < p.peCols)
    (hj' : j' < p.peCols) (hn : nt < n / p.peCols) (hn' : nt' < n / p.peCols)
    (h : outIndex p n mt nt i j = outIndex p n mt' nt' i' j') : mt = mt' ∧ nt = nt' ∧ i = i' ∧ j = j' := by
  have col : ∀ a b : Nat, a < n / p.peCols → b < p.peCols → a * p.peCols + b < n := fun a b ha hb =>
    Nat.lt_of_lt_of_le (row_major_lt ha hb) (Nat.div_mul_le_self n p.peCols)
  simp only [outIndex, Nat.add_assoc] at h
  obtain ⟨h1, h2⟩ := row_major_inj (col nt j hn hj) (col nt' j' hn' hj') h
  obtain ⟨rfl, rfl⟩ := row_major_inj hi hi' h1
  obtain ⟨rfl, rfl⟩ := row_major_inj hj hj' h2
  exact ⟨rfl, rfl, rfl, rfl⟩

/-- The element of `OUT` that TSTORE writes from `ACC[i][j]`. -/
theorem tstoreDone_elem {i j : Nat} (hi : i < p.peRows) (hj : j < p.peCols) (hn : nt < s.seq.lat.nTiles p) :
    written32 (tstoreDone p mt nt s).bufs.out (outIndex p s.seq.lat.n.toNat mt nt i j) = true ∧
    (tstoreDone p mt nt s).bufs.word .out (outIndex p s.seq.lat.n.toNat mt nt i j) =
      cellVal s.scr.acc (accCell p i j) := by
  refine word_of_bytes (b := .out) fun b hb => ?_
  apply cellGet_cellStore_of_mem
  · exact mem_tileBytes.2 ⟨i, hi, j, hj, hb⟩
  · intro q hq hqb
    obtain ⟨i', hi', j', hj', hq'⟩ := mem_tileBytes.1 hq
    have e := bytes32_disjoint hq' hb hqb
    obtain ⟨-, -, rfl, rfl⟩ := outIndex_inj hi' hi hj' hj hn hn e
    simp only [bytes32, List.mem_cons, List.not_mem_nil, or_false] at hb hq'
    rcases hb with rfl | rfl | rfl | rfl <;> rcases hq' with rfl | rfl | rfl | rfl <;>
      first | rfl | (simp only at hqb; omega)

/-- A byte of `OUT` outside the tile's elements is not written by TSTORE. -/
theorem tstoreDone_outside {a : Nat}
    (h : ∀ i < p.peRows, ∀ j < p.peCols, a / 4 ≠ outIndex p s.seq.lat.n.toNat mt nt i j) :
    cellGet (w := 8) (tstoreDone p mt nt s).bufs.out a = cellGet (w := 8) s.bufs.out a := by
  apply cellGet_cellStore_of_not_mem
  intro q hq hqa
  obtain ⟨i, hi, j, hj, hq⟩ := mem_tileBytes.1 hq
  have hne := h i hi j hj
  simp only [bytes32, List.mem_cons, List.not_mem_nil, or_false] at hq
  rcases hq with rfl | rfl | rfl | rfl <;> simp only at hqa <;> omega

end Sys2Proof.Machine
end

