-- ==== Sys2Proof/Laws/Memory.lean ====
section
/-!
SUPPORT. Every operation on a buffer or an array keeps the canonical form, and the state after reset has it.
-/
namespace Sys2Proof.Machine

/-- Writing an element of a buffer keeps the canonical form. -/
theorem memoryWf_elemPut {b : Buf} {m : Memory} {i : Nat} {v : Word} (h : Memory.wf m = true) :
    Memory.wf (elemPut b m i v) = true := by
  unfold elemPut
  split
  · exact cellsWf_cellStore _ h
  · exact cellsWf_cellSet _ h

/-- A byte after a reset in mid-command: of an element found written the new one, else the old one (70_reset R260). -/
theorem mixMemory_get {n : Nat} {b : Buf} {old new : Memory} {a : Nat} :
    cellGet (w := 8) (mixMemory n b old new) a =
      if Config.resetFindsWritten n (bufNumber b) (a / elemSize b) then
        (cellGet (w := 8) new a).or (cellGet (w := 8) old a) else cellGet (w := 8) old a := by
  rw [mixMemory, cellGet_cellStore,
    cellGet_filter new (fun a => Config.resetFindsWritten n (bufNumber b) (a / elemSize b))]
  split <;> simp_all

/-- A byte of a buffer at any contents: free below the length, else the old one. -/
theorem anyBytes_get {n len : Nat} {b : Buf} {old : Memory} {a : Nat} :
    cellGet (w := 8) (anyBytes n b len old) a =
      if a < len then some (Config.resetContent n (bufNumber b) a) else cellGet (w := 8) old a := by
  split
  · rename_i h
    exact cellGet_cellStore_of_mem _ _ _ _ (List.mem_map.2 ⟨a, List.mem_range.2 h, rfl⟩) (by simp +contextual)
  · rename_i h
    refine cellGet_cellStore_of_not_mem _ _ _ fun q hq hqa => h ?_
    obtain ⟨x, hx, rfl⟩ := List.mem_map.1 hq
    exact hqa ▸ List.mem_range.1 hx

/-- The buffer a reset in mid-command leaves is in canonical form if the old one is. -/
theorem memoryWf_mixMemory {n : Nat} {b : Buf} {old new : Memory} (h : Memory.wf old = true) :
    Memory.wf (mixMemory n b old new) = true := cellsWf_cellStore _ h

/-- A buffer at any contents is in canonical form if the old one is. -/
theorem memoryWf_anyBytes {n len : Nat} {b : Buf} {old : Memory} (h : Memory.wf old = true) :
    Memory.wf (anyBytes n b len old) = true := cellsWf_cellStore _ h

/-- The output buffers of a command without a result are in canonical form if the old ones are. -/
theorem memoryWf_anyOutput {s : State} (h : ∀ b, Memory.wf (s.env.atStart.get b) = true) (b : Buf) :
    Memory.wf ((anyOutput s).get b) = true := by
  unfold anyOutput
  simp only []
  split
  · cases b
    exacts [h .wf, memoryWf_anyBytes (h .pw), memoryWf_anyBytes (h .sc), h .act, h .out]
  · split
    · cases b
      exacts [h .wf, h .pw, h .sc, h .act, memoryWf_anyBytes (h .out)]
    · exact h b

/-- A buffer put among the five keeps the others' form. -/
theorem memoryWf_put {m : Bufs} {b : Buf} {x : Memory} (hm : ∀ c, Memory.wf (m.get c) = true)
    (hx : Memory.wf x = true) (c : Buf) : Memory.wf ((m.put b x).get c) = true := by
  by_cases h : c = b
  · subst h
    rwa [Bufs.get_put_same]
  · rw [Bufs.get_put_ne _ _ h]
    exact hm c

/-- Writing cells below the capacity keeps an array within it. -/
theorem cellsBelow_cellStore {w n : Nat} {m : Cells w} {l : List (Nat × BitVec w)} (hm : cellsBelow n m)
    (hl : ∀ q ∈ l, q.1 < n) : cellsBelow n (cellStore m l) := fun q hq =>
  (mem_cellStore hq).elim (hl q) (hm q)

theorem canonical_reset : Canonical State.reset where
  bufs b := by cases b <;> rfl
  atStart b := by cases b <;> rfl
  acache := rfl
  wcache := rfl
  awork := rfl
  wwork := rfl
  acc := rfl

end Sys2Proof.Machine
end

