-- ==== Sys2Proof/Laws/PerInstr.lean ====
section
/-!
SUPPORT. Statements about every operation as syntax, one lemma per constructor.
-/
namespace Sys2Proof.Laws.OpCode

/-- A well-formed operation's bytes decode to it with nothing taken from what follows, and a byte is a legal command
exactly when the operation is one the host can issue (30_encoding R103 to R105). -/
def Statement (i : Instr) : Prop :=
  i.wf = true ∧ (∀ rest, decode (encode i ++ rest) = .ok (i, rest)) ∧ commandByteWf (encodeOp i) = i.issuable

theorem quant : Statement .quant := ⟨rfl, fun _ => rfl, rfl⟩
theorem deq : Statement .deq := ⟨rfl, fun _ => rfl, rfl⟩
theorem gemm : Statement .gemm := ⟨rfl, fun _ => rfl, rfl⟩
theorem qscale : Statement .qscale := ⟨rfl, fun _ => rfl, rfl⟩
theorem qpair : Statement .qpair := ⟨rfl, fun _ => rfl, rfl⟩
theorem nibsel : Statement .nibsel := ⟨rfl, fun _ => rfl, rfl⟩
theorem check : Statement .check := ⟨rfl, fun _ => rfl, rfl⟩
theorem loada : Statement .loada := ⟨rfl, fun _ => rfl, rfl⟩
theorem loadw : Statement .loadw := ⟨rfl, fun _ => rfl, rfl⟩
theorem tcopy : Statement .tcopy := ⟨rfl, fun _ => rfl, rfl⟩
theorem aclr : Statement .aclr := ⟨rfl, fun _ => rfl, rfl⟩
theorem mac : Statement .mac := ⟨rfl, fun _ => rfl, rfl⟩
theorem tstore : Statement .tstore := ⟨rfl, fun _ => rfl, rfl⟩
theorem tile : Statement .tile := ⟨rfl, fun _ => rfl, rfl⟩

end Sys2Proof.Laws.OpCode
end

