-- ==== Sys2Proof/Laws/Tile.lean ====
section
/-!
SUPPORT. The laws of a tile pair: the products are bounded, the MAC loop from a cleared accumulator completes with the
exact sums (43_tiled_engine R193, R194), and TILE writes them to its region of `OUT` (R189).
-/
namespace Sys2Proof.Machine

variable {p : Params} {s : State} {mt nt : Nat}

/-- The magnitude of a signed pattern. -/
theorem abs_toInt_le {w : Nat} (x : BitVec (w + 1)) : |x.toInt| ≤ 2 ^ w := by
  have h1 := @BitVec.toInt_lt (w + 1) x
  have h2 := @BitVec.le_toInt (w + 1) x
  rw [Nat.add_sub_cancel] at h1 h2
  exact abs_le.2 ⟨h2, h1.le⟩

/-- The product of an activation and a weight cell, at either `DQ_BITS` (43_tiled_engine R187,
93_implementation_defined U1). -/
theorem abs_cell_mul_le (a : Byte) (b : BitVec 10) : |a.toInt * b.toInt| ≤ 65536 := by
  rw [abs_mul]
  calc |a.toInt| * |b.toInt| ≤ 2 ^ 7 * 2 ^ 9 :=
        mul_le_mul (abs_toInt_le a) (abs_toInt_le b) (abs_nonneg _) (by norm_num)
    _ = 65536 := by norm_num

/-- A sum of `n` such products (43_tiled_engine R193, 93_implementation_defined U1). -/
theorem abs_cell_dot_le (f : Nat → Byte) (g : Nat → BitVec 10) (n : Nat) :
    |∑ x ∈ Finset.range n, (f x).toInt * (g x).toInt| ≤ n * 65536 := by
  calc |∑ x ∈ Finset.range n, (f x).toInt * (g x).toInt|
      ≤ ∑ x ∈ Finset.range n, |(f x).toInt * (g x).toInt| := Finset.abs_sum_le_sum_abs _ _
    _ ≤ ∑ _x ∈ Finset.range n, (65536 : Int) := Finset.sum_le_sum fun x _ => abs_cell_mul_le _ _
    _ = n * 65536 := by simp

theorem fits32_iff {x : Int} : fits32 x = true ↔ -2147483648 ≤ x ∧ x ≤ 2147483647 := by
  simp [fits32]

/-- An integer in the 32-bit range is read back from its pattern (00_scope R10). -/
theorem toInt_ofInt32 {x : Int} (h : fits32 x = true) : (BitVec.ofInt 32 x).toInt = x := by
  obtain ⟨h1, h2⟩ := fits32_iff.1 h
  rw [BitVec.toInt_ofInt]
  apply Int.bmod_eq_of_le <;> norm_num <;> omega

/-- The sum that cell `(i, j)` holds after `n` steps from a cleared accumulator (43_tiled_engine R187). -/
def cellSum (p : Params) (s : State) (i j n : Nat) : Int :=
  ∑ x ∈ Finset.range n, (cellVal s.scr.awork (rowCell p i x)).toInt * (cellVal s.scr.wwork (rowCell p j x)).toInt

/-- With `CAP_K <= 32767` no partial sum leaves the 32-bit range, at either `DQ_BITS` and whatever the weight cells
hold (43_tiled_engine R194, 93_implementation_defined U1). -/
theorem cellSum_fits (p : Params) (s : State) (i j : Nat) {n : Nat} (hn : n ≤ 32767) :
    fits32 (cellSum p s i j n) = true := by
  have h : |cellSum p s i j n| ≤ n * 65536 :=
    abs_cell_dot_le (fun x => cellVal s.scr.awork (rowCell p i x)) (fun x => cellVal s.scr.wwork (rowCell p j x)) n
  have hn' : (n : Int) ≤ 32767 := by exact_mod_cast hn
  rw [abs_le] at h
  exact fits32_iff.2 ⟨by omega, by omega⟩

/-- What the MAC loop has changed after `n` rounds: the accumulator and `SEQ_K`. -/
structure MacLoop (p : Params) (s : State) (n : Nat) (u : State) : Prop where
  regs : u.regs = s.regs
  bufs : u.bufs = s.bufs
  env : u.env = s.env
  seq : u.seq = { s.seq with k := if n = 0 then s.seq.k else BitVec.ofNat 32 n }
  scr : u.scr = { s.scr with acc := u.scr.acc }
  acc : ∀ i < p.peRows, ∀ j < p.peCols,
    cellGet u.scr.acc (accCell p i j) = some (BitVec.ofInt 32 (cellSum p s i j n))

theorem macLoop_start (p : Params) (s : State) : MacLoop p s 0 (aclrOp p s) where
  regs := rfl
  bufs := rfl
  env := rfl
  seq := rfl
  scr := rfl
  acc i hi j hj := by rw [aclrOp_cell hi hj]; simp [cellSum]

theorem macLoop_round {n : Nat} {u : State} (hk : s.seq.lat.k.toNat ≤ p.capK) (hcap : p.capK ≤ 32767)
    (ha : ∀ i < p.peRows, ∀ x < s.seq.lat.k.toNat, cellHas s.scr.awork (rowCell p i x) = true)
    (hw : ∀ j < p.peCols, ∀ x < s.seq.lat.k.toNat, cellHas s.scr.wwork (rowCell p j x) = true)
    (hn : n < s.seq.lat.k.toNat) (h : MacLoop p s n u) :
    macOp p n u = .next (macDone p n u) ∧ MacLoop p s (n + 1) (macDone p n u) := by
  have hlat : u.seq.lat = s.seq.lat := by rw [h.seq]
  have haw : u.scr.awork = s.scr.awork := by rw [h.scr]
  have hww : u.scr.wwork = s.scr.wwork := by rw [h.scr]
  have hsum : ∀ i < p.peRows, ∀ j < p.peCols, macSum p u n i j = cellSum p s i j (n + 1) := by
    intro i hi j hj
    rw [macSum, cellVal_of_get (h.acc i hi j hj), toInt_ofInt32 (cellSum_fits p s i j (by omega)), haw, hww,
      cellSum, cellSum, Finset.sum_range_succ]
  constructor
  · rw [macOp_eq_next]
    refine ⟨by rw [hlat]; exact hn, by omega, fun i hi => by rw [haw]; exact ha i hi n hn,
      fun j hj => by rw [hww]; exact hw j hj n hn, fun i hi j hj => cellHas_iff.2 ⟨_, h.acc i hi j hj⟩, ?_, rfl⟩
    intro i hi j hj
    rw [hsum i hi j hj]
    exact cellSum_fits p s i j (by omega)
  · refine ⟨h.regs, h.bufs, h.env, ?_, ?_, ?_⟩
    · rw [macDone_seq, h.seq]; simp
    · change { u.scr with acc := (macDone p n u).scr.acc } = _
      rw [h.scr]
    · intro i hi j hj
      rw [macDone_cell hi hj, hsum i hi j hj]

/-- The MAC loop from a cleared accumulator completes with the exact sums. -/
theorem macLoop_completes (hk : s.seq.lat.k.toNat ≤ p.capK) (hcap : p.capK ≤ 32767)
    (ha : ∀ i < p.peRows, ∀ x < s.seq.lat.k.toNat, cellHas s.scr.awork (rowCell p i x) = true)
    (hw : ∀ j < p.peCols, ∀ x < s.seq.lat.k.toNat, cellHas s.scr.wwork (rowCell p j x) = true) :
    ∃ t, loop s.seq.lat.k.toNat (macOp p) (aclrOp p s) = .next t ∧ MacLoop p s s.seq.lat.k.toNat t :=
  loop_completes (I := MacLoop p s) (macLoop_start p s) fun n u hn hI =>
    ⟨macDone p n u, macLoop_round hk hcap ha hw hn hI⟩

/-- What TILE needs: an existing tile pair, both its cache slices written, its elements of `OUT` in range. -/
structure TileReady (p : Params) (mt nt : Nat) (s : State) : Prop where
  mt_lt : mt < s.seq.lat.mTiles p
  nt_lt : nt < s.seq.lat.nTiles p
  k_le : s.seq.lat.k.toNat ≤ p.capK
  acache : ∀ i < p.peRows, ∀ c < s.seq.lat.k.toNat,
    cellHas s.scr.acache (rowCell p (mt * p.peRows + i) c) = true
  wcache : ∀ j < p.peCols, ∀ c < s.seq.lat.k.toNat,
    cellHas s.scr.wcache (rowCell p (nt * p.peCols + j) c) = true
  out : ∀ i < p.peRows, ∀ j < p.peCols, outIndex p s.seq.lat.n.toNat mt nt i j < s.regs.len .out

/-- The sum TILE writes for cell `(i, j)`, from the caches (43_tiled_engine R189, R195). -/
def tileSum (p : Params) (s : State) (mt nt i j : Nat) : Int :=
  ∑ x ∈ Finset.range s.seq.lat.k.toNat,
    (cellVal s.scr.acache (rowCell p (mt * p.peRows + i) x)).toInt *
      (cellVal s.scr.wcache (rowCell p (nt * p.peCols + j) x)).toInt

theorem cellSum_tcopyDone {i j : Nat} (hk : s.seq.lat.k.toNat ≤ p.capK) (hi : i < p.peRows) (hj : j < p.peCols) :
    cellSum p (tcopyDone p mt nt s) i j s.seq.lat.k.toNat = tileSum p s mt nt i j :=
  Finset.sum_congr rfl fun x hx => by
    have hx := Finset.mem_range.1 hx
    rw [cellVal_of_get (tcopyDone_awork_cell hi hx hk), cellVal_of_get (tcopyDone_wwork_cell hj hx hk)]

/-- TILE completes: it writes the exact sums to its region of `OUT`, and changes nothing else but the working buffers,
the accumulator and `SEQ_K`. -/
theorem tileOp_completes (hcap : p.capK ≤ 32767) (h : TileReady p mt nt s) :
    ∃ t, tileOp p mt nt s = .next t ∧ t.regs = s.regs ∧ t.env = s.env ∧
      t.bufs = { s.bufs with out := t.bufs.out } ∧
      t.scr = { s.scr with awork := t.scr.awork, wwork := t.scr.wwork, acc := t.scr.acc } ∧
      t.seq = { s.seq with
        k := if s.seq.lat.k.toNat = 0 then s.seq.k else BitVec.ofNat 32 s.seq.lat.k.toNat } ∧
      (∀ i < p.peRows, ∀ j < p.peCols,
        written32 t.bufs.out (outIndex p s.seq.lat.n.toNat mt nt i j) = true ∧
        (t.bufs.word .out (outIndex p s.seq.lat.n.toNat mt nt i j)).toInt = tileSum p s mt nt i j) ∧
      (∀ a, (∀ i < p.peRows, ∀ j < p.peCols, a / 4 ≠ outIndex p s.seq.lat.n.toNat mt nt i j) →
        cellGet (w := 8) t.bufs.out a = cellGet (w := 8) s.bufs.out a) := by
  have hcopy : tcopyOp p mt nt s = .next (tcopyDone p mt nt s) :=
    tcopyOp_eq_next.2 ⟨⟨h.mt_lt, h.nt_lt⟩, h.k_le, h.acache, h.wcache, rfl⟩
  obtain ⟨v, hv, hm⟩ := macLoop_completes (p := p) (s := tcopyDone p mt nt s) h.k_le hcap
    (fun i hi x hx => cellHas_iff.2 ⟨_, tcopyDone_awork_cell hi hx h.k_le⟩)
    (fun j hj x hx => cellHas_iff.2 ⟨_, tcopyDone_wwork_cell hj hx h.k_le⟩)
  have hseq : v.seq.lat = s.seq.lat := by rw [hm.seq]; rfl
  have hout : v.bufs.out = s.bufs.out := by rw [hm.bufs]; rfl
  have hacc : ∀ i < p.peRows, ∀ j < p.peCols,
      cellVal v.scr.acc (accCell p i j) = BitVec.ofInt 32 (tileSum p s mt nt i j) := by
    intro i hi j hj
    rw [cellVal_of_get (hm.acc i hi j hj), tcopyDone_seq, cellSum_tcopyDone h.k_le hi hj]
  have hstore : tstoreOp p mt nt v = .next (tstoreDone p mt nt v) := by
    rw [tstoreOp_eq_next, hseq, hm.regs]
    exact ⟨⟨h.mt_lt, h.nt_lt⟩, h.out, fun i hi j hj => cellHas_iff.2 ⟨_, hm.acc i hi j hj⟩, rfl⟩
  refine ⟨tstoreDone p mt nt v, tileOp_eq_next.2 ⟨_, v, hcopy, hv, hstore⟩, ?_, ?_, ?_, ?_, ?_, ?_, ?_⟩
  · rw [tstoreDone_regs, hm.regs, tcopyDone_regs]
  · rw [tstoreDone_env, hm.env, tcopyDone_env]
  · change { v.bufs with out := (tstoreDone p mt nt v).bufs.out } = _
    rw [hm.bufs]
    rfl
  · rw [tstoreDone_scr, hm.scr]
    rfl
  · rw [tstoreDone_seq, hm.seq]
    rfl
  · intro i hi j hj
    have := tstoreDone_elem (p := p) (s := v) (mt := mt) (nt := nt) hi hj (by rw [hseq]; exact h.nt_lt)
    rw [hseq] at this
    refine ⟨this.1, ?_⟩
    rw [this.2, hacc i hi j hj]
    refine toInt_ofInt32 ?_
    rw [← cellSum_tcopyDone h.k_le hi hj]
    exact cellSum_fits _ _ _ _ (Nat.le_trans h.k_le hcap)
  · intro a ha
    rw [tstoreDone_outside (by rw [hseq]; exact ha), hout]

end Sys2Proof.Machine
end

