-- ==== Sys2Proof/Laws/Weights.lean ====
section
/-!
SUPPORT. Laws of the dequantization primitive's width: its result is a value of `DQ_BITS` bits, and a weight cell holds
it unchanged at either width.
-/
namespace Sys2Proof.Machine

variable {bits : Nat} {x : Int} {byte : Byte} {sel : BitVec 1} {scale : Byte}

/-- A wrapped integer has `bits` bits (00_scope R10). -/
theorem wrap_range (hb : 0 < bits) : -2 ^ (bits - 1) ≤ wrap bits x ∧ wrap bits x < 2 ^ (bits - 1) := by
  obtain ⟨n, rfl⟩ : ∃ n, bits = n + 1 := ⟨bits - 1, by omega⟩
  have hp : (0 : Int) < 2 ^ n := by positivity
  have h1 := Int.le_bmod (x := x) (m := 2 ^ (n + 1)) (by positivity)
  have h2 := Int.bmod_lt (x := x) (m := 2 ^ (n + 1)) (by positivity)
  have e : ((2 ^ (n + 1) : Nat) : Int) = 2 * 2 ^ n := by push_cast; ring
  rw [e] at h1 h2
  rw [wrap, Nat.add_sub_cancel]
  omega

/-- An integer of `bits` bits is its own wrap. -/
theorem wrap_eq_self (hb : 0 < bits) (h1 : -2 ^ (bits - 1) ≤ x) (h2 : x < 2 ^ (bits - 1)) : wrap bits x = x := by
  obtain ⟨n, rfl⟩ : ∃ n, bits = n + 1 := ⟨bits - 1, by omega⟩
  rw [Nat.add_sub_cancel] at h1 h2
  have e : ((2 ^ (n + 1) : Nat) : Int) = 2 * 2 ^ n := by push_cast; ring
  rw [wrap]
  apply Int.bmod_eq_of_le <;> rw [e] <;> omega

/-- The primitive's result has `bits` bits (41_dequantization R155). -/
theorem deq_range (hb : 0 < bits) :
    -2 ^ (bits - 1) ≤ deq bits byte sel scale ∧ deq bits byte sel scale < 2 ^ (bits - 1) := wrap_range hb

/-- A weight cell holds the primitive's result at either `DQ_BITS` (41_dequantization R158). -/
theorem toInt_weightCell (hb : 0 < bits) (hle : bits ≤ 10) :
    (BitVec.ofInt 10 (deq bits byte sel scale)).toInt = deq bits byte sel scale := by
  obtain ⟨h1, h2⟩ := deq_range (bits := bits) (byte := byte) (sel := sel) (scale := scale) hb
  have hm : (2 : Int) ^ (bits - 1) ≤ 2 ^ 9 := pow_le_pow_right₀ (by norm_num) (by omega)
  rw [BitVec.toInt_ofInt]
  apply Int.bmod_eq_of_le <;> norm_num at hm ⊢ <;> omega

end Sys2Proof.Machine
end

