-- ==== Sys2Proof/Tests/Slice0.lean ====
section
/-!
SUPPORT. The model's own tests: ill-formed terms that the checks refuse, op codes written out bit by bit, one step of
each operation against a vector of spec/95_test_vectors.md or an example of its rule, and for every statement with
hypotheses a state that meets them all.
-/
namespace Sys2Proof.Tests
open Sys2Proof Sys2Proof.Machine

/-! ### Helpers -/

/-- `n` cells from `base`, each holding `v`. -/
def fill {w : Nat} (base n : Nat) (v : BitVec w) : Cells w := (List.range n).map fun a => (base + a, v)

/-- Bytes from address 0. -/
def bytes (l : List Nat) : Cells 8 := l.zipIdx.map fun q => (q.2, BitVec.ofNat 8 q.1)

/-- 32-bit elements from index 0, laid out little-endian. -/
def words (l : List Nat) : Cells 8 := (l.zipIdx.map fun q => bytes32 q.2 (BitVec.ofNat 32 q.1)).flatten

/-- What a property says of the next state; false of a stop. -/
def after (r : Run) (p : State → Bool) : Bool :=
  match r with
  | .next s => p s
  | .fault _ => false
  | .refused _ => false

theorem next_of_after {r : Run} {p : State → Bool} (h : after r p = true) : ∃ t, r = .next t := by
  cases r with
  | next s => exact ⟨s, rfl⟩
  | fault e => cases h
  | refused e => cases h

/-- The reset state with these registers. -/
def withRegs (r : Regs) : State := { State.reset with regs := r }

/-- The dimension registers and the five lengths. -/
def dimRegs (m k n g wf pw sc act out : Nat) : Regs :=
  { Regs.reset with
    dimM := BitVec.ofNat 32 m, dimK := BitVec.ofNat 32 k, dimN := BitVec.ofNat 32 n, dimG := BitVec.ofNat 32 g
    lenWF := BitVec.ofNat 32 wf, lenPW := BitVec.ofNat 32 pw, lenSC := BitVec.ofNat 32 sc
    lenACT := BitVec.ofNat 32 act, lenOUT := BitVec.ofNat 32 out }

/-- The latched dimensions. -/
def dims (m k n g : Nat) : Dims :=
  { m := BitVec.ofNat 32 m, k := BitVec.ofNat 32 k, n := BitVec.ofNat 32 n, g := BitVec.ofNat 32 g }

/-- A state in mid-command: the command's byte, the phase, and the operation issued next. -/
def midCommand (op : Byte) (ph : Phase) (i : Instr) : State :=
  { State.reset with
    regs := { Regs.reset with cmd := op, status := .busy }
    seq := { Seq.reset with phase := ph, issue := some (encodeOp i) } }

/-- A state with a host script. -/
def scripted (s : State) (l : List HostEvent) : State := { s with env := { s.env with script := l } }

/-- The tiny configuration of 95_test_vectors: a 2 by 2 grid. -/
def tiny : Params := { Config.params with peRows := 2, peCols := 2 }

/-- The same with the other reading of `DQ_BITS` (93_implementation_defined U11). -/
def tinyWide : Params := { tiny with dqBits := 10 }

/-- A QUANT's start state: one row of `N` weights, group size `G`. -/
def quantState (n g : Nat) (wf : List Nat) : State :=
  { withRegs (dimRegs 0 1 n g n (n / 2) (n / g) 0 0) with bufs := { Bufs.unknown with wf := words wf } }

/-- A codec micro-operation's start state. -/
def codecState (n g : Nat) (wf : List Nat) (qs : Nat) : State :=
  { quantState n g wf with
    scr := { Scratch.reset with qs := BitVec.ofNat 2 qs, qsSet := true }
    seq := { Seq.reset with lat := dims 0 1 n g } }

/-! ### Well-formedness refuses ill-formed terms -/

/-- A micro-operation's code, zero and the first code after GEMM are no commands (30_encoding R104). -/
theorem test_ill_formed_command_bytes :
    commandByteWf 0x30 = false ∧ commandByteWf 0x00 = false ∧ commandByteWf 0x04 = false ∧
    commandByteWf 0x03 = true := by decide

/-- An index beyond any 32-bit length. -/
theorem test_ill_formed_host_index :
    HostEvent.wf (.st .wf (2 ^ 32) 0) = false ∧ HostEvent.wf (.ld .out (2 ^ 32)) = false ∧
    HostEvent.wf (.ld .out (2 ^ 32 - 1)) = true := by decide

/-- Each constraint of 00_scope R5 broken once; this hardware and the tiny configuration keep them all. -/
theorem test_ill_formed_params :
    Params.wf { Config.params with peRows := 0 } = false ∧ Params.wf { Config.params with peCols := 0 } = false ∧
    Params.wf { Config.params with capM := 129 } = false ∧ Params.wf { Config.params with capN := 511 } = false ∧
    Params.wf { Config.params with peRows := 3, capM := 129 } = false ∧
    Params.wf { Config.params with peCols := 3, capN := 513 } = false ∧
    Params.wf { Config.params with capK := 131072 } = false ∧
    Params.wf { Config.params with dqBits := 9 } = false ∧
    Params.wf { Config.params with dqBits := 10, capK := 32768 } = false ∧
    Params.wf Config.params = true ∧ Params.wf tiny = true ∧ Params.wf tinyWide = true := by decide

/-- Bytes that are no op code, and no byte at all, are refused by name. -/
theorem test_decode_refuses_by_name :
    decode [0x38, 0x01] = .error (.reservedCode 0x38) ∧ decode [] = .error .noByte ∧ decodeCmd 0x10 = none := by decide

/-! ### Op codes, bit by bit (30_encoding R103) -/

/-- The commands. -/
theorem test_decode_commands :
    decode [0b00000001] = .ok (.quant, []) ∧ decode [0b00000010] = .ok (.deq, []) ∧
    decode [0b00000011] = .ok (.gemm, []) ∧ decodeCmd 0b00000011 = some .gemm := by decide

/-- The codec's and the primitive's micro-operations. -/
theorem test_decode_codec :
    decode [0b00010000] = .ok (.qscale, []) ∧ decode [0b00010001] = .ok (.qpair, []) ∧
    decode [0b00100000] = .ok (.nibsel, []) := by decide

/-- The engine's micro-operations. -/
theorem test_decode_engine :
    decode [0b00110000] = .ok (.check, []) ∧ decode [0b00110001] = .ok (.loada, []) ∧
    decode [0b00110010] = .ok (.loadw, []) ∧ decode [0b00110011] = .ok (.tcopy, []) ∧
    decode [0b00110100] = .ok (.aclr, []) ∧ decode [0b00110101] = .ok (.mac, []) ∧
    decode [0b00110110] = .ok (.tstore, []) ∧ decode [0b00110111] = .ok (.tile, []) := by decide

/-! ### One step of each operation -/

/-- Vector Q5, `TIE = away`: five groups of one pair each. -/
theorem test_quant_q5 :
    after (exec .quant (quantState 10 2 [0x42C80000, 0x40400000, 0x80000000, 0, 0x40F00000, 0xC1080000, 0x41780000,
      0xC1780000, 0x40200000, 0xC0200000]))
      (fun t => decide (t.bufs.pw = bytes [0x02, 0x00, 0x87, 0x87, 0xD3] ∧ t.bufs.sc = bytes [3, 0, 0, 0, 0] ∧
        t.regs.status = .done)) = true := by decide +kernel

/-- Vector X32: an odd group size rejects before group divisibility and lengths. -/
theorem test_quant_x32 :
    after (exec .quant (withRegs (dimRegs 16 3 5 5 15 7 3 0 0)))
      (fun t => decide (t.regs.status = .rejected ∧ t.regs.cause = .groupSize)) = true := by decide

/-- The example of 41_dequantization R161: `DEQ 0xC4, 1, 0x01`. -/
theorem test_deq_example :
    after (exec .deq (withRegs { Regs.reset with dqByte := 0xC4, dqSel := 1, dqScale := 0x01 }))
      (fun t => decide (t.regs.dqOut = 0xF0 ∧ readReg t .dqOut = 0xFFFFFFF0)) = true := by decide

/-- Vector DQ8: the exact -384 wraps to -128. -/
theorem test_deq_dq8 :
    after (exec .deq (withRegs { Regs.reset with dqByte := 0xA7, dqSel := 1, dqScale := 0x03 }))
      (fun t => decide (t.regs.dqOut = 0x80)) = true := by decide

/-- Vector E1's inputs, dimensions and lengths. -/
def e1 : State :=
  { withRegs (dimRegs 2 4 4 4 0 8 4 8 8) with
    bufs := { Bufs.unknown with
      act := bytes [0x03, 0xFF, 0x00, 0x02, 0x80, 0x7F, 0x05, 0xFC]
      pw := bytes [0x21, 0xF8, 0x7E, 0x03, 0xC4, 0x19, 0xA5, 0x6B]
      sc := bytes [0x00, 0x01, 0xFE, 0x03] }
    seq := { Seq.reset with lat := dims 2 4 4 4 } }

/-- Vector E1 in the tiny configuration. -/
theorem test_gemm_e1 :
    after (gemmOp tiny e1)
      (fun t => decide (t.bufs.out = words [0x8B, 0xFFFFFEEA, 0xFFFFFF5C, 0xFFFFFEFD, 0xFFFFFBC8, 0xDA4, 0x8C4, 0x2D0] ∧
        t.regs.status = .done)) = true := by decide +kernel

/-- Vector E1's inputs at `DQ_BITS = 10`: the exact weights 320, -384 and 384 stand in place of the wrapped 64, -128 and
-128 (41_dequantization R158), and the sums follow by hand from 42_reference_model R171. -/
theorem test_gemm_e1_wide :
    after (gemmOp tinyWide e1)
      (fun t => decide ((t.bufs.word .out 0).toInt = 651 ∧ (t.bufs.word .out 1).toInt = -790 ∧
        (t.bufs.word .out 4).toInt = -2104 ∧ (t.bufs.word .out 7).toInt = -1328)) = true := by decide +kernel

/-- Vector X15 (the source's S6). -/
theorem test_gemm_x15 :
    after (exec .gemm (withRegs (dimRegs 8 16 16 16 0 128 16 128 128)))
      (fun t => decide (t.regs.status = .rejected ∧ t.regs.cause = .tileDivisibility)) = true := by decide

/-- Vector S3, first row: exactly 16.0 gives scale 1. -/
theorem test_qscale_s3 :
    after (exec .qscale (codecState 2 2 [0x41800000, 0] 0)) (fun t => decide (t.scr.qs = 1)) = true := by
  decide +kernel

/-- Vector Q1i: the largest float below 16 gives scale 0. -/
theorem test_qscale_q1i :
    after (exec .qscale (codecState 2 2 [0x417FFFFF, 0] 3)) (fun t => decide (t.scr.qs = 0)) = true := by
  decide +kernel

/-- The example of 40_quantization_codec R126: 16 and -16 at scale 1. -/
theorem test_qpair_example :
    after (exec .qpair (codecState 2 2 [0x41800000, 0xC1800000] 1)) (fun t => decide (t.bufs.pw = bytes [0xC4])) =
      true := by decide +kernel

/-- The ties 2.5 and -2.5 of vector Q5, under both rules. -/
theorem test_qpair_ties :
    after (exec .qpair (codecState 2 2 [0x40200000, 0xC0200000] 0)) (fun t => decide (t.bufs.pw = bytes [0xD3])) =
      true ∧
    after (qpairOp { Config.params with tie := .even } 0 0 (codecState 2 2 [0x40200000, 0xC0200000] 0))
      (fun t => decide (t.bufs.pw = bytes [0xE2])) = true := by decide +kernel

/-- The example of 41_dequantization R151. -/
theorem test_nibsel_example :
    after (exec .nibsel (withRegs { Regs.reset with dqByte := 0xC4, dqSel := 1 }))
      (fun t => decide (t.scr.nib.toInt = -4)) = true ∧
    after (exec .nibsel (withRegs { Regs.reset with dqByte := 0xC4, dqSel := 0 }))
      (fun t => decide (t.scr.nib.toInt = 4)) = true := by decide

/-- Vector X10: range before group size and divisibility. -/
theorem test_check_x10 :
    after (exec .check (withRegs { dimRegs 129 16 16 15 0 128 17 2064 2064 with cmd := 0x03, status := .busy }))
      (fun t => decide (t.regs.cause = .dimRange ∧ t.regs.status = .rejected)) = true := by decide

/-- Vector X28: the defaults, all at capacity, pass and are latched. -/
theorem test_check_x28 :
    after (exec .check (withRegs
      { dimRegs 128 4096 512 16 0 1048576 131072 524288 65536 with cmd := 0x03, status := .busy }))
      (fun t => decide (t.regs.status = .busy ∧ t.seq.lat = dims 128 4096 512 16)) = true := by decide

/-- Vector E1: activation (1, 0) is -128 and lies in row 1 of the cache. -/
theorem test_loada_e1 :
    after (loadaOp tiny e1)
      (fun t => decide (cellGet t.scr.acache (rowCell tiny 1 0) = some 0x80 ∧
        cellGet t.scr.acache (rowCell tiny 0 3) = some 0x02 ∧ t.seq.p1Done = true)) = true := by decide +kernel

/-- Vector E1: weights (1, 1) = 28, (2, 3) = 16 and (3, 0) = 64, the last from an exact 320. -/
theorem test_loadw_e1 :
    after (loadwOp tiny e1)
      (fun t => decide (cellGet t.scr.wcache (rowCell tiny 1 1) = some 28 ∧
        cellGet t.scr.wcache (rowCell tiny 3 2) = some 16 ∧
        cellGet t.scr.wcache (rowCell tiny 0 3) = some 64 ∧ t.seq.p2Done = true)) = true := by decide +kernel

/-- `TCOPY 0, 1` of vector E1 takes columns 2 and 3 of the weights: (2, 2) = -112 lies in row 0 of `WWORK`. -/
theorem test_tcopy_e1 :
    after (andThen (andThen (loadaOp tiny e1) (loadwOp tiny)) (tcopyOp tiny 0 1))
      (fun t => decide (cellGet t.scr.wwork (rowCell tiny 0 2) = some (BitVec.ofInt 10 (-112)) ∧
        cellGet t.scr.awork (rowCell tiny 1 1) = some 127)) = true := by decide +kernel

/-- Every accumulator cell is zero, whatever it held (43_tiled_engine R186). -/
theorem test_aclr_corner :
    after (exec .aclr { State.reset with scr := { Scratch.reset with acc := [(255, 7)] } })
      (fun t => decide (cellGet t.scr.acc 255 = some 0 ∧ cellGet t.scr.acc 0 = some 0 ∧
        cellGet t.scr.acc 256 = none)) = true := by decide +kernel

/-- The example of 43_tiled_engine R187, and its corner `(-128) * (-128)`. -/
theorem test_mac_example :
    after (macOp tiny 2
      { State.reset with
        seq := { Seq.reset with lat := dims 2 4 2 2 }
        scr := { Scratch.reset with
          awork := [(2, BitVec.ofInt 8 (-3)), (4098, 0x80)], wwork := [(2, BitVec.ofInt 10 (-128)), (4098, 28)]
          acc := [(0, 0), (1, 10), (2, 0), (3, 0)] } })
      (fun t => decide (cellGet t.scr.acc 1 = some (BitVec.ofInt 32 (-74)) ∧ cellGet t.scr.acc 2 = some 16384 ∧
        t.seq.k = 3)) = true := by decide +kernel

/-- The example of 43_tiled_engine R188: `N = 32`, `TSTORE 1, 1`, `ACC[2][3]` goes to `OUT[595]`. -/
theorem test_tstore_example :
    after (exec .tstore
      { withRegs (dimRegs 0 0 0 0 0 0 0 0 1024) with
        seq := { Seq.reset with lat := dims 32 16 32 16, mt := 1, nt := 1 }
        scr := { Scratch.reset with acc := (List.range 256).map fun a => (a, BitVec.ofNat 32 a) } })
      (fun t => decide (written32 t.bufs.out 595 = true ∧ t.bufs.word .out 595 = 35 ∧ written32 t.bufs.out 594 = true ∧
        written32 t.bufs.out 591 = false)) = true := by decide +kernel

/-- TILE alone on tile pair (0, 1) of vector E1. -/
theorem test_tile_e1 :
    after (andThen (andThen (loadaOp tiny e1) (loadwOp tiny)) (tileOp tiny 0 1))
      (fun t => decide ((t.bufs.word .out 2).toInt = -164 ∧ (t.bufs.word .out 3).toInt = -259 ∧
        (t.bufs.word .out 6).toInt = 2244 ∧ (t.bufs.word .out 7).toInt = 720 ∧ written32 t.bufs.out 0 = false)) = true := by
  decide +kernel

/-- A load of an element that nothing has stored completes: it reads what the host left there (10_state R49, 20_memory
R65), here zeros above the byte (log 30). -/
theorem test_ld_of_initial_content :
    after (step (scripted State.reset [.ld .act 7]))
      (fun t => decide (t.env.seen = [(Config.initialByte 3 7).setWidth 32])) = true :=
  decide_eq_true rfl

/-! ### Witnesses: states that meet the hypotheses of the statements -/

theorem witness_stepRunsIssuedOperation :
    ∃ (s : State) (op : Byte) (i : Instr), s.seq.issue = some op ∧ decode [op] = .ok (i, []) ∧
      s.env.script = [.wait] ∧ s.regs.status = .busy :=
  ⟨scripted (midCommand 0x03 .check .check) [.wait], 0x30, .check, by decide⟩

theorem witness_fetchWordRunsNext :
    decodeTableWord 8 0x37 = some .tile ∧ decodeTableWord 8 0x01 = some .quant := by decide

theorem witness_idleBlockWaits :
    State.reset.env.script = [] ∧ State.reset.seq.issue = none ∧ State.reset.regs.status ≠ .busy := by decide

theorem witness_commandWriteStartsCommand :
    let s := scripted State.reset [.wr .cmd 0x103]
    let u := { s with env := { s.env with grain := .command } }
    s.regs.status ≠ .busy ∧ s.env.script = .wr .cmd 0x103 :: [] ∧ s.env.grain ≠ .command ∧
      u.env.grain = .command ∧ u.env.script = .wr .cmd 0x103 :: [] ∧
      commandByteWf (BitVec.ofNat 8 0x103) = true := by decide

theorem witness_illegalCommandRejected :
    let s := scripted State.reset [.wr .cmd 0x04, .block]
    s.regs.status ≠ .busy ∧ s.env.script = .wr .cmd 0x04 :: .block :: [] ∧
      commandByteWf (BitVec.ofNat 8 0x04) = false := by decide

theorem witness_registerWriteKeepsLowBits :
    (scripted State.reset [.wr .dqSel 3]).env.script = .wr .dqSel 3 :: [] ∧ CtrlReg.dqSel ≠ .cmd ∧
      CtrlReg.dqSel.writable = true ∧
      (scripted State.reset [.wr .status 1]).env.script = .wr .status 1 :: [] ∧ CtrlReg.status ≠ .cmd ∧
      CtrlReg.status.writable = false ∧ State.reset.regs.status ≠ .busy := by decide

theorem witness_registerReadHasNoSideEffect :
    (scripted State.reset [.rd .cause]).env.script = .rd .cause :: [] ∧
      ¬(State.reset.regs.status = .busy ∧ State.reset.regs.cmd = 0x02 ∧ CtrlReg.cause = .dqOut) := by decide

/-- The clause on `DQ_OUT`, after a DEQ. -/
theorem witness_registerReadDqOut :
    let s := scripted (withRegs { Regs.reset with status := .done, dqOut := 0x80, dqOutSet := true }) [.rd .dqOut]
    s.env.script = .rd .dqOut :: [] ∧ s.regs.dqOutSet = true ∧
      ¬(s.regs.status = .busy ∧ s.regs.cmd = 0x02 ∧ CtrlReg.dqOut = .dqOut) := by decide

theorem witness_unwrittenDqOutReadsFree :
    let s := scripted State.reset [.rd .dqOut]
    s.env.script = .rd .dqOut :: [] ∧ s.regs.dqOutSet = false ∧ s.regs.status ≠ .busy := by decide

theorem witness_hostKeepsOffWhileBusy :
    let s := midCommand 0x02 .deq .nibsel
    s.regs.status = .busy ∧ s.regs.cmd = 0x02 ∧
      (scripted s [.wr .dimM 1]).env.script = .wr .dimM 1 :: [] ∧
      (scripted s [.st .act 0 1]).env.script = .st .act 0 1 :: [] ∧
      (scripted s [.ld .out 0]).env.script = .ld .out 0 :: [] ∧
      (scripted s [.rd .dqOut]).env.script = .rd .dqOut :: [] := by decide

theorem witness_storeThenLoadReturnsValue :
    let s := scripted State.reset [.st .out (2 ^ 32 - 1) 5, .ld .out (2 ^ 32 - 1)]
    let u := scripted State.reset [.st .pw 0 0x1FF, .ld .pw 0]
    s.regs.status ≠ .busy ∧ 2 ^ 32 - 1 < 2 ^ 32 ∧
      s.env.script = .st .out (2 ^ 32 - 1) 5 :: .ld .out (2 ^ 32 - 1) :: [] ∧
      u.env.script = .st .pw 0 0x1FF :: .ld .pw 0 :: [] := by decide

theorem witness_resetEventRestoresBlock :
    let s := scripted (withRegs { Regs.reset with status := .done, dimM := 16 }) [.reset]
    s.regs.status ≠ .busy ∧ s.env.script = .reset :: [] := by decide

/-- A QUANT of one pair, running, when the reset arrives. -/
def abandonedQuant (wf : List Nat) : State :=
  let s := quantState 2 2 wf
  { s with
    regs := { s.regs with cmd := 0x01, status := .busy }
    seq := { s.seq with phase := .check, issue := some 0x30 }
    env := { s.env with script := [.reset], atStart := s.bufs } }

/-- The first clause, with the codec's buffers. -/
theorem witness_resetAbandonsQuant :
    ∃ u, (abandonedQuant [0x41800000, 0xC1800000]).regs.status = .busy ∧
      (abandonedQuant [0x41800000, 0xC1800000]).env.script = .reset :: [] ∧
      wouldWrite (dropEvent (abandonedQuant [0x41800000, 0xC1800000])) = .next u := by
  obtain ⟨u, hu⟩ := next_of_after (r := wouldWrite (dropEvent (abandonedQuant [0x41800000, 0xC1800000])))
    (p := fun u => decide (cellGet (w := 8) u.bufs.pw 0 = some 0xC4)) (by decide +kernel)
  exact ⟨u, rfl, rfl, hu⟩

/-- The second clause: the weight is a NaN, and the reset comes all the same. -/
theorem witness_resetAbandonsOutOfContract :
    (abandonedQuant [0x7FC00000, 0]).regs.status = .busy ∧
      (abandonedQuant [0x7FC00000, 0]).env.script = .reset :: [] ∧
      ∀ u, wouldWrite (dropEvent (abandonedQuant [0x7FC00000, 0])) ≠ .next u := by
  refine ⟨rfl, rfl, fun u hu => ?_⟩
  have h : after (wouldWrite (dropEvent (abandonedQuant [0x7FC00000, 0]))) (fun _ => true) = false := by decide +kernel
  rw [hu] at h
  cases h

/-- The registers of a 16 by 16 by 16 GEMM or QUANT with the group size 16. -/
def oneTileRegs : Regs := dimRegs 16 16 16 16 256 128 16 256 256

/-- A running GEMM of one tile pair on buffers that nothing has stored to, when the reset arrives. -/
def abandonedGemm : State :=
  { State.reset with
    regs := { oneTileRegs with cmd := 0x03, status := .busy }
    seq := { Seq.reset with phase := .check, issue := some 0x30 }
    env := { Env.reset with script := [.reset] } }

/-- The first clause, with `OUT`. -/
theorem witness_resetAbandonsGemm :
    abandonedGemm.regs.status = .busy ∧ abandonedGemm.env.script = .reset :: [] ∧
      ∃ u, wouldWrite (dropEvent abandonedGemm) = .next u := by
  refine ⟨rfl, rfl, ?_⟩
  let p := Config.params
  let c := startCommand 0x03 { dropEvent abandonedGemm with bufs := abandonedGemm.env.atStart }
  let l := loadaDone p (enterPreload (checkOp p 0x03 c))
  let x := setTile 0 0 (enterTiles (loadwDone p l))
  have h0 : wouldWrite (dropEvent abandonedGemm) = gemmBody p (checkOp p 0x03 c) := by
    rw [wouldWrite]
    exact (if_neg (by decide)).trans ((if_pos rfl).trans (afterCheck_pass (by decide)))
  have hr : loadaRows p (enterPreload (checkOp p 0x03 c)) = 16 := by decide
  have hw : loadwCols p l = 16 := by decide
  obtain ⟨t, ht, -⟩ := tileOp_completes (p := p) (mt := 0) (nt := 0) (s := x) (by decide)
    { mt_lt := by decide
      nt_lt := by decide
      k_le := by decide
      acache := fun i hi _ hk =>
        cellHas_iff.2 ⟨_, loadaDone_cell (by rw [hr]; have : i < 16 := hi; omega) hk (by decide)⟩
      wcache := fun j hj _ hk =>
        cellHas_iff.2 ⟨_, loadwDone_cell (s := l) (by rw [hw]; have : j < 16 := hj; omega) hk (by decide)⟩
      out := by decide }
  have hx : tilesOp p (enterTiles (loadwDone p l)) = .next (bumpTile p t) := by
    have hm : (enterTiles (loadwDone p l)).seq.lat.mTiles p = 1 := by decide
    have hn : (enterTiles (loadwDone p l)).seq.lat.nTiles p = 1 := by decide
    rw [tilesOp, hm, hn]
    simp only [loop, loopFrom_succ, tileRound]
    rw [show tileOp p 0 0 (setTile 0 0 (enterTiles (loadwDone p l))) = .next t from ht]
    rfl
  exact ⟨_, h0.trans (gemmBody_eq_next.2 ⟨_, _, _, loadaOp_eq_next.2 ⟨by decide, by decide, rfl⟩,
    loadwOp_eq_next.2 ⟨by decide, by decide, by decide, by decide, rfl⟩, hx, rfl⟩)⟩

/-- A command byte whose CHECK passes (vector X25). -/
theorem witness_checkPasses : ∀ c, ¬violates Config.params 0x03 oneTileRegs c := by
  intro c
  cases c <;> simp only [violates] <;> decide

/-- One state for each cause, with no lower one: vectors X4, X5, X13, X15, X19, X22. -/
theorem witness_checkRejects :
    violates Config.params 0xFF Regs.reset .illegalOp ∧
    violates Config.params 0x03 Regs.reset .dimRange ∧
    violates Config.params 0x03 { oneTileRegs with dimG := 15 } .groupSize ∧
    violates Config.params 0x03 { oneTileRegs with dimM := 8 } .tileDivisibility ∧
    violates Config.params 0x03 { oneTileRegs with dimG := 6 } .groupDivisibility ∧
    violates Config.params 0x03 { oneTileRegs with lenOUT := 255 } .bufferLength := by
  simp only [violates]
  decide

/-- The last of them has no lower cause. -/
theorem witness_checkRejectsLowest :
    ∀ d : Cause, d.code < Cause.bufferLength.code →
      ¬violates Config.params 0x03 { oneTileRegs with lenOUT := 255 } d := by
  intro d
  cases d <;> simp only [violates] <;> decide

theorem witness_rejectedCommandChangesNothing :
    gemmCause Config.params { oneTileRegs with dimG := 6 } = some .groupDivisibility ∧
    quantCause Config.params { oneTileRegs with lenWF := 255 } = some .bufferLength := by decide

/-- The boundaries of the four clauses: just below 16, at 16, at 32, at 64. -/
theorem witness_scaleThresholds :
    (16 * f32One - 1 < 16 * f32One ∧ 16 * f32One - 1 ≠ 0) ∧
    (16 * f32One ≤ 16 * f32One ∧ 16 * f32One < 32 * f32One) ∧
    (32 * f32One ≤ 64 * f32One - 1 ∧ 64 * f32One - 1 < 64 * f32One) ∧ 64 * f32One ≤ 64 * f32One := by decide +kernel

/-- A tie under both rules: 5/2. -/
theorem witness_roundsToNearest :
    0 < 2 ∧ |2 * (((2 : Nat) : Int) * roundTie .away 5 2 - 5)| = ((2 : Nat) : Int) ∧
      |2 * (((2 : Nat) : Int) * roundTie .even 5 2 - 5)| = ((2 : Nat) : Int) := by decide

/-- A denominator. -/
theorem witness_roundAndClampCommute : 0 < (2 : Nat) := by decide

/-- The three clauses at scale 0: 7.5 (`40F00000`), 8 (`41000000`) and -9 (`C1100000`). -/
theorem witness_roundTripErrorBound :
    (2 * f32Units 0x40F00000 = 15 * ((f32One * scaleFactor 0 : Nat) : Int)) ∧
    (15 * ((f32One * scaleFactor 0 : Nat) : Int) < 2 * f32Units 0x41000000) ∧
    (2 * f32Units 0xC1100000 < -17 * ((f32One * scaleFactor 0 : Nat) : Int)) := by decide +kernel

/-- A pair ready for QSCALE and QPAIR. -/
def onePair : State := codecState 2 2 [0x41800000, 0xC1800000] 1

theorem witness_qscaleDerivesScale :
    onePair.seq.g.toNat < onePair.seq.lat.groups ∧
    onePair.seq.g.toNat * onePair.seq.lat.g.toNat + onePair.seq.lat.g.toNat ≤ onePair.regs.len .wf ∧
    (∀ x < onePair.seq.lat.g.toNat,
      f32Finite (onePair.bufs.word .wf (onePair.seq.g.toNat * onePair.seq.lat.g.toNat + x)) = true) := by
  decide +kernel

theorem witness_qpairPacksTwoWeights :
    onePair.seq.g.toNat < onePair.seq.lat.groups ∧ onePair.seq.i.toNat < onePair.seq.lat.pairs ∧
    onePair.scr.qsSet = true ∧ 0 + 1 < onePair.regs.len .wf ∧ 0 / 2 < onePair.regs.len .pw ∧
    onePair.seq.g.toNat * onePair.seq.lat.g.toNat + 2 * onePair.seq.i.toNat = 0 ∧
    f32Finite (onePair.bufs.word .wf 0) = true ∧ f32Finite (onePair.bufs.word .wf (0 + 1)) = true := by decide +kernel

/-- Two groups of two weights, the second of zeros. -/
def twoGroups : State := quantState 4 2 [0x41800000, 0xC1800000, 0x80000000, 0]

/-- `QuantCommandResult` and `QuantStepsEqualCommand`, whose script is empty and whose grain is not `command`. -/
theorem witness_quantReady :
    QuantReady Config.params twoGroups ∧ twoGroups.env.script = [] ∧ twoGroups.env.grain ≠ .command :=
  ⟨⟨by decide +kernel, by decide +kernel⟩, by decide, by decide⟩

theorem witness_zeroGroupQuantizesToZero :
    QuantReady Config.params twoGroups ∧
    1 < twoGroups.regs.dimK.toNat * twoGroups.regs.dimN.toNat / twoGroups.regs.dimG.toNat ∧
    (∀ y < twoGroups.regs.dimG.toNat,
      f32Units (twoGroups.bufs.word .wf (1 * twoGroups.regs.dimG.toNat + y)) = 0) :=
  ⟨witness_quantReady.1, by decide +kernel, by decide +kernel⟩

/-- Another machine that agrees on group 1 only, and not on `DIM_M`. -/
def otherGroups : State :=
  let s := quantState 4 2 [0x40400000, 0xC0400000, 0x80000000, 0]
  { s with regs := { s.regs with dimM := 7 } }

theorem witness_groupsAreIndependent :
    QuantReady Config.params twoGroups ∧ QuantReady Config.params otherGroups ∧
    twoGroups.regs.dimK = otherGroups.regs.dimK ∧ twoGroups.regs.dimN = otherGroups.regs.dimN ∧
    twoGroups.regs.dimG = otherGroups.regs.dimG ∧ twoGroups.regs.dimM ≠ otherGroups.regs.dimM ∧
    1 < twoGroups.regs.dimK.toNat * twoGroups.regs.dimN.toNat / twoGroups.regs.dimG.toNat ∧
    (∀ y < twoGroups.regs.dimG.toNat, twoGroups.bufs.word .wf (1 * twoGroups.regs.dimG.toNat + y) =
      otherGroups.bufs.word .wf (1 * twoGroups.regs.dimG.toNat + y)) :=
  ⟨witness_quantReady.1, ⟨by decide +kernel, by decide +kernel⟩, by decide, by decide, by decide, by decide,
    by decide +kernel, by decide +kernel⟩

/-- An infinity in the second group. -/
theorem witness_nonFiniteWeightRefused :
    let s := quantState 4 2 [0x41800000, 0xC1800000, 0x7F800000, 0]
    quantCause Config.params s.regs = none ∧
    2 < s.regs.dimK.toNat * s.regs.dimN.toNat ∧ f32Finite (s.bufs.word .wf 2) = false := by decide +kernel

/-- Vector E3a: every activation -128, every nibble -8, every scale 2, one tile pair. -/
def oneTile : State :=
  { withRegs oneTileRegs with
    bufs := { Bufs.unknown with act := fill 0 256 0x80, pw := fill 0 128 0x88, sc := fill 0 16 0x02 }
    scr := { Scratch.reset with
      acache := cellStore [] (grid 16 16 fun r c => (rowCell Config.params r c, 0x80))
      wcache := cellStore [] (grid 16 16 fun r c => (rowCell Config.params r c, BitVec.ofInt 10 (-128))) }
    seq := { Seq.reset with lat := dims 16 16 16 16 } }

/-- GEMM's preconditions, and the premises of `GemmStepsEqualCommand`. -/
theorem witness_gemmReady :
    gemmCause Config.params oneTile.regs = none ∧ oneTile.env.script = [] ∧ oneTile.env.grain ≠ .command := by decide

/-- The two machines may be one. -/
theorem witness_tileRegionsAreIndependent :
    gemmCause Config.params oneTile.regs = none ∧ 15 < oneTile.regs.dimM.toNat ∧ 15 < oneTile.regs.dimN.toNat :=
  ⟨witness_gemmReady.1, by decide, by decide⟩

theorem witness_loadaCopiesActivations :
    oneTile.seq.lat.mTiles Config.params * Config.params.peRows ≤ Config.params.capM ∧
    oneTile.seq.lat.k.toNat ≤ Config.params.capK ∧
    oneTile.seq.lat.mTiles Config.params * Config.params.peRows * oneTile.seq.lat.k.toNat ≤ oneTile.regs.len .act := by
  decide +kernel

theorem witness_loadwDequantizesWeights :
    let n := oneTile.seq.lat.n.toNat
    let g := oneTile.seq.lat.g.toNat
    let cols := oneTile.seq.lat.nTiles Config.params * Config.params.peCols
    cols ≤ Config.params.capN ∧ oneTile.seq.lat.k.toNat ≤ Config.params.capK ∧
    (g ≠ 0 ∨ cols * oneTile.seq.lat.k.toNat = 0) ∧
    (∀ c < cols, ∀ x < oneTile.seq.lat.k.toNat,
      (x * n + c) / 2 < oneTile.regs.len .pw ∧ (x * n + c) / g < oneTile.regs.len .sc) := by decide +kernel

/-- `TcopyCopiesSlices` and, with the last clause, `TileComputesRegion`. -/
theorem witness_tileReady :
    let p := Config.params
    oneTile.seq.mt.toNat < oneTile.seq.lat.mTiles p ∧ oneTile.seq.nt.toNat < oneTile.seq.lat.nTiles p ∧
    oneTile.seq.lat.k.toNat ≤ p.capK ∧
    (∀ i < p.peRows, ∀ c < oneTile.seq.lat.k.toNat,
      cellHas oneTile.scr.acache (rowCell p (oneTile.seq.mt.toNat * p.peRows + i) c) = true) ∧
    (∀ j < p.peCols, ∀ c < oneTile.seq.lat.k.toNat,
      cellHas oneTile.scr.wcache (rowCell p (oneTile.seq.nt.toNat * p.peCols + j) c) = true) ∧
    (∀ i < p.peRows, ∀ j < p.peCols, outIndex p oneTile.seq.lat.n.toNat oneTile.seq.mt.toNat oneTile.seq.nt.toNat i j <
      oneTile.regs.len .out) := by decide +kernel

/-- A machine ready for `MAC 0`, its accumulator cells all holding `v`. -/
def macState (v : BitVec 32) : State :=
  { oneTile with scr := { oneTile.scr with
      awork := (List.range 16).map fun i => (rowCell Config.params i 0, 0x80)
      wwork := (List.range 16).map fun j => (rowCell Config.params j 0, BitVec.ofInt 10 (-128))
      acc := fill 0 256 v } }

theorem witness_macAddsProducts :
    let p := Config.params
    let s := macState 7
    s.seq.k.toNat < s.seq.lat.k.toNat ∧ s.seq.k.toNat < p.capK ∧
    (∀ i < p.peRows, cellHas s.scr.awork (rowCell p i s.seq.k.toNat) = true) ∧
    (∀ j < p.peCols, cellHas s.scr.wwork (rowCell p j s.seq.k.toNat) = true) ∧
    (∀ i < p.peRows, ∀ j < p.peCols, cellHas s.scr.acc (accCell p i j) = true) ∧
    (∀ i < p.peRows, ∀ j < p.peCols,
      -2147483648 ≤ macSum p s s.seq.k.toNat i j ∧ macSum p s s.seq.k.toNat i j ≤ 2147483647) := by decide +kernel

/-- `MacKeepsAccumulatorBound`: a machine with only the cells MAC 0 reads. -/
def bareMacState : State :=
  let s := macState 0
  { s with scr := { s.scr with acache := [], wcache := [] } }

/-- With `k = 0` the bound is 0. -/
theorem witness_macKeepsAccumulatorBound :
    let p := Config.params
    let s := bareMacState
    WithinCapacity p s ∧ s.seq.k.toNat < s.seq.lat.k.toNat ∧ s.seq.k.toNat < p.capK ∧
    (∀ i < p.peRows, cellHas s.scr.awork (rowCell p i s.seq.k.toNat) = true) ∧
    (∀ j < p.peCols, cellHas s.scr.wwork (rowCell p j s.seq.k.toNat) = true) ∧
    ∀ i < p.peRows, ∀ j < p.peCols, ∃ v,
      cellGet s.scr.acc (accCell p i j) = some v ∧ |v.toInt| ≤ s.seq.k.toNat * 16384 := by
  have h : ∀ i < Config.params.peRows, ∀ j < Config.params.peCols,
      cellGet bareMacState.scr.acc (accCell Config.params i j) = some 0 := by decide +kernel
  refine ⟨⟨?_, ?_, ?_, ?_, ?_, ?_, ?_⟩, by decide, by decide, by decide +kernel, by decide +kernel,
    fun i hi j hj => ⟨0, h i hi j hj, by decide⟩⟩
  · exact fun q hq => nomatch hq
  · exact fun q hq => nomatch hq
  · unfold cellsBelow; decide +kernel
  · unfold cellsBelow; decide +kernel
  · unfold cellsBelow; decide +kernel
  · exact fun q hq => nomatch hq
  · unfold cellsFit; decide +kernel

/-- A sum one product beyond the largest 32-bit integer. -/
theorem witness_accumulatorOverflowRefused :
    let p := Config.params
    let s := macState 0x7FFFFFFF
    (∀ i < p.peRows, ∀ j < p.peCols, cellHas s.scr.acc (accCell p i j) = true) ∧
    15 < p.peRows ∧ 15 < p.peCols ∧ 2147483647 < macSum p s s.seq.k.toNat 15 15 := by decide +kernel

/-- Every clause: the arrays emptied one after the other, then `QS`. -/
theorem witness_unwrittenScratchFaults :
    let p := Config.params
    let s := { State.reset with seq := { Seq.reset with lat := dims 16 16 16 16 } }
    let a := { s with scr := { (macState 0).scr with wwork := [] } }
    let w := { s with scr := { (macState 0).scr with acc := [] } }
    let c := { s with scr := { oneTile.scr with wcache := [] } }
    let u := { onePair with scr := Scratch.reset }
    (s.seq.k.toNat < s.seq.lat.k.toNat ∧ s.seq.k.toNat < p.capK ∧
      cellHas s.scr.awork (rowCell p 0 s.seq.k.toNat) = false) ∧
    ((∀ i < p.peRows, cellHas a.scr.awork (rowCell p i s.seq.k.toNat) = true) ∧
      cellHas a.scr.wwork (rowCell p 0 s.seq.k.toNat) = false) ∧
    ((∀ i < p.peRows, cellHas w.scr.awork (rowCell p i s.seq.k.toNat) = true) ∧
      (∀ j < p.peCols, cellHas w.scr.wwork (rowCell p j s.seq.k.toNat) = true) ∧
      cellHas w.scr.acc (accCell p 15 15) = false) ∧
    (s.seq.mt.toNat < s.seq.lat.mTiles p ∧ s.seq.nt.toNat < s.seq.lat.nTiles p ∧ s.seq.lat.k.toNat ≤ p.capK ∧
      cellHas s.scr.acache (rowCell p (s.seq.mt.toNat * p.peRows + 15) 15) = false) ∧
    ((∀ i < p.peRows, ∀ x < s.seq.lat.k.toNat,
        cellHas c.scr.acache (rowCell p (s.seq.mt.toNat * p.peRows + i) x) = true) ∧
      cellHas c.scr.wcache (rowCell p (s.seq.nt.toNat * p.peCols + 15) 15) = false) ∧
    ((∀ i < p.peRows, ∀ j < p.peCols, outIndex p 16 0 0 i j < oneTile.regs.len .out) ∧
      cellHas oneTile.scr.acc (accCell p 15 15) = false) ∧
    (u.seq.g.toNat < u.seq.lat.groups ∧ u.seq.i.toNat < u.seq.lat.pairs ∧ u.scr.qsSet = false) := by decide +kernel

/-- `TstoreWritesTile`: the range of the tile pair and of the addresses is that of `witness_tileReady`. -/
theorem witness_tstoreWritesTile :
    ∀ i < Config.params.peRows, ∀ j < Config.params.peCols,
      cellHas (macState 7).scr.acc (accCell Config.params i j) = true := by decide +kernel

/-- The preloads and the copies complete somewhere. -/
theorem witness_preloadsCommute :
    ∃ t, andThen (exec .loada oneTile) (exec .loadw) = .next t :=
  next_of_after (p := fun t => t.seq.p1Done && t.seq.p2Done) (by decide +kernel)

theorem witness_copyAndClearCommute : ∃ t, andThen (exec .tcopy oneTile) (exec .aclr) = .next t :=
  next_of_after (p := fun t => cellHas t.scr.acc 0) (by decide +kernel)

/-- Two M-tiles of one reduction step, taken in the other order. -/
def twoTiles : State :=
  { withRegs (dimRegs 32 1 16 2 0 8 8 32 512) with
    scr := { Scratch.reset with
      acache := (List.range 32).map fun r => (rowCell Config.params r 0, 0x05)
      wcache := (List.range 16).map fun r => (rowCell Config.params r 0, 0x03) }
    seq := { Seq.reset with lat := dims 32 1 16 2 } }

theorem witness_tileOrderDoesNotMatter :
    let p := Config.params
    let k := twoTiles.seq.lat.k.toNat
    [(1, 0), (0, 0)].Perm (allTiles p twoTiles) ∧ k ≤ p.capK ∧
    (∀ r < twoTiles.seq.lat.mTiles p * p.peRows, ∀ c < k, cellHas twoTiles.scr.acache (rowCell p r c) = true) ∧
    (∀ r < twoTiles.seq.lat.nTiles p * p.peCols, ∀ c < k, cellHas twoTiles.scr.wcache (rowCell p r c) = true) ∧
    twoTiles.seq.lat.m.toNat * twoTiles.seq.lat.n.toNat ≤ twoTiles.regs.len .out := by decide +kernel

/-- A MAC in a running GEMM. -/
theorem witness_macStepsAscend :
    ∃ s t, s.env.script = [] ∧ s.regs.status = .busy ∧ s.seq.issue = some 0x35 ∧ step s = .next t := by
  have h : after (step { macState 7 with
        regs := { oneTileRegs with cmd := 0x03, status := .busy }
        seq := { (macState 7).seq with phase := .tiles, issue := some 0x35 } }) (fun t => decide (t.seq.k = 1)) =
      true := by decide +kernel
  obtain ⟨t, ht⟩ := next_of_after h
  exact ⟨_, t, rfl, rfl, rfl, ht⟩

/-- A TSTORE in a running GEMM of two by two tile pairs. -/
def storing (mt nt : Nat) : State :=
  { withRegs { dimRegs 32 16 32 16 0 256 32 512 1024 with cmd := 0x03, status := .busy } with
    scr := { Scratch.reset with acc := fill 0 256 1 }
    seq := { Seq.reset with
      phase := .tiles, lat := dims 32 16 32 16, mt := BitVec.ofNat 32 mt, nt := BitVec.ofNat 32 nt
      issue := some 0x36 } }

/-- The three clauses: within a row, at its end, at the end. -/
theorem witness_tilePairsRowMajor :
    (∃ t, step (storing 0 0) = .next t) ∧ (∃ t, step (storing 0 1) = .next t) ∧
    (∃ t, step (storing 1 1) = .next t) ∧
    (storing 0 0).env.script = [] ∧ (storing 0 0).env.grain = .micro ∧ (storing 0 0).regs.status = .busy ∧
    (storing 0 0).seq.issue = some 0x36 :=
  ⟨next_of_after (p := fun t => decide (t.seq.nt = 1)) (by decide +kernel),
    next_of_after (p := fun t => decide (t.seq.mt = 1)) (by decide +kernel),
    next_of_after (p := fun t => decide (t.regs.status = .done)) (by decide +kernel),
    rfl, rfl, rfl, rfl⟩

theorem witness_deqStepsEqualCommand :
    State.reset.env.script = [] ∧ State.reset.env.grain ≠ .command := by decide

/-- Reset keeps the invariants, and a step of a running DEQ completes: the premises of the statements about every
step. -/
theorem witness_invariants :
    Canonical State.reset ∧ WithinCapacity Config.params State.reset ∧ Protocol State.reset ∧
      ∃ t, step State.reset = .next t := by
  refine ⟨⟨?_, ?_, rfl, rfl, rfl, rfl, rfl⟩, ?_, ?_, _, rfl⟩
  · intro b; cases b <;> rfl
  · intro b; cases b <;> rfl
  · constructor <;> intro q hq <;> cases hq
  · exact ⟨by decide, by decide, by decide, fun h => by cases h⟩

/-- A running DEQ meets the protocol and steps to its end, so that a BUSY state meets the premises too. -/
theorem witness_busyStep :
    Protocol (midCommand 0x02 .deq .nibsel) ∧ (midCommand 0x02 .deq .nibsel).regs.status = .busy ∧
      (midCommand 0x02 .deq .nibsel).env.script.head? ≠ some .reset ∧
      (∀ x v, (midCommand 0x02 .deq .nibsel).env.script.head? ≠ some (.wr x v)) ∧
      ∃ t, step (midCommand 0x02 .deq .nibsel) = .next t ∧ t.regs.status = .done := by
  refine ⟨⟨by decide, by decide, fun h => absurd rfl h, fun _ => ⟨.nibsel, rfl, rfl⟩⟩, rfl, by decide, ?_, _, rfl, rfl⟩
  intro x v h
  cases h

end Sys2Proof.Tests
end

section
/-!
SUPPORT. The inversion of a step: which agent moves, what the block's move is made of, and which updates of the state
an operation and the sequencer carry out. The invariants are inductions over these updates.
-/
namespace Sys2Proof.Machine

variable {p : Params} {s t : State} {i : Instr}

/-! ### Op codes -/

theorem mem_of_lookupOp {op : Byte} {l : List (Byte × Instr)} (h : lookupOp op l = some i) : (op, i) ∈ l := by
  induction l with
  | nil => cases h
  | cons row l ih =>
    obtain ⟨c, j⟩ := row
    simp only [lookupOp] at h
    split at h
    · next hc =>
      cases h
      exact hc ▸ List.mem_cons_self
    · exact List.mem_cons_of_mem _ (ih h)

/-- An op code that decodes is the one its operation is encoded with (30_encoding R103). -/
theorem encodeOp_of_decodeOp {op : Byte} (h : decodeOp op = some i) : encodeOp i = op := by
  have table : ∀ row ∈ opTable, encodeOp row.2 = row.1 := by decide
  exact table _ (mem_of_lookupOp h)

theorem decode_encodeOp (i : Instr) : decode [encodeOp i] = .ok (i, []) := by
  cases i <;> rfl

theorem encodeOp_of_decode {op : Byte} {rest : List Byte} (h : decode [op] = .ok (i, rest)) : encodeOp i = op := by
  simp only [decode] at h
  split at h
  · next j hj =>
    cases h
    exact encodeOp_of_decodeOp hj
  · cases h

/-! ### Whose turn it is -/

theorem busy_iff : busy s = true ↔ s.regs.status = .busy := by simp [busy]

theorem busy_eq_false_iff : busy s = false ↔ s.regs.status ≠ .busy := by simp [busy]

theorem step_of_nil (h : s.env.script = []) : step s = blockStep s := by
  rw [step, h]

theorem step_of_cons {e : HostEvent} {rest : List HostEvent} (h : s.env.script = e :: rest) :
    step s = eventStep e s := by
  rw [step, h]

/-- The block's turn with an operation issued: the operation, then the sequencer (10_state R43). -/
theorem blockStep_of_issue (h : s.seq.issue = some (encodeOp i)) :
    blockStep s = andThen (exec i (takeIssue s)) (advance i) := by
  simp only [blockStep, h, decode_encodeOp]

/-- The block's turn that answers a next state: it waits, or it runs the operation issued and then the sequencer. -/
theorem blockStep_cases (h : blockStep s = .next t) :
    (s.seq.issue = none ∧ s.regs.status ≠ .busy ∧ t = s) ∨
    (∃ i u, s.seq.issue = some (encodeOp i) ∧ exec i (takeIssue s) = .next u ∧ advance i u = .next t) := by
  cases hop : s.seq.issue with
  | none =>
    simp only [blockStep, hop] at h
    split at h
    · cases h
    · next hb =>
      cases h
      exact .inl ⟨rfl, fun hs => hb (busy_iff.2 hs), rfl⟩
  | some op =>
    simp only [blockStep, hop] at h
    split at h
    · next i _ hi =>
      obtain ⟨u, hu, ht⟩ := andThen_eq_next.1 h
      exact .inr ⟨i, u, by rw [encodeOp_of_decode hi], hu, ht⟩
    · cases h

/-- The ways one step of the machine can come to a next state: the block's turn, or one action of the host taken off
the script (30_encoding R107) or the reset event (70_reset R260). -/
inductive StepTo (s : State) : State → Prop
  | block {u t : State} (hu : u = s ∨ u = dropEvent s) (h : blockStep u = .next t) : StepTo s t
  | command {v : Nat} (hs : s.regs.status ≠ .busy) (hd : s.env.script.head? = some (.wr .cmd v)) :
      StepTo s (writeCmd v (dropEvent s))
  | register {x : CtrlReg} {v : Nat} (hs : s.regs.status ≠ .busy) (hx : x ≠ .cmd)
      (hd : s.env.script.head? = some (.wr x v)) :
      StepTo s { dropEvent s with regs := writeReg s.regs x v }
  | read (v : Word) : StepTo s (note v (dropEvent s))
  | store (b : Buf) (n : Nat) (v : Word) (hs : s.regs.status ≠ .busy) :
      StepTo s { dropEvent s with bufs := s.bufs.put b (elemPut b (s.bufs.get b) n v) }
  | wait : StepTo s (dropEvent s)
  | reset (hd : s.env.script.head? = some .reset) :
      StepTo s (resetBlock (resetBufs (dropEvent s)) (dropEvent s))

theorem eventStep_cases {e : HostEvent} {rest : List HostEvent} (hd : s.env.script = e :: rest)
    (h : eventStep e s = .next t) : StepTo s t := by
  have hhead : s.env.script.head? = some e := by rw [hd]; rfl
  cases e with
  | wr x v =>
    obtain ⟨hb, h⟩ := refuseIf_eq_next.1 h
    have hs := busy_eq_false_iff.1 hb
    split at h
    · next hx =>
      cases h
      exact .command hs (hx ▸ hhead)
    · next hx =>
      cases h
      exact .register hs hx hhead
  | rd x =>
    obtain ⟨-, h⟩ := refuseIf_eq_next.1 h
    cases h
    exact .read _
  | st b n v =>
    obtain ⟨hb, h⟩ := refuseIf_eq_next.1 h
    obtain ⟨-, h⟩ := demand_eq_next.1 h
    cases h
    exact .store b n _ (busy_eq_false_iff.1 hb)
  | ld b n =>
    obtain ⟨-, h⟩ := refuseIf_eq_next.1 h
    obtain ⟨-, h⟩ := demand_eq_next.1 h
    cases h
    exact .read _
  | wait =>
    simp only [eventStep] at h
    split at h
    · exact .block (.inl rfl) h
    · cases h
      exact .wait
  | reset =>
    cases h
    exact .reset hhead
  | block => exact .block (.inr rfl) h

/-- A step that answers a next state comes to it in one of the ways of `StepTo`. -/
theorem step_cases (h : step s = .next t) : StepTo s t := by
  cases hd : s.env.script with
  | nil => exact .block (.inl rfl) (step_of_nil hd ▸ h)
  | cons e rest => exact eventStep_cases hd (step_of_cons hd ▸ h)

/-! ### What CHECK does -/

/-- A command that CHECK rejects has a cause (60_exceptions R231). -/
theorem checkCause_ne_none {op : Byte} {r : Regs} {c : Cause} (h : checkCause p op r = some c) : c ≠ .none := by
  rintro rfl
  simp only [checkCause, quantCause, gemmCause] at h
  repeat' split at h
  all_goals simp_all

/-- A byte that CHECK passes is one of the three commands (30_encoding R104). -/
theorem legal_of_checkCause {op : Byte} {r : Regs} (h : checkCause p op r = none) :
    op = 0x01 ∨ op = 0x02 ∨ op = 0x03 := by
  unfold checkCause at h
  split at h
  · next h1 => exact .inl h1
  · split at h
    · next h2 => exact .inr (.inl h2)
    · split at h
      · next h3 => exact .inr (.inr h3)
      · cases h

/-- The state with a command's dimensions latched. -/
def latched (op : Byte) (s : State) : State :=
  { s with seq := { s.seq with lat := latchDims op s.regs s.seq.lat } }

/-- CHECK rejects the command with a cause, or latches the dimensions (43_tiled_engine R182). -/
theorem checkOp_cases (p : Params) (op : Byte) (s : State) :
    (∃ c, c ≠ .none ∧ checkOp p op s = raiseReject c s) ∨
    (checkCause p op s.regs = none ∧ checkOp p op s = latched op s) := by
  unfold checkOp
  split
  · next c hc => exact .inl ⟨c, checkCause_ne_none hc, rfl⟩
  · next hc => exact .inr ⟨hc, rfl⟩

/-- A command that CHECK rejects ends there; one that it passes goes on with the dimensions latched. -/
theorem afterCheck_cases {op : Byte} {k : State → Run} (h : afterCheck p op k s = .next t) :
    (∃ c, c ≠ .none ∧ t = raiseReject c s) ∨ k (latched op s) = .next t := by
  cases hc : checkCause p op s.regs with
  | some c =>
    rw [afterCheck_reject hc] at h
    cases h
    exact .inl ⟨c, checkCause_ne_none hc, rfl⟩
  | none =>
    rw [afterCheck_pass hc, checkOp, hc] at h
    exact .inr h

/-! ### What the micro-operations do -/

/-- One round of a micro-operation other than CHECK: an update of the buffers, the scratch state or the sequencer's
numbers, with the premises under which it answers a next state. -/
inductive MicroStep (p : Params) : State → State → Prop
  | qscale {s t : State} {g : Nat} (h : qscaleOp g s = .next t) : MicroStep p s t
  | storeScale {s t : State} {g : Nat} (h : storeScale g s = .next t) : MicroStep p s t
  | qpair {s t : State} {g i : Nat} (h : qpairOp p g i s = .next t) : MicroStep p s t
  | bumpPair (s : State) : MicroStep p s (bumpPair s)
  | nibsel (s : State) : MicroStep p s (nibselOp s)
  | loada {s t : State} (h : loadaOp p s = .next t) : MicroStep p s t
  | loadw {s t : State} (h : loadwOp p s = .next t) : MicroStep p s t
  | tcopy {s t : State} {mt nt : Nat} (h : tcopyOp p mt nt s = .next t) : MicroStep p s t
  | aclr (s : State) : MicroStep p s (aclrOp p s)
  | mac {s t : State} {k : Nat} (h : macOp p k s = .next t) : MicroStep p s t
  | tstore {s t : State} {mt nt : Nat} (h : tstoreOp p mt nt s = .next t) : MicroStep p s t
  | setTile (mt nt : Nat) (s : State) : MicroStep p s (setTile mt nt s)
  | bumpTile (s : State) : MicroStep p s (bumpTile p s)

/-- Any number of such rounds. -/
abbrev MicroSteps (p : Params) : State → State → Prop := Relation.ReflTransGen (MicroStep p)

/-- What holds before a chain of steps and is kept by each of them holds after it. -/
theorem chain_keeps {r : State → State → Prop} {I : State → Prop} (hI : ∀ u v, r u v → I u → I v)
    (h : Relation.ReflTransGen r s t) (hs : I s) : I t := by
  induction h with
  | refl => exact hs
  | tail _ hstep ih => exact hI _ _ hstep ih

theorem loop_microSteps {n : Nat} {body : Nat → State → Run}
    (hbody : ∀ j u v, body j u = .next v → MicroSteps p u v) (h : loop n body s = .next t) : MicroSteps p s t :=
  loop_inv (I := fun _ u => MicroSteps p s u) h .refl fun j u v _ hu hv => hu.trans (hbody j u v hv)

theorem quantGroup_microSteps {g : Nat} (h : quantGroup p g s = .next t) : MicroSteps p s t := by
  obtain ⟨u, v, hscale, hstore, hpairs⟩ := quantGroup_eq_next.1 h
  refine .head (.qscale hscale) (.head (.storeScale hstore) (loop_microSteps (fun j x y hxy => ?_) hpairs))
  obtain ⟨w, hpair, hbump⟩ := andThen_eq_next.1 hxy
  cases hbump
  exact .head (.qpair hpair) (.single (.bumpPair w))

theorem tileOp_microSteps {mt nt : Nat} (h : tileOp p mt nt s = .next t) : MicroSteps p s t := by
  obtain ⟨u, v, hcopy, hmacs, hstore⟩ := tileOp_eq_next.1 h
  have hloop : MicroSteps p (aclrOp p u) v := loop_microSteps (fun _ _ _ hmac => .single (.mac hmac)) hmacs
  exact .head (.tcopy hcopy) (.head (.aclr u) (hloop.tail (.tstore hstore)))

theorem tileRound_microSteps {mt nt : Nat} (h : tileRound p mt nt s = .next t) : MicroSteps p s t := by
  obtain ⟨u, htile, rfl⟩ := tileRound_eq_next.1 h
  exact .head (.setTile mt nt s) ((tileOp_microSteps htile).tail (.bumpTile u))

theorem tilesOp_microSteps (h : tilesOp p s = .next t) : MicroSteps p s t :=
  loop_microSteps (fun _ _ _ hrow => loop_microSteps (fun _ _ _ hround => tileRound_microSteps hround) hrow) h

/-- Every operation but the commands and CHECK is a chain of micro-steps. -/
theorem exec_microSteps (hi : i.issuable = false) (hc : i ≠ .check) (h : exec i s = .next t) :
    MicroSteps Config.params s t := by
  cases i with
  | quant | deq | gemm => cases hi
  | check => exact absurd rfl hc
  | qscale => exact .single (.qscale h)
  | qpair => exact .single (.qpair h)
  | nibsel =>
    cases h
    exact .single (.nibsel s)
  | loada => exact .single (.loada h)
  | loadw => exact .single (.loadw h)
  | tcopy => exact .single (.tcopy h)
  | aclr =>
    cases h
    exact .single (.aclr s)
  | mac => exact .single (.mac h)
  | tstore => exact .single (.tstore h)
  | tile => exact tileOp_microSteps h

/-- What no micro-step changes: the registers, the surroundings, the phase, the issue slot and the latched
dimensions. -/
structure MicroFrame (s t : State) : Prop where
  regs : t.regs = s.regs
  env : t.env = s.env
  phase : t.seq.phase = s.seq.phase
  issue : t.seq.issue = s.seq.issue
  lat : t.seq.lat = s.seq.lat

theorem MicroStep.frame (h : MicroStep p s t) : MicroFrame s t := by
  cases h with
  | qscale h =>
    obtain ⟨-, -, -, rfl⟩ := qscaleOp_eq_next.1 h
    exact ⟨rfl, rfl, rfl, rfl, rfl⟩
  | storeScale h =>
    obtain ⟨-, rfl⟩ := storeScale_eq_next.1 h
    exact ⟨rfl, rfl, rfl, rfl, rfl⟩
  | qpair h =>
    obtain ⟨-, -, -, -, -, rfl⟩ := qpairOp_eq_next.1 h
    exact ⟨rfl, rfl, rfl, rfl, rfl⟩
  | loada h =>
    obtain ⟨-, -, rfl⟩ := loadaOp_eq_next.1 h
    exact ⟨rfl, rfl, rfl, rfl, rfl⟩
  | loadw h =>
    obtain ⟨-, -, -, -, rfl⟩ := loadwOp_eq_next.1 h
    exact ⟨rfl, rfl, rfl, rfl, rfl⟩
  | tcopy h =>
    obtain ⟨-, -, -, -, rfl⟩ := tcopyOp_eq_next.1 h
    exact ⟨rfl, rfl, rfl, rfl, rfl⟩
  | mac h =>
    obtain ⟨-, -, -, -, -, -, rfl⟩ := macOp_eq_next.1 h
    exact ⟨rfl, rfl, rfl, rfl, rfl⟩
  | tstore h =>
    obtain ⟨-, -, -, rfl⟩ := tstoreOp_eq_next.1 h
    exact ⟨rfl, rfl, rfl, rfl, rfl⟩
  | bumpPair | nibsel | aclr | setTile | bumpTile => exact ⟨rfl, rfl, rfl, rfl, rfl⟩

theorem MicroFrame.refl (s : State) : MicroFrame s s := ⟨rfl, rfl, rfl, rfl, rfl⟩

theorem MicroFrame.trans {u : State} (h : MicroFrame s t) (h' : MicroFrame t u) : MicroFrame s u :=
  ⟨h'.regs.trans h.regs, h'.env.trans h.env, h'.phase.trans h.phase, h'.issue.trans h.issue, h'.lat.trans h.lat⟩

theorem MicroSteps.frame (h : MicroSteps p s t) : MicroFrame s t :=
  chain_keeps (I := MicroFrame s) (fun _ _ hstep hs => hs.trans hstep.frame) h (.refl s)

/-! ### What the commands do -/

/-- QUANT after CHECK: micro-steps between its start and its end. -/
theorem quantBody_microSteps (h : quantBody p s = .next t) :
    ∃ u, MicroSteps p (enterQuant s) u ∧ t = finish u := by
  obtain ⟨u, hu, rfl⟩ := quantBody_eq_next.1 h
  exact ⟨u, loop_microSteps (fun _ _ _ hg => quantGroup_microSteps hg) hu, rfl⟩

/-- GEMM after CHECK: the preloads, the tiles, and its end. -/
theorem gemmBody_microSteps (h : gemmBody p s = .next t) :
    ∃ u v, MicroSteps p (enterPreload s) u ∧ MicroSteps p (enterTiles u) v ∧ t = finish (discardScratch v) := by
  obtain ⟨a, u, v, ha, hu, hv, rfl⟩ := gemmBody_eq_next.1 h
  exact ⟨u, v, .head (.loada ha) (.single (.loadw hu)), tilesOp_microSteps hv, rfl⟩

/-! ### What the block does in one turn -/

/-- One named update of the state within the block's turn. -/
inductive BlockUpdate (p : Params) : State → State → Prop
  | micro {s t : State} (h : MicroStep p s t) : BlockUpdate p s t
  | takeIssue (s : State) : BlockUpdate p s (takeIssue s)
  | issueOp (i : Instr) (s : State) : BlockUpdate p s (issueOp i s)
  | startCommand (op : Byte) (s : State) : BlockUpdate p s (startCommand op s)
  | reject {c : Cause} (hc : c ≠ .none) (s : State) : BlockUpdate p s (raiseReject c s)
  | latch (op : Byte) (s : State) : BlockUpdate p s (latched op s)
  | enterQuant (s : State) : BlockUpdate p s (enterQuant s)
  | enterDeq (s : State) : BlockUpdate p s (enterDeq s)
  | enterPreload (s : State) : BlockUpdate p s (enterPreload s)
  | enterTiles (s : State) : BlockUpdate p s (enterTiles s)
  | deqStore (s : State) : BlockUpdate p s (deqStore p s)
  | discardScratch (s : State) : BlockUpdate p s (discardScratch s)
  | finish (s : State) : BlockUpdate p s (finish s)

/-- Any number of such updates. -/
abbrev BlockUpdates (p : Params) : State → State → Prop := Relation.ReflTransGen (BlockUpdate p)

theorem MicroSteps.updates (h : MicroSteps p s t) : BlockUpdates p s t :=
  Relation.ReflTransGen.mono (fun _ _ => .micro) _ _ h

theorem checkOp_updates (op : Byte) (s : State) : BlockUpdates p s (checkOp p op s) := by
  rcases checkOp_cases p op s with ⟨c, hc, h⟩ | ⟨-, h⟩ <;> rw [h]
  · exact .single (.reject hc s)
  · exact .single (.latch op s)

/-- A whole command: its start, CHECK and, if that passes, the rest. -/
theorem afterCheck_updates {op : Byte} {k : State → Run}
    (hk : ∀ u v, k u = .next v → BlockUpdates p u v) (h : afterCheck p op k (startCommand op s) = .next t) :
    BlockUpdates p s t := by
  refine .head (.startCommand op s) ?_
  rcases afterCheck_cases h with ⟨c, hc, rfl⟩ | h
  · exact .single (.reject hc _)
  · exact .head (.latch op _) (hk _ _ h)

theorem quantBody_updates (h : quantBody p s = .next t) : BlockUpdates p s t := by
  obtain ⟨u, hu, rfl⟩ := quantBody_microSteps h
  exact .head (.enterQuant s) (hu.updates.tail (.finish u))

theorem gemmBody_updates (h : gemmBody p s = .next t) : BlockUpdates p s t := by
  obtain ⟨u, v, hu, hv, rfl⟩ := gemmBody_microSteps h
  have hend : BlockUpdates p u (finish (discardScratch v)) :=
    .head (.enterTiles u) ((hv.updates.tail (.discardScratch v)).tail (.finish _))
  exact .head (.enterPreload s) (hu.updates.trans hend)

theorem deqBody_updates (s : State) : BlockUpdates p s (finish (deqStore p (nibselOp (enterDeq s)))) :=
  .head (.enterDeq s) (.head (.micro (.nibsel _)) (.head (.deqStore _) (.single (.finish _))))

theorem quantOp_updates (h : quantOp p s = .next t) : BlockUpdates p s t :=
  afterCheck_updates (fun _ _ hb => quantBody_updates hb) h

theorem gemmOp_updates (h : gemmOp p s = .next t) : BlockUpdates p s t :=
  afterCheck_updates (fun _ _ hb => gemmBody_updates hb) h

theorem deqOp_updates (h : deqOp p s = .next t) : BlockUpdates p s t := by
  refine afterCheck_updates (fun u v hb => ?_) h
  cases hb
  exact deqBody_updates u

theorem exec_updates (h : exec i s = .next t) : BlockUpdates Config.params s t := by
  cases i with
  | quant => exact quantOp_updates h
  | deq => exact deqOp_updates h
  | gemm => exact gemmOp_updates h
  | check =>
    cases h
    exact checkOp_updates _ s
  | _ => exact (exec_microSteps rfl (by decide) h).updates

/-! ### What the sequencer does -/

/-- The first operation of a tile pair is TILE or TCOPY, by the grain (log 2). -/
theorem issueTile_cases (s : State) : issueTile s = issueOp .tile s ∨ issueTile s = issueOp .tcopy s := by
  unfold issueTile
  split
  · exact .inl rfl
  all_goals exact .inr rfl

theorem issueTile_updates (s : State) : BlockUpdates p s (issueTile s) := by
  rcases issueTile_cases s with h | h <;> rw [h] <;> exact .single (.issueOp _ s)

theorem afterPass_updates (s : State) : BlockUpdates p s (afterPass s) := by
  unfold afterPass
  split
  · exact .head (.enterQuant s) (.single (.issueOp _ _))
  · split
    · exact .head (.enterDeq s) (.single (.issueOp _ _))
    · exact .head (.enterPreload s) (.single (.issueOp _ _))

theorem afterPair_updates (s : State) : BlockUpdates p s (afterPair s) := by
  refine .head (.micro (.bumpPair s)) ?_
  unfold afterPair
  simp only []
  split
  · exact .single (.finish _)
  · split <;> exact .single (.issueOp _ _)

theorem afterPreload_updates (s : State) : BlockUpdates p s (afterPreload s) := by
  unfold afterPreload
  split
  · exact .single (.issueOp _ s)
  · split
    · exact .single (.issueOp _ s)
    · exact .head (.enterTiles s) (issueTile_updates _)

theorem afterMac_updates (s : State) : BlockUpdates p s (afterMac s) := by
  unfold afterMac
  split <;> exact .single (.issueOp _ s)

theorem afterTile_updates (s : State) : BlockUpdates p s (afterTile p s) := by
  refine .head (.micro (.bumpTile s)) ?_
  unfold afterTile
  simp only []
  split
  · exact .head (.discardScratch _) (.single (.finish _))
  · exact issueTile_updates _

theorem sequel_updates (h : sequel p i s = .next t) : BlockUpdates p s t := by
  cases i with
  | qscale =>
    obtain ⟨u, hu, ht⟩ := andThen_eq_next.1 h
    cases ht
    exact .head (.micro (.storeScale hu)) (.single (.issueOp _ u))
  | check => exact Host.Outcome.next.inj h ▸ afterPass_updates s
  | nibsel => exact Host.Outcome.next.inj h ▸ .head (.deqStore s) (.single (.finish _))
  | qpair => exact Host.Outcome.next.inj h ▸ afterPair_updates s
  | loada | loadw => exact Host.Outcome.next.inj h ▸ afterPreload_updates s
  | tcopy | aclr => exact Host.Outcome.next.inj h ▸ .single (.issueOp _ s)
  | mac => exact Host.Outcome.next.inj h ▸ afterMac_updates s
  | tstore | tile => exact Host.Outcome.next.inj h ▸ afterTile_updates s
  | quant | deq | gemm => exact Host.Outcome.next.inj h ▸ .refl

theorem advance_updates (h : advance i s = .next t) : BlockUpdates Config.params s t := by
  unfold advance at h
  split at h
  · exact sequel_updates h
  · cases h
    exact .refl

/-- The block's turn is a chain of named updates. -/
theorem blockStep_updates (h : blockStep s = .next t) : BlockUpdates Config.params s t := by
  rcases blockStep_cases h with ⟨-, -, rfl⟩ | ⟨i, u, -, hexec, hadv⟩
  · exact .refl
  · exact .head (.takeIssue s) ((exec_updates hexec).trans (advance_updates hadv))

end Sys2Proof.Machine
end

section
/-!
PROOFS. Two invariants read off the updates of a block's turn: the arrays stay within their capacity, and the operand
registers stay as the host wrote them.
-/
namespace Sys2Proof.Machine

variable {p : Params} {s t : State}

/-! ### Capacity -/

theorem mem_of_cellGet {w : Nat} {m : Cells w} {a : Nat} {v : BitVec w} (h : cellGet m a = some v) : (a, v) ∈ m := by
  induction m with
  | nil => cases h
  | cons q m ih =>
    obtain ⟨k, x⟩ := q
    simp only [cellGet] at h
    split at h
    · next hk =>
      cases h
      exact hk ▸ List.mem_cons_self
    · exact List.mem_cons_of_mem _ (ih h)

/-- A written cell of an array whose cells hold `bits` bits holds such a value. -/
theorem cellVal_fits {w bits a : Nat} {m : Cells w} (hm : cellsFit bits m) (h : cellHas m a = true) :
    -2 ^ (bits - 1) ≤ (cellVal m a).toInt ∧ (cellVal m a).toInt < 2 ^ (bits - 1) := by
  obtain ⟨v, hv⟩ := cellHas_iff.1 h
  rw [cellVal_of_get hv]
  exact hm _ (mem_of_cellGet hv)

/-- Writing values of `bits` bits keeps an array of such values. -/
theorem cellsFit_cellStore {w bits : Nat} {m : Cells w} {l : List (Nat × BitVec w)} (hm : cellsFit bits m)
    (hl : ∀ q ∈ l, -2 ^ (bits - 1) ≤ q.2.toInt ∧ q.2.toInt < 2 ^ (bits - 1)) : cellsFit bits (cellStore m l) :=
  fun q hq => (mem_cellStore hq).elim (hl q) (hm q)

/-- A grid of cells of rows of `CAP_K` cells, of at most `n` rows, lies below `n * CAP_K`. -/
theorem rowCells_below {w n rows k : Nat} {m : Cells w} {val : Nat → Nat → BitVec w}
    (hm : cellsBelow (n * p.capK) m)
    (hr : rows ≤ n) (hk : k ≤ p.capK) :
    cellsBelow (n * p.capK) (cellStore m (grid rows k fun r c => (rowCell p r c, val r c))) := by
  refine cellsBelow_cellStore hm fun q hq => ?_
  obtain ⟨r, hr', c, hc, rfl⟩ := mem_grid.1 hq
  exact row_major_lt (by omega) (by omega)

theorem accCells_below {w : Nat} {m : Cells w} {val : Nat → Nat → BitVec w}
    (hm : cellsBelow (p.peRows * p.peCols) m) :
    cellsBelow (p.peRows * p.peCols) (cellStore m (grid p.peRows p.peCols fun i j => (accCell p i j, val i j))) := by
  refine cellsBelow_cellStore hm fun q hq => ?_
  obtain ⟨i, hi, j, hj, rfl⟩ := mem_grid.1 hq
  exact row_major_lt hi hj

theorem withinCapacity_of_scr_eq (h : WithinCapacity p s) (hs : t.scr = s.scr) : WithinCapacity p t := by
  constructor <;> rw [hs]
  exacts [h.acache, h.wcache, h.awork, h.wwork, h.acc, h.wcacheFits, h.wworkFits]

/-- Empty arrays are within any capacity. -/
theorem withinCapacity_discardScratch (p : Params) (s : State) : WithinCapacity p (discardScratch s) := by
  constructor <;> exact fun _ hq => absurd hq List.not_mem_nil

theorem withinCapacity_loadaDone (h : WithinCapacity p s) (hr : loadaRows p s ≤ p.capM)
    (hk : s.seq.lat.k.toNat ≤ p.capK) : WithinCapacity p (loadaDone p s) :=
  { h with acache := rowCells_below h.acache hr hk }

theorem withinCapacity_loadwDone (hb : 0 < p.dqBits) (hb10 : p.dqBits ≤ 10) (h : WithinCapacity p s)
    (hc : loadwCols p s ≤ p.capN) (hk : s.seq.lat.k.toNat ≤ p.capK) : WithinCapacity p (loadwDone p s) :=
  { h with
    wcache := rowCells_below h.wcache hc hk
    wcacheFits := by
      refine cellsFit_cellStore h.wcacheFits fun q hq => ?_
      obtain ⟨c, _, x, _, rfl⟩ := mem_grid.1 hq
      simp only [weightAt, toInt_weightCell hb hb10]
      exact deq_range hb }

theorem withinCapacity_tcopyDone {mt nt : Nat} (h : WithinCapacity p s) (hk : s.seq.lat.k.toNat ≤ p.capK)
    (hw : ∀ j < p.peCols, ∀ c < s.seq.lat.k.toNat,
      cellHas s.scr.wcache (rowCell p (nt * p.peCols + j) c) = true) :
    WithinCapacity p (tcopyDone p mt nt s) :=
  { h with
    awork := rowCells_below h.awork (Nat.le_refl _) hk
    wwork := rowCells_below h.wwork (Nat.le_refl _) hk
    wworkFits := by
      refine cellsFit_cellStore h.wworkFits fun q hq => ?_
      obtain ⟨j, hj, c, hc, rfl⟩ := mem_grid.1 hq
      exact cellVal_fits h.wcacheFits (hw j hj c hc) }

/-- Every micro-step keeps the arrays within their capacity, at a `DQ_BITS` that the weight cells can hold. -/
theorem MicroStep.withinCapacity (hb : 0 < p.dqBits) (hb10 : p.dqBits ≤ 10) (hstep : MicroStep p s t)
    (h : WithinCapacity p s) : WithinCapacity p t := by
  cases hstep with
  | qscale hop =>
    obtain ⟨-, -, -, rfl⟩ := qscaleOp_eq_next.1 hop
    exact { h with }
  | storeScale hop =>
    obtain ⟨-, rfl⟩ := storeScale_eq_next.1 hop
    exact withinCapacity_of_scr_eq h rfl
  | qpair hop =>
    obtain ⟨-, -, -, -, -, rfl⟩ := qpairOp_eq_next.1 hop
    exact withinCapacity_of_scr_eq h rfl
  | loada hop =>
    obtain ⟨⟨hr, hk⟩, -, rfl⟩ := loadaOp_eq_next.1 hop
    exact withinCapacity_loadaDone h hr hk
  | loadw hop =>
    obtain ⟨⟨hc, hk⟩, -, -, -, rfl⟩ := loadwOp_eq_next.1 hop
    exact withinCapacity_loadwDone hb hb10 h hc hk
  | tcopy hop =>
    obtain ⟨-, hk, -, hw, rfl⟩ := tcopyOp_eq_next.1 hop
    exact withinCapacity_tcopyDone h hk hw
  | mac hop =>
    obtain ⟨-, -, -, -, -, -, rfl⟩ := macOp_eq_next.1 hop
    exact { h with acc := accCells_below h.acc }
  | tstore hop =>
    obtain ⟨-, -, -, rfl⟩ := tstoreOp_eq_next.1 hop
    exact withinCapacity_of_scr_eq h rfl
  | aclr => exact { h with acc := accCells_below (val := fun _ _ => 0) h.acc }
  | nibsel => exact { h with }
  | bumpPair | setTile | bumpTile => exact withinCapacity_of_scr_eq h rfl

theorem BlockUpdate.withinCapacity (hb : 0 < p.dqBits) (hb10 : p.dqBits ≤ 10) (hstep : BlockUpdate p s t)
    (h : WithinCapacity p s) : WithinCapacity p t := by
  cases hstep with
  | micro hstep => exact hstep.withinCapacity hb hb10 h
  | enterPreload => exact withinCapacity_of_scr_eq (withinCapacity_discardScratch p s) rfl
  | discardScratch => exact withinCapacity_discardScratch p s
  | _ => exact withinCapacity_of_scr_eq h rfl

theorem blockStep_withinCapacity (h : WithinCapacity Config.params s) (hstep : blockStep s = .next t) :
    WithinCapacity Config.params t :=
  chain_keeps (fun _ _ hu => hu.withinCapacity (by decide) (by decide)) (blockStep_updates hstep) h

theorem withinCapacity_reset (p : Params) : WithinCapacity p State.reset := withinCapacity_discardScratch p State.reset

/-- Settles O56: the host's actions leave the scratch state alone, the reset event empties the arrays, and each update
of the block's turn keeps them within their capacity. -/
theorem stepKeepsCapacity : Obligations.StepKeepsCapacity := by
  intro s t h hstep
  cases step_cases hstep with
  | @block u _ hu hblock =>
    have hscr : u.scr = s.scr := by rcases hu with rfl | rfl <;> rfl
    exact blockStep_withinCapacity (withinCapacity_of_scr_eq h hscr) hblock
  | reset => exact withinCapacity_of_scr_eq (withinCapacity_reset _) rfl
  | command | register | read | store | wait => exact withinCapacity_of_scr_eq h rfl

/-! ### The operand registers -/

/-- The registers with those that a command writes masked out: what the host alone writes (10_state R35). -/
def Regs.operands (r : Regs) : Regs :=
  { r with cmd := 0, status := .idle, cause := .none, dqOut := 0, dqOutSet := false }

/-- Registers with the same operands differ at most in what a command writes. -/
theorem Regs.eq_of_operands_eq {r r' : Regs} (h : r'.operands = r.operands) :
    r' = { r with
      cmd := r'.cmd, status := r'.status, cause := r'.cause, dqOut := r'.dqOut, dqOutSet := r'.dqOutSet } := by
  cases r
  cases r'
  simp only [Regs.operands, Regs.mk.injEq] at h ⊢
  tauto

theorem BlockUpdate.operands (h : BlockUpdate p s t) : t.regs.operands = s.regs.operands := by
  cases h with
  | micro h => rw [h.frame.regs]
  | _ => rfl

theorem blockStep_operands (h : blockStep s = .next t) : t.regs.operands = s.regs.operands :=
  chain_keeps (I := fun u => u.regs.operands = s.regs.operands) (fun _ _ hu hs => hu.operands.trans hs)
    (blockStep_updates h) rfl

/-- Settles O60: no update of the block's turn changes an operand register, and of the host's actions only the
register write and the reset event do. -/
theorem onlyHostChangesOperandRegisters : Obligations.OnlyHostChangesOperandRegisters := by
  intro s t hstep hreset hwr
  apply Regs.eq_of_operands_eq
  cases step_cases hstep with
  | @block u _ hu hblock =>
    have hregs : u.regs = s.regs := by rcases hu with rfl | rfl <;> rfl
    exact hregs ▸ blockStep_operands hblock
  | command _ hd => exact absurd hd (hwr _ _)
  | register _ _ hd => exact absurd hd (hwr _ _)
  | reset hd => exact absurd hd hreset
  | read | store | wait => rfl

end Sys2Proof.Machine
end

section
/-!
PROOFS. The command protocol (10_state R36, R37, R38, R43): a state that meets it is quiet or has a command running; a
turn of the block takes a running command on or ends it.
-/
namespace Sys2Proof.Machine

variable {p : Params} {s t u : State} {i j : Instr}

/-! ### Quiet and running states -/

/-- No command runs: the sequencer is idle, nothing is issued, and a cause stands exactly if the last command was
rejected. -/
structure Quiet (s : State) : Prop where
  status : s.regs.status ≠ .busy
  cause : s.regs.cause ≠ .none ↔ s.regs.status = .rejected
  phase : s.seq.phase = .idle
  cmd : s.regs.cmd = 0
  issue : s.seq.issue = none

/-- A command runs, without a cause, and an operation of its phase is issued. -/
structure Running (s : State) : Prop where
  status : s.regs.status = .busy
  cause : s.regs.cause = .none
  issued : ∃ i, s.seq.issue = some (encodeOp i) ∧ stage s.regs.cmd s.seq.phase i = true

/-- No operation belongs to the idle phase. -/
theorem stage_ne_idle {cmd : Byte} {ph : Phase} (h : stage cmd ph i = true) : ph ≠ .idle := by
  rintro rfl
  cases i <;> cases h

theorem Protocol.quiet_of_not_busy (h : Protocol s) (hs : s.regs.status ≠ .busy) : Quiet s :=
  ⟨hs, h.cause, h.phase.2 hs, (h.quiet hs).1, (h.quiet hs).2⟩

theorem Protocol.running_of_busy (h : Protocol s) (hs : s.regs.status = .busy) : Running s where
  status := hs
  cause := by
    by_contra hc
    have := h.cause.1 hc
    simp [hs] at this
  issued := h.issued hs

/-- The protocol is met exactly in quiet states and while a command runs. -/
theorem protocol_iff : Protocol s ↔ Quiet s ∨ Running s := by
  constructor
  · intro h
    by_cases hs : s.regs.status = .busy
    · exact .inr (h.running_of_busy hs)
    · exact .inl (h.quiet_of_not_busy hs)
  · rintro (h | h)
    · exact ⟨h.cause, by simp [h.phase, h.status], fun _ => ⟨h.cmd, h.issue⟩, fun hs => absurd hs h.status⟩
    · obtain ⟨i, hi, hst⟩ := h.issued
      exact ⟨by simp [h.cause, h.status], by simp [stage_ne_idle hst, h.status], fun hs => absurd h.status hs,
        fun _ => ⟨i, hi, hst⟩⟩

theorem quiet_reset : Quiet State.reset := ⟨by decide, by decide, rfl, rfl, rfl⟩

/-- Being quiet or running is a matter of `CMD`, `STATUS`, `CAUSE`, the phase and the issue slot. -/
theorem protocol_congr (h : Protocol s) (hcmd : t.regs.cmd = s.regs.cmd) (hstatus : t.regs.status = s.regs.status)
    (hcause : t.regs.cause = s.regs.cause) (hseq : t.seq = s.seq) : Protocol t := by
  constructor <;> rw [hstatus]
  · rw [hcause]
    exact h.cause
  · rw [hseq]
    exact h.phase
  · rw [hcmd, hseq]
    exact h.quiet
  · rw [hcmd, hseq]
    exact h.issued

/-! ### How a turn of the block ends -/

/-- A command runs and its next operation has been taken out of the issue slot. -/
structure Active (s : State) : Prop where
  status : s.regs.status = .busy
  cause : s.regs.cause = .none
  issue : s.seq.issue = none

theorem Running.takeIssue (h : Running s) : Active (takeIssue s) := ⟨h.status, h.cause, rfl⟩

theorem active_startCommand (op : Byte) (h : s.seq.issue = none) : Active (startCommand op s) := ⟨rfl, rfl, h⟩

theorem Active.of_frame (h : Active s) (hf : MicroFrame s t) : Active t :=
  ⟨by rw [hf.regs, h.status], by rw [hf.regs, h.cause], by rw [hf.issue, h.issue]⟩

/-- What a turn of the block makes of a running command: it runs on, or it has ended `DONE` or `REJECTED`
(10_state R37). -/
def RunsOnOrEnds (t : State) : Prop :=
  Running t ∨ (Quiet t ∧ (t.regs.status = .done ∨ t.regs.status = .rejected))

theorem Active.raiseReject (h : Active s) {c : Cause} (hc : c ≠ .none) : RunsOnOrEnds (raiseReject c s) :=
  .inr ⟨⟨by simp, by simpa using hc, rfl, rfl, h.issue⟩, .inr rfl⟩

theorem Active.finish (h : Active s) : RunsOnOrEnds (finish s) :=
  .inr ⟨⟨by simp, by simp [h.cause], rfl, rfl, h.issue⟩, .inl rfl⟩

theorem Active.issueOp (h : Active s) (hst : stage s.regs.cmd s.seq.phase i = true) : RunsOnOrEnds (issueOp i s) :=
  .inl ⟨h.status, h.cause, i, rfl, hst⟩

/-! ### The commands -/

theorem Active.quantBody_ends (h : Active s) (hrun : quantBody p s = .next t) :
    ∃ u, t = Machine.finish u ∧ Active u := by
  obtain ⟨u, hu, rfl⟩ := quantBody_microSteps hrun
  have hstart : Active (enterQuant s) := ⟨h.status, h.cause, h.issue⟩
  exact ⟨u, rfl, hstart.of_frame (MicroSteps.frame hu)⟩

theorem Active.gemmBody_ends (h : Active s) (hrun : gemmBody p s = .next t) :
    ∃ u, t = Machine.finish u ∧ Active u := by
  obtain ⟨u, v, hu, hv, rfl⟩ := gemmBody_microSteps hrun
  have hstart : Active (enterPreload s) := ⟨h.status, h.cause, h.issue⟩
  have hloaded := hstart.of_frame (MicroSteps.frame hu)
  have htiles : Active (enterTiles u) := ⟨hloaded.status, hloaded.cause, hloaded.issue⟩
  have hdone := htiles.of_frame (MicroSteps.frame hv)
  exact ⟨_, rfl, hdone.status, hdone.cause, hdone.issue⟩

/-- A command taken whole ends, rejected by CHECK or after its own rule. -/
theorem afterCheck_ends {op : Byte} {k : State → Run} (hs : s.seq.issue = none)
    (hk : ∀ u v, Active u → k u = .next v → ∃ w, v = finish w ∧ Active w)
    (h : afterCheck p op k (startCommand op s) = .next t) : RunsOnOrEnds t ∧ t.regs.status ≠ .busy := by
  have hstart := active_startCommand op hs
  rcases afterCheck_cases h with ⟨c, hc, rfl⟩ | h
  · exact ⟨hstart.raiseReject hc, by simp⟩
  · have hlat : Active (latched op (startCommand op s)) := ⟨hstart.status, hstart.cause, hstart.issue⟩
    obtain ⟨w, rfl, hw⟩ := hk _ _ hlat h
    exact ⟨hw.finish, by simp⟩

theorem quantOp_ends (hs : s.seq.issue = none) (h : quantOp p s = .next t) :
    RunsOnOrEnds t ∧ t.regs.status ≠ .busy := afterCheck_ends hs (fun _ _ hu => hu.quantBody_ends) h

theorem gemmOp_ends (hs : s.seq.issue = none) (h : gemmOp p s = .next t) :
    RunsOnOrEnds t ∧ t.regs.status ≠ .busy := afterCheck_ends hs (fun _ _ hu => hu.gemmBody_ends) h

theorem deqOp_ends (hs : s.seq.issue = none) (h : deqOp p s = .next t) :
    RunsOnOrEnds t ∧ t.regs.status ≠ .busy := by
  refine afterCheck_ends hs (fun u v hu hv => ?_) h
  cases hv
  exact ⟨_, rfl, hu.status, hu.cause, hu.issue⟩

/-! ### The sequencer keeps to the command's phase -/

/-- The phase and the command that a micro-operation other than CHECK belongs to (10_state R43). -/
def homeOf : Instr → Phase × Byte
  | .qscale | .qpair => (.quant, 0x01)
  | .nibsel => (.deq, 0x02)
  | .loada | .loadw => (.preload, 0x03)
  | .tcopy | .aclr | .mac | .tstore | .tile => (.tiles, 0x03)
  | .quant | .deq | .gemm | .check => (.check, 0x00)

theorem stage_iff_home {cmd : Byte} {ph : Phase} (hi : i.issuable = false) (hc : i ≠ .check) :
    stage cmd ph i = true ↔ (ph, cmd) = homeOf i := by
  cases i with
  | quant | deq | gemm => cases hi
  | check => exact absurd rfl hc
  | _ => cases ph <;> simp [stage, homeOf]

/-- A micro-operation of the same phase and command may follow. -/
theorem Active.issueOp_home (h : Active s) (hj : j.issuable = false) (hc : j ≠ .check)
    (hhome : (s.seq.phase, s.regs.cmd) = homeOf j) : RunsOnOrEnds (Machine.issueOp j s) :=
  h.issueOp ((stage_iff_home hj hc).2 hhome)

theorem Active.issueTile (h : Active s) (hhome : (s.seq.phase, s.regs.cmd) = (.tiles, 0x03)) :
    RunsOnOrEnds (issueTile s) := by
  rcases issueTile_cases s with e | e <;> rw [e] <;> exact h.issueOp_home rfl (by decide) hhome

theorem Active.afterPass (h : Active s) (hlegal : s.regs.cmd = 0x01 ∨ s.regs.cmd = 0x02 ∨ s.regs.cmd = 0x03) :
    RunsOnOrEnds (afterPass s) := by
  unfold Machine.afterPass
  split
  · next h1 => exact .inl ⟨h.status, h.cause, _, rfl, by simp [stage, h1]⟩
  · next h1 =>
    split
    · next h2 => exact .inl ⟨h.status, h.cause, _, rfl, by simp [stage, h2]⟩
    · next h2 =>
      have h3 := (hlegal.resolve_left h1).resolve_left h2
      exact .inl ⟨h.status, h.cause, _, rfl, by simp [stage, h3]⟩

theorem Active.afterPair (h : Active s) (hhome : (s.seq.phase, s.regs.cmd) = (.quant, 0x01)) :
    RunsOnOrEnds (afterPair s) := by
  have hbump : Active (bumpPair s) := h.of_frame (MicroStep.bumpPair (p := Config.params) s).frame
  unfold Machine.afterPair
  simp only []
  split
  · exact hbump.finish
  · split <;> exact hbump.issueOp_home rfl (by decide) hhome

theorem Active.afterPreload (h : Active s) (hhome : (s.seq.phase, s.regs.cmd) = (.preload, 0x03)) :
    RunsOnOrEnds (afterPreload s) := by
  have htiles : Active (enterTiles s) := ⟨h.status, h.cause, h.issue⟩
  unfold Machine.afterPreload
  split
  · exact h.issueOp_home rfl (by decide) hhome
  · split
    · exact h.issueOp_home rfl (by decide) hhome
    · exact htiles.issueTile (Prod.ext rfl (Prod.ext_iff.1 hhome).2)

theorem Active.afterMac (h : Active s) (hhome : (s.seq.phase, s.regs.cmd) = (.tiles, 0x03)) :
    RunsOnOrEnds (afterMac s) := by
  unfold Machine.afterMac
  split <;> exact h.issueOp_home rfl (by decide) hhome

theorem Active.afterTile (h : Active s) (hhome : (s.seq.phase, s.regs.cmd) = (.tiles, 0x03)) :
    RunsOnOrEnds (afterTile p s) := by
  have hbump : Active (bumpTile p s) := h.of_frame (MicroStep.bumpTile s).frame
  have hclear : Active (discardScratch (bumpTile p s)) := ⟨hbump.status, hbump.cause, hbump.issue⟩
  unfold Machine.afterTile
  simp only []
  split
  · exact hclear.finish
  · exact hbump.issueTile hhome

/-- What follows a micro-operation other than CHECK is of the command's own phase, or ends it. -/
theorem sequel_runsOnOrEnds (h : Active s) (hi : i.issuable = false) (hc : i ≠ .check)
    (hhome : (s.seq.phase, s.regs.cmd) = homeOf i) (hrun : sequel p i s = .next t) : RunsOnOrEnds t := by
  cases i with
  | quant | deq | gemm => cases hi
  | check => exact absurd rfl hc
  | qscale =>
    obtain ⟨u, hu, ht⟩ := andThen_eq_next.1 hrun
    obtain ⟨-, rfl⟩ := storeScale_eq_next.1 hu
    cases ht
    exact Active.issueOp_home ⟨h.status, h.cause, h.issue⟩ rfl (by decide) hhome
  | nibsel =>
    have hstore : Active (deqStore p s) := ⟨h.status, h.cause, h.issue⟩
    exact Host.Outcome.next.inj hrun ▸ hstore.finish
  | qpair => exact Host.Outcome.next.inj hrun ▸ h.afterPair hhome
  | loada | loadw => exact Host.Outcome.next.inj hrun ▸ h.afterPreload hhome
  | tcopy | aclr => exact Host.Outcome.next.inj hrun ▸ h.issueOp_home rfl (by decide) hhome
  | mac => exact Host.Outcome.next.inj hrun ▸ h.afterMac hhome
  | tstore | tile => exact Host.Outcome.next.inj hrun ▸ h.afterTile hhome

/-! ### The block's turn -/

theorem advance_of_busy (h : s.regs.status = .busy) : advance i s = sequel Config.params i s := if_pos h

theorem advance_of_not_busy (h : s.regs.status ≠ .busy) : advance i s = .next s := if_neg h

/-- A command taken whole is followed by nothing. -/
theorem turn_of_ended (hexec : RunsOnOrEnds u ∧ u.regs.status ≠ .busy) (hadv : advance i u = .next t) :
    RunsOnOrEnds t := by
  rw [advance_of_not_busy hexec.2] at hadv
  exact Host.Outcome.next.inj hadv ▸ hexec.1

theorem turn_of_check (h : Active s) (hexec : exec .check s = .next u) (hadv : advance .check u = .next t) :
    RunsOnOrEnds t := by
  cases hexec
  rcases checkOp_cases Config.params s.regs.cmd s with ⟨c, hc, hop⟩ | ⟨hpass, hop⟩ <;> rw [hop] at hadv
  · exact turn_of_ended ⟨h.raiseReject hc, by simp⟩ hadv
  · have hlat : Active (latched s.regs.cmd s) := ⟨h.status, h.cause, h.issue⟩
    rw [advance_of_busy hlat.status] at hadv
    exact Host.Outcome.next.inj hadv ▸ hlat.afterPass (legal_of_checkCause hpass)

theorem turn_of_micro (h : Active s) (hi : i.issuable = false) (hc : i ≠ .check)
    (hst : stage s.regs.cmd s.seq.phase i = true) (hexec : exec i s = .next u) (hadv : advance i u = .next t) :
    RunsOnOrEnds t := by
  have hf := MicroSteps.frame (exec_microSteps hi hc hexec)
  have hu := h.of_frame hf
  rw [advance_of_busy hu.status] at hadv
  exact sequel_runsOnOrEnds hu hi hc (by rw [hf.phase, hf.regs]; exact (stage_iff_home hi hc).1 hst) hadv

/-- A turn of the block takes a running command on or ends it. -/
theorem Running.blockStep_runsOnOrEnds (h : Running s) (hstep : blockStep s = .next t) : RunsOnOrEnds t := by
  obtain ⟨i, hissue, hst⟩ := h.issued
  rw [blockStep_of_issue hissue] at hstep
  obtain ⟨u, hexec, hadv⟩ := andThen_eq_next.1 hstep
  cases i with
  | quant => exact turn_of_ended (quantOp_ends rfl hexec) hadv
  | deq => exact turn_of_ended (deqOp_ends rfl hexec) hadv
  | gemm => exact turn_of_ended (gemmOp_ends rfl hexec) hadv
  | check => exact turn_of_check h.takeIssue hexec hadv
  | _ => exact turn_of_micro h.takeIssue rfl (by decide) hst hexec hadv

/-- In a quiet state the block waits (60_exceptions R248). -/
theorem Quiet.blockStep_eq (h : Quiet s) (hstep : blockStep s = .next t) : t = s := by
  rcases blockStep_cases hstep with ⟨-, -, ht⟩ | ⟨i, u, hissue, -⟩
  · exact ht
  · rw [h.issue] at hissue
    cases hissue

/-- The first operation of a command is of its first phase, whatever the grain (10_state R43). -/
theorem stage_firstOp (grain : Grain) (op : Byte) :
    ∃ i, firstOp grain op = encodeOp i ∧ stage op .check i = true := by
  by_cases hg : grain = .command ∧ commandByteWf op = true
  · obtain ⟨rfl, hwf⟩ := hg
    have hop : op = 0x01 ∨ op = 0x02 ∨ op = 0x03 := by simpa [commandByteWf, or_assoc] using hwf
    rcases hop with rfl | rfl | rfl
    exacts [⟨.quant, rfl, rfl⟩, ⟨.deq, rfl, rfl⟩, ⟨.gemm, rfl, rfl⟩]
  · refine ⟨.check, ?_, rfl⟩
    cases grain <;> simp_all [firstOp]

theorem running_writeCmd (v : Nat) (s : State) : Running (writeCmd v s) := by
  obtain ⟨i, hi, hst⟩ := stage_firstOp s.env.grain (BitVec.ofNat 8 v)
  exact ⟨rfl, rfl, i, congrArg some hi, hst⟩

/-- A register write leaves `CMD`, `STATUS` and `CAUSE` alone. -/
theorem writeReg_command (r : Regs) (x : CtrlReg) (v : Nat) :
    (writeReg r x v).cmd = r.cmd ∧ (writeReg r x v).status = r.status ∧ (writeReg r x v).cause = r.cause := by
  cases x <;> exact ⟨rfl, rfl, rfl⟩

/-! ### The obligations -/

/-- Settles O57: the block's turn takes a running command on or ends it, a `CMD` write starts one, the reset event
ends in a quiet state, and no other action of the host touches what the protocol speaks of. -/
theorem stepKeepsProtocol : Obligations.StepKeepsProtocol := by
  intro s t h hstep
  cases step_cases hstep with
  | @block u _ hu hblock =>
    have hpu : Protocol u := by
      rcases hu with rfl | rfl
      exacts [h, protocol_congr h rfl rfl rfl rfl]
    rcases protocol_iff.1 hpu with hq | hr
    · exact hq.blockStep_eq hblock ▸ hpu
    · exact protocol_iff.2 ((hr.blockStep_runsOnOrEnds hblock).symm.imp And.left id)
  | command => exact protocol_iff.2 (.inr (running_writeCmd _ _))
  | @register x v =>
    obtain ⟨hcmd, hstatus, hcause⟩ := writeReg_command s.regs x v
    exact protocol_congr h hcmd hstatus hcause rfl
  | reset => exact protocol_iff.2 (.inl ⟨by simp [quiet_reset.status], quiet_reset.cause, rfl, rfl, rfl⟩)
  | read | store | wait => exact protocol_congr h rfl rfl rfl rfl

/-- Settles O58: only a `CMD` write and the block's turn on a running command change `STATUS`. -/
theorem statusTransitions : Obligations.StatusTransitions := by
  intro s t h hstep hreset
  cases step_cases hstep with
  | @block u _ hu hblock =>
    have hregs : u.regs = s.regs := by rcases hu with rfl | rfl <;> rfl
    have hseq : u.seq = s.seq := by rcases hu with rfl | rfl <;> rfl
    have hpu : Protocol u := protocol_congr h (by rw [hregs]) (by rw [hregs]) (by rw [hregs]) hseq
    rcases protocol_iff.1 hpu with hq | hr
    · exact .inl (by rw [hq.blockStep_eq hblock, hregs])
    · have hbusy : s.regs.status = .busy := hregs ▸ hr.status
      rcases hr.blockStep_runsOnOrEnds hblock with hrun | ⟨-, hend⟩
      · exact .inl (hrun.status.trans hbusy.symm)
      · exact .inr (.inr ⟨hbusy, hend⟩)
  | command hs hd => exact .inr (.inl ⟨hs, rfl, _, hd⟩)
  | @register x v => exact .inl (writeReg_command s.regs x v).2.1
  | reset hd => exact absurd hd hreset
  | read | store | wait => exact .inl rfl

/-- Settles O54: the reset state is quiet, its arrays are empty. -/
theorem resetMeetsInvariants : Obligations.ResetMeetsInvariants :=
  ⟨canonical_reset, withinCapacity_reset _, protocol_iff.2 (.inl quiet_reset)⟩

end Sys2Proof.Machine
end

section
/-!
PROOFS. Single steps: the host's register accesses (10_state R35, R36), the block's turn, the order of the sequencer's
steps in a GEMM (R43), and the faults of reads without a value (R45).
-/
namespace Sys2Proof.Machine

variable {p : Params} {s t : State} {i : Instr}

/-! ### The host's register accesses -/

/-- Taking an action off the script changes the script alone. -/
theorem dropEvent_eq {e : HostEvent} {rest : List HostEvent} (hd : s.env.script = e :: rest) :
    dropEvent s = { s with env := { s.env with script := rest } } := by
  rw [dropEvent, hd, List.tail_cons]

theorem hostWrite_cmd (hs : s.regs.status ≠ .busy) (v : Nat) : hostWrite .cmd v s = .next (writeCmd v s) := by
  rw [hostWrite, busy_eq_false_iff.2 hs, refuseIf_false, if_pos rfl]

theorem hostWrite_of_ne_cmd (hs : s.regs.status ≠ .busy) {x : CtrlReg} (hx : x ≠ .cmd) (v : Nat) :
    hostWrite x v s = .next { s with regs := writeReg s.regs x v } := by
  rw [hostWrite, busy_eq_false_iff.2 hs, refuseIf_false, if_neg hx]

theorem hostRead_eq {x : CtrlReg} (h : ¬(s.regs.status = .busy ∧ s.regs.cmd = 0x02 ∧ x = .dqOut)) :
    hostRead x s = .next (note (readReg s x) s) := by
  have hallowed : (busy s && decide (s.regs.cmd = 0x02) && decide (x = .dqOut)) = false := by
    simpa [busy, and_assoc] using h
  rw [hostRead, hallowed, refuseIf_false]

theorem firstOp_check {grain : Grain} {op : Byte} (h : grain ≠ .command ∨ commandByteWf op = false) :
    firstOp grain op = 0x30 := by
  cases grain with
  | command =>
    have hwf := h.resolve_left (not_not_intro rfl)
    simp [firstOp, hwf, encodeOp]
  | tile | micro => rfl

theorem firstOp_command {op : Byte} (h : commandByteWf op = true) : firstOp .command op = op := by
  simp [firstOp, h]

theorem readReg_dropEvent (s : State) (x : CtrlReg) : readReg (dropEvent s) x = readReg s x := by
  cases x <;> rfl

theorem readReg_writeReg_same (s : State) {x : CtrlReg} (hx : x.writable = true) (v : Nat) :
    (readReg { s with regs := writeReg s.regs x v } x).toNat = v % 2 ^ x.width := by
  cases x with
  | cmd | status | cause | dqOut => cases hx
  | dqByte | dqSel | dqScale =>
    simp only [readReg, writeReg, CtrlReg.width, BitVec.toNat_setWidth, BitVec.toNat_ofNat]
    omega
  | _ => exact BitVec.toNat_ofNat v 32

theorem writeReg_of_not_writable (r : Regs) {x : CtrlReg} (hx : x.writable = false) (v : Nat) :
    writeReg r x v = r := by
  cases x with
  | cmd | status | cause | dqOut => rfl
  | _ => cases hx

theorem readReg_writeReg_ne (s : State) {x y : CtrlReg} (h : y ≠ x) (v : Nat) :
    readReg { s with regs := writeReg s.regs x v } y = readReg s y := by
  cases x with
  | cmd | status | cause | dqOut => rfl
  | _ => cases y <;> trivial

/-- Settles O6: the step is `writeCmd`, and the grain and the op code choose the operation issued. -/
theorem commandWriteStartsCommand : Obligations.CommandWriteStartsCommand := by
  intro s v rest hs hd
  have hstep : step s = .next (writeCmd v (dropEvent s)) :=
    (step_of_cons hd).trans (hostWrite_cmd (s := dropEvent s) hs v)
  rw [dropEvent_eq hd] at hstep
  refine ⟨_, hstep, rfl, rfl, rfl, rfl, fun h => congrArg some (firstOp_check h), fun hg hwf => ?_, rfl⟩
  exact congrArg some ((congrArg (firstOp · _) hg).trans (firstOp_command hwf))

/-- Settles O8: the step is `writeReg`, which keeps the low bits and touches no other register. -/
theorem registerWriteKeepsLowBits : Obligations.RegisterWriteKeepsLowBits := by
  intro s x v rest hs hx hd
  have hstep : step s = .next { dropEvent s with regs := writeReg s.regs x v } :=
    (step_of_cons hd).trans (hostWrite_of_ne_cmd (s := dropEvent s) hs hx v)
  refine ⟨_, hstep, fun hw => readReg_writeReg_same (dropEvent s) hw v, fun hw => writeReg_of_not_writable _ hw v,
    fun y hy => ?_, (writeReg_command s.regs x v).1, rfl, rfl, rfl, by rw [dropEvent_eq hd]⟩
  exact (readReg_writeReg_ne (dropEvent s) hy v).trans (readReg_dropEvent s y)

theorem step_rd {x : CtrlReg} {rest : List HostEvent} (hd : s.env.script = .rd x :: rest)
    (h : ¬(s.regs.status = .busy ∧ s.regs.cmd = 0x02 ∧ x = .dqOut)) :
    step s = .next { s with env := { s.env with script := rest, seen := readReg s x :: s.env.seen } } := by
  rw [step_of_cons hd, eventStep, hostRead_eq (s := dropEvent s) h, readReg_dropEvent, dropEvent_eq hd]
  rfl

/-- Settles O9: the step notes the register's value and takes the action off the script, no more. -/
theorem registerReadHasNoSideEffect : Obligations.RegisterReadHasNoSideEffect := by
  intro s x rest hd h
  refine ⟨_, readReg s x, step_rd hd h, rfl, rfl, rfl, rfl, rfl, ?_⟩
  cases x with
  | dqOut =>
    have hread : s.regs.dqOutSet = true → (readReg s .dqOut).toInt = s.regs.dqOut.toInt := fun hset => by
      simp only [readReg, dqOutView, hset, if_true]
      exact BitVec.toInt_signExtend_of_le (by decide)
    simpa using hread
  | dqByte | dqSel | dqScale =>
    simp [readReg]
    omega
  | _ => simp [readReg]

/-- Settles O10: `DQ_OUT` reads as the free constant, of which nothing is assumed. -/
theorem unwrittenDqOutReadsFree : Obligations.UnwrittenDqOutReadsFree := by
  intro s rest hd hset hs
  rw [step_rd hd fun h => hs h.1]
  simp [readReg, dqOutView, hset]

/-! ### Reset -/

/-- Settles O13: each value is the one written in the reset state. -/
theorem resetStateValues : Obligations.ResetStateValues := by
  have hlen : ∀ b, State.reset.regs.len b = 0 := by
    intro b
    cases b <;> rfl
  exact ⟨rfl, rfl, rfl, rfl, rfl, rfl, rfl, hlen, rfl, rfl, rfl, rfl, rfl, rfl, rfl, rfl, rfl, rfl, rfl, rfl, rfl⟩

/-! ### The block's turn -/

/-- Settles O3: in each of the three situations the step is the block's turn. -/
theorem stepRunsIssuedOperation : Obligations.StepRunsIssuedOperation := by
  intro s op i hop hdec
  have hissue : s.seq.issue = some (encodeOp i) := by rw [encodeOp_of_decode hdec, hop]
  refine ⟨fun hd => ?_, fun rest hd => ?_, fun rest hd hs => ?_⟩
  · rw [step_of_nil hd, blockStep_of_issue hissue]
  · rw [step_of_cons hd, eventStep, blockStep_of_issue (s := dropEvent s) hissue]
  · rw [step_of_cons hd, eventStep, if_pos (busy_iff.2 hs), blockStep_of_issue hissue]

/-- A step of a running command with a micro-operation issued: the operation, then what follows it. -/
theorem step_of_running (hd : s.env.script = []) (hs : s.regs.status = .busy)
    (hissue : s.seq.issue = some (encodeOp i)) (hi : i.issuable = false) (hc : i ≠ .check) (h : step s = .next t) :
    ∃ u, exec i (takeIssue s) = .next u ∧ sequel Config.params i u = .next t := by
  rw [step_of_nil hd, blockStep_of_issue hissue] at h
  obtain ⟨u, hexec, hadv⟩ := andThen_eq_next.1 h
  have hregs : u.regs = s.regs := (MicroSteps.frame (exec_microSteps hi hc hexec)).regs
  exact ⟨u, hexec, advance_of_busy (hregs ▸ hs) ▸ hadv⟩

/-- After a MAC comes TSTORE when `SEQ_K = K`, else the next MAC (10_state R43). -/
theorem afterMac_eq (s : State) :
    afterMac s = issueOp (if s.seq.k = s.seq.lat.k then .tstore else .mac) s := by
  unfold afterMac
  split <;> rfl

/-- Settles O49: MAC sets `SEQ_K` to its successor, and the sequencer compares that with `K`. -/
theorem macStepsAscend : Obligations.MacStepsAscend := by
  intro s t hd hs hissue hstep
  obtain ⟨u, hexec, hadv⟩ := step_of_running (i := .mac) hd hs hissue rfl (by decide) hstep
  obtain ⟨-, -, -, -, -, -, rfl⟩ := macOp_eq_next.1 hexec
  cases hadv
  have hk : BitVec.ofNat 32 (s.seq.k.toNat + 1) = s.seq.k + 1 := by
    apply BitVec.eq_of_toNat_eq
    simp
  rw [afterMac_eq]
  simp only [issueOp_seq_k, issueOp_seq_issue, issueOp_seq_mt, issueOp_seq_nt, issueOp_regs, issueOp_bufs,
    macDone_seq, macDone_regs, macDone_bufs, takeIssue_seq_k, takeIssue_seq_lat, takeIssue_seq_mt, takeIssue_seq_nt,
    takeIssue_regs, takeIssue_bufs, hk, true_and, and_true]
  split <;> rfl

/-! ### The order of the tile pairs -/

/-- Adding one to a number below a 32-bit bound does not wrap. -/
theorem toNat_add_one_of_lt {x : Word} {n : Nat} (h : x.toNat < n) (hn : n < 2 ^ 32) :
    (x + 1).toNat = x.toNat + 1 := by
  rw [BitVec.toNat_add, show (1 : Word).toNat = 1 from rfl]
  omega

theorem mTiles_lt (p : Params) (d : Dims) : d.mTiles p < 2 ^ 32 :=
  Nat.lt_of_le_of_lt (Nat.div_le_self _ _) d.m.isLt

theorem nTiles_lt (p : Params) (d : Dims) : d.nTiles p < 2 ^ 32 :=
  Nat.lt_of_le_of_lt (Nat.div_le_self _ _) d.n.isLt

/-- Within a row the next tile pair is the next column's (43_tiled_engine R191). -/
theorem bumpTile_within_row (h : s.seq.nt.toNat + 1 < s.seq.lat.nTiles p) :
    (bumpTile p s).seq.mt = s.seq.mt ∧ (bumpTile p s).seq.nt.toNat = s.seq.nt.toNat + 1 := by
  have hnt : (s.seq.nt + 1).toNat = s.seq.nt.toNat + 1 :=
    toNat_add_one_of_lt (Nat.lt_of_succ_lt h) (nTiles_lt p s.seq.lat)
  have hend : (s.seq.nt + 1).toNat ≠ s.seq.lat.nTiles p := by omega
  simp only [bumpTile, decide_eq_true_eq, if_neg hend]
  exact ⟨trivial, hnt⟩

/-- At the end of a row the next tile pair is the first of the next row (43_tiled_engine R191). -/
theorem bumpTile_row_end (h : s.seq.nt.toNat + 1 = s.seq.lat.nTiles p) (hm : s.seq.mt.toNat < s.seq.lat.mTiles p) :
    (bumpTile p s).seq.mt.toNat = s.seq.mt.toNat + 1 ∧ (bumpTile p s).seq.nt = 0 := by
  have hend : (s.seq.nt + 1).toNat = s.seq.lat.nTiles p := by
    rw [toNat_add_one_of_lt (n := s.seq.lat.nTiles p) (by omega) (nTiles_lt p s.seq.lat), h]
  simp only [bumpTile, decide_eq_true_eq, if_pos hend]
  exact ⟨toNat_add_one_of_lt hm (mTiles_lt p s.seq.lat), trivial⟩

/-- With a tile pair left, the micro grain goes on with its TCOPY. -/
theorem afterTile_next (hg : s.env.grain = .micro) (h : (bumpTile p s).seq.mt.toNat < s.seq.lat.mTiles p) :
    afterTile p s = issueOp .tcopy (bumpTile p s) := by
  have hmore : tilesDone p (bumpTile p s) = false := decide_eq_false (Nat.not_le.2 h)
  simp only [afterTile, hmore, issueTile, bumpTile_env, hg]
  rfl

/-- With no tile pair left, the command ends. -/
theorem afterTile_last (h : s.seq.lat.mTiles p ≤ (bumpTile p s).seq.mt.toNat) :
    afterTile p s = finish (discardScratch (bumpTile p s)) := by
  have hdone : tilesDone p (bumpTile p s) = true := decide_eq_true h
  simp only [afterTile, hdone, if_true]

/-- Settles O50: within a row, at its end, and at the end of the last row. -/
theorem tilePairsRowMajor : Obligations.TilePairsRowMajor := by
  intro s t hd hg hs hissue hstep
  obtain ⟨u, hexec, hadv⟩ := step_of_running (i := .tstore) hd hs hissue rfl (by decide) hstep
  obtain ⟨⟨hm, hn⟩, -, -, rfl⟩ := tstoreOp_eq_next.1 hexec
  cases hadv
  simp only []
  set u := tstoreDone Config.params (takeIssue s).seq.mt.toNat (takeIssue s).seq.nt.toNat (takeIssue s)
  split_ifs with hcol hrow
  · obtain ⟨hmt, hnt⟩ := bumpTile_within_row (p := Config.params) (s := u) hcol
    rw [afterTile_next (s := u) hg (hmt ▸ hm)]
    exact ⟨congrArg BitVec.toNat hmt, hnt, rfl, rfl, hs⟩
  all_goals
    have hend : u.seq.nt.toNat + 1 = u.seq.lat.nTiles Config.params := Nat.le_antisymm hn (Nat.not_lt.1 hcol)
    obtain ⟨hmt, hnt⟩ := bumpTile_row_end hend hm
  · rw [afterTile_next (s := u) hg (hmt ▸ hrow)]
    exact ⟨hmt, hnt, rfl, rfl, hs⟩
  · rw [afterTile_last (s := u) (hmt ▸ Nat.not_lt.1 hrow)]
    exact ⟨hmt.trans (Nat.le_antisymm hm (Nat.not_lt.1 hrow)), hnt, rfl, rfl, rfl, rfl⟩

/-! ### Reads without a value -/

theorem demand_of_true {c : Bool} {e : Fault} {r : Run} (h : c = true) : demand c e r = r := by
  rw [h, demand_true]

theorem demand_of_not {c : Bool} {e : Fault} {r : Run} (h : ¬c = true) : demand c e r = .fault e := by
  rw [Bool.eq_false_of_not_eq_true h, demand_false]

section mac
variable {k : Nat} (hk : k < s.seq.lat.k.toNat) (hcap : k < p.capK)
include hk hcap

/-- MAC reads column `k` of `AWORK` first (43_tiled_engine R187). -/
theorem macOp_awork_unwritten (ha : ¬∀ i < p.peRows, cellHas s.scr.awork (rowCell p i k) = true) :
    macOp p k s = .fault (.unwrittenCell .awork) := by
  rw [macOp, demand_of_true (decide_eq_true hk), demand_of_true (decide_eq_true hcap), demand_of_not]
  simpa using ha

theorem macOp_wwork_unwritten (ha : ∀ i < p.peRows, cellHas s.scr.awork (rowCell p i k) = true)
    (hw : ¬∀ j < p.peCols, cellHas s.scr.wwork (rowCell p j k) = true) :
    macOp p k s = .fault (.unwrittenCell .wwork) := by
  rw [macOp, demand_of_true (decide_eq_true hk), demand_of_true (decide_eq_true hcap),
    demand_of_true (by simpa using ha), demand_of_not]
  simpa using hw

theorem macOp_acc_unwritten (ha : ∀ i < p.peRows, cellHas s.scr.awork (rowCell p i k) = true)
    (hw : ∀ j < p.peCols, cellHas s.scr.wwork (rowCell p j k) = true)
    (hacc : ¬∀ i < p.peRows, ∀ j < p.peCols, cellHas s.scr.acc (accCell p i j) = true) :
    macOp p k s = .fault (.unwrittenCell .acc) := by
  rw [macOp, demand_of_true (decide_eq_true hk), demand_of_true (decide_eq_true hcap),
    demand_of_true (by simpa using ha), demand_of_true (by simpa using hw), demand_of_not (hacc ∘ allGrid_iff.1)]

end mac

section tile
variable {mt nt : Nat} (hm : mt < s.seq.lat.mTiles p) (hn : nt < s.seq.lat.nTiles p)
include hm hn

theorem tile_in_range : (decide (mt < s.seq.lat.mTiles p) && decide (nt < s.seq.lat.nTiles p)) = true := by
  simp [hm, hn]

/-- TCOPY reads the rows of `ACACHE` first (43_tiled_engine R185). -/
theorem tcopyOp_acache_unwritten (hk : s.seq.lat.k.toNat ≤ p.capK)
    (ha : ¬∀ i < p.peRows, ∀ c < s.seq.lat.k.toNat,
      cellHas s.scr.acache (rowCell p (mt * p.peRows + i) c) = true) :
    tcopyOp p mt nt s = .fault (.unwrittenCell .acache) := by
  rw [tcopyOp, demand_of_true (tile_in_range hm hn), demand_of_true (decide_eq_true hk),
    demand_of_not (ha ∘ allGrid_iff.1)]

theorem tcopyOp_wcache_unwritten (hk : s.seq.lat.k.toNat ≤ p.capK)
    (ha : ∀ i < p.peRows, ∀ c < s.seq.lat.k.toNat,
      cellHas s.scr.acache (rowCell p (mt * p.peRows + i) c) = true)
    (hw : ¬∀ j < p.peCols, ∀ c < s.seq.lat.k.toNat,
      cellHas s.scr.wcache (rowCell p (nt * p.peCols + j) c) = true) :
    tcopyOp p mt nt s = .fault (.unwrittenCell .wcache) := by
  rw [tcopyOp, demand_of_true (tile_in_range hm hn), demand_of_true (decide_eq_true hk),
    demand_of_true (allGrid_iff.2 ha), demand_of_not (hw ∘ allGrid_iff.1)]

theorem tstoreOp_acc_unwritten
    (ho : ∀ i < p.peRows, ∀ j < p.peCols, outIndex p s.seq.lat.n.toNat mt nt i j < s.regs.len .out)
    (hacc : ¬∀ i < p.peRows, ∀ j < p.peCols, cellHas s.scr.acc (accCell p i j) = true) :
    tstoreOp p mt nt s = .fault (.unwrittenCell .acc) := by
  rw [tstoreOp, demand_of_true (tile_in_range hm hn),
    demand_of_true (allGrid_iff.2 fun i hi j hj => decide_eq_true (ho i hi j hj)),
    demand_of_not (hacc ∘ allGrid_iff.1)]

end tile

/-- TILE begins with TCOPY and stops where it does (43_tiled_engine R189). -/
theorem tileOp_of_tcopy_fault {mt nt : Nat} {e : Fault} (h : tcopyOp p mt nt s = .fault e) :
    tileOp p mt nt s = .fault e := by
  rw [tileOp, h, andThen_fault]

theorem qpairOp_qs_unwritten {g i : Nat} (hg : g < s.seq.lat.groups) (hi : i < s.seq.lat.pairs)
    (hq : s.scr.qsSet = false) : qpairOp p g i s = .fault .unwrittenQS := by
  rw [qpairOp, demand_of_true (by simp [hg, hi]), hq, demand_false]

/-- Settles O40: each operation reads its arrays in the order of its rule and stops at the first without a value. -/
theorem unwrittenScratchFaults : Obligations.UnwrittenScratchFaults := by
  intro s
  refine ⟨fun hk hcap => ⟨?_, ?_, ?_⟩, fun hm hn hk => ⟨fun ha => ?_, fun ha hw => ?_⟩, ?_, ?_⟩
  · exact macOp_awork_unwritten hk hcap
  · exact macOp_wwork_unwritten hk hcap
  · exact macOp_acc_unwritten hk hcap
  · have hcopy := tcopyOp_acache_unwritten hm hn hk ha
    exact ⟨hcopy, tileOp_of_tcopy_fault hcopy⟩
  · have hcopy := tcopyOp_wcache_unwritten hm hn hk ha hw
    exact ⟨hcopy, tileOp_of_tcopy_fault hcopy⟩
  · exact tstoreOp_acc_unwritten
  · exact qpairOp_qs_unwritten

end Sys2Proof.Machine
end

section
/-!
PROOFS. The canonical form (20_memory R60, 10_state R45): every bulk write keeps the addresses rising, and the host
and the reset event write the buffers by no other means.
-/
namespace Sys2Proof.Machine

variable {p : Params} {s t : State}

/-- A buffer in canonical form put in the place of another. -/
theorem Canonical.putBuf (h : Canonical s) {b : Buf} {x : Memory} (hx : Memory.wf x = true) :
    Canonical { s with bufs := s.bufs.put b x } :=
  { h with bufs := memoryWf_put h.bufs hx }

/-- Empty arrays are in canonical form. -/
theorem Canonical.discardScratch (h : Canonical s) : Canonical (discardScratch s) :=
  { h with acache := rfl, wcache := rfl, awork := rfl, wwork := rfl, acc := rfl }

theorem MicroStep.canonical (hstep : MicroStep p s t) (h : Canonical s) : Canonical t := by
  cases hstep with
  | qscale hop =>
    obtain ⟨-, -, -, rfl⟩ := qscaleOp_eq_next.1 hop
    exact { h with }
  | storeScale hop =>
    obtain ⟨-, rfl⟩ := storeScale_eq_next.1 hop
    exact h.putBuf (b := .sc) (cellsWf_cellSet _ (h.bufs .sc))
  | qpair hop =>
    obtain ⟨-, -, -, -, -, rfl⟩ := qpairOp_eq_next.1 hop
    exact h.putBuf (b := .pw) (cellsWf_cellSet _ (h.bufs .pw))
  | loada hop =>
    obtain ⟨-, -, rfl⟩ := loadaOp_eq_next.1 hop
    exact { h with acache := cellsWf_cellStore _ h.acache }
  | loadw hop =>
    obtain ⟨-, -, -, -, rfl⟩ := loadwOp_eq_next.1 hop
    exact { h with wcache := cellsWf_cellStore _ h.wcache }
  | tcopy hop =>
    obtain ⟨-, -, -, -, rfl⟩ := tcopyOp_eq_next.1 hop
    exact { h with awork := cellsWf_cellStore _ h.awork, wwork := cellsWf_cellStore _ h.wwork }
  | aclr => exact { h with acc := cellsWf_cellStore _ h.acc }
  | mac hop =>
    obtain ⟨-, -, -, -, -, -, rfl⟩ := macOp_eq_next.1 hop
    exact { h with acc := cellsWf_cellStore _ h.acc }
  | tstore hop =>
    obtain ⟨-, -, -, rfl⟩ := tstoreOp_eq_next.1 hop
    exact h.putBuf (b := .out) (cellsWf_cellStore _ (h.bufs .out))
  | bumpPair | nibsel | setTile | bumpTile => exact { h with }

theorem BlockUpdate.canonical (hstep : BlockUpdate p s t) (h : Canonical s) : Canonical t := by
  cases hstep with
  | micro hstep => exact hstep.canonical h
  | startCommand => exact { h with atStart := h.bufs }
  | enterPreload => exact { h.discardScratch with }
  | discardScratch => exact h.discardScratch
  | _ => exact { h with }

theorem blockStep_canonical (h : Canonical s) (hstep : blockStep s = .next t) : Canonical t :=
  chain_keeps (fun _ _ hu => hu.canonical) (blockStep_updates hstep) h

/-- The buffers after a reset in mid-command are in canonical form, whatever the command would have written
(70_reset R260). -/
theorem memoryWf_abandonedBufs {n : Nat} {old new : Bufs} (h : ∀ b, Memory.wf (old.get b) = true) (b : Buf) :
    Memory.wf ((abandonedBufs n old new).get b) = true := by
  cases b with
  | wf => exact h .wf
  | act => exact h .act
  | pw => exact memoryWf_mixMemory (h .pw)
  | sc => exact memoryWf_mixMemory (h .sc)
  | out => exact memoryWf_mixMemory (h .out)

theorem Canonical.resetBufs (h : Canonical s) (b : Buf) : Memory.wf ((resetBufs s).get b) = true := by
  unfold Machine.resetBufs
  split
  · exact memoryWf_abandonedBufs h.atStart b
  · exact h.bufs b

theorem Canonical.dropEvent (h : Canonical s) : Canonical (dropEvent s) := { h with }

/-- Settles O55: the updates of the block's turn and the host's store write cells and keep the addresses rising, and
the reset event mixes elements into buffers that are in canonical form. -/
theorem stepKeepsCanonicalForm : Obligations.StepKeepsCanonicalForm := by
  intro s t h hstep
  cases step_cases hstep with
  | @block u _ hu hblock =>
    have hcu : Canonical u := by
      rcases hu with rfl | rfl
      exacts [h, h.dropEvent]
    exact blockStep_canonical hcu hblock
  | command => exact { h with atStart := h.bufs }
  | store b n v => exact h.dropEvent.putBuf (memoryWf_elemPut (h.bufs b))
  | reset =>
    have hbufs := h.dropEvent.resetBufs
    exact { canonical_reset with bufs := hbufs, atStart := hbufs }
  | register | read | wait => exact { h with }

end Sys2Proof.Machine
end

section
/-!
PROOFS. Inputs are read-only (20_memory R69): each command writes its own output buffers and no others.
-/
namespace Sys2Proof.Machine

variable {p : Params} {s t u : State} {i : Instr} {cmd : Byte}

/-- The output buffers of a command: `PW` and `SC` of QUANT (40_quantization_codec R131), `OUT` of GEMM
(43_tiled_engine R190), none of DEQ. -/
def isOutput (cmd : Byte) : Buf → Bool
  | .wf | .act => false
  | .pw | .sc => cmd = 0x01
  | .out => cmd = 0x03

/-- Every buffer that is no output of the command is unchanged. -/
def KeepsInputs (cmd : Byte) (s t : State) : Prop := ∀ b, isOutput cmd b = false → t.bufs.get b = s.bufs.get b

theorem KeepsInputs.of_bufs_eq (h : t.bufs = s.bufs) : KeepsInputs cmd s t := fun _ _ => by rw [h]

theorem KeepsInputs.trans (h : KeepsInputs cmd s t) (h' : KeepsInputs cmd t u) : KeepsInputs cmd s u :=
  fun b hb => (h' b hb).trans (h b hb)

/-- A state that differs in one output buffer alone. -/
theorem KeepsInputs.of_put {b : Buf} {x : Memory} (hb : isOutput cmd b = true) (h : t.bufs = s.bufs.put b x) :
    KeepsInputs cmd s t := by
  intro c hc
  have hcb : c ≠ b := by
    rintro rfl
    rw [hb] at hc
    cases hc
  rw [h, Bufs.get_put_ne _ _ hcb]

theorem loop_keepsInputs {n : Nat} {body : Nat → State → Run}
    (hbody : ∀ j u v, body j u = .next v → KeepsInputs cmd u v) (h : loop n body s = .next t) :
    KeepsInputs cmd s t :=
  loop_inv (I := fun _ u => KeepsInputs cmd s u) h (.of_bufs_eq rfl) fun j u v _ hu hv => hu.trans (hbody j u v hv)

/-! ### The operations -/

theorem qscaleOp_bufs {g : Nat} (h : qscaleOp g s = .next t) : t.bufs = s.bufs := by
  obtain ⟨-, -, -, rfl⟩ := qscaleOp_eq_next.1 h
  rfl

theorem storeScale_keepsInputs {g : Nat} (h : storeScale g s = .next t) : KeepsInputs 0x01 s t := by
  obtain ⟨-, rfl⟩ := storeScale_eq_next.1 h
  exact .of_put (b := .sc) rfl rfl

theorem qpairOp_keepsInputs {g i : Nat} (h : qpairOp p g i s = .next t) : KeepsInputs 0x01 s t := by
  obtain ⟨-, -, -, -, -, rfl⟩ := qpairOp_eq_next.1 h
  exact .of_put (b := .pw) rfl rfl

theorem loadaOp_bufs (h : loadaOp p s = .next t) : t.bufs = s.bufs := by
  obtain ⟨-, -, rfl⟩ := loadaOp_eq_next.1 h
  rfl

theorem loadwOp_bufs (h : loadwOp p s = .next t) : t.bufs = s.bufs := by
  obtain ⟨-, -, -, -, rfl⟩ := loadwOp_eq_next.1 h
  rfl

theorem tcopyOp_bufs {mt nt : Nat} (h : tcopyOp p mt nt s = .next t) : t.bufs = s.bufs := by
  obtain ⟨-, -, -, -, rfl⟩ := tcopyOp_eq_next.1 h
  rfl

theorem macOp_bufs {k : Nat} (h : macOp p k s = .next t) : t.bufs = s.bufs := by
  obtain ⟨-, -, -, -, -, -, rfl⟩ := macOp_eq_next.1 h
  rfl

theorem tstoreOp_keepsInputs {mt nt : Nat} (h : tstoreOp p mt nt s = .next t) : KeepsInputs 0x03 s t := by
  obtain ⟨-, -, -, rfl⟩ := tstoreOp_eq_next.1 h
  exact .of_put (b := .out) rfl rfl

theorem tileOp_keepsInputs {mt nt : Nat} (h : tileOp p mt nt s = .next t) : KeepsInputs 0x03 s t := by
  obtain ⟨u, v, hcopy, hmacs, hstore⟩ := tileOp_eq_next.1 h
  have hloop : KeepsInputs 0x03 (aclrOp p u) v :=
    loop_keepsInputs (fun _ _ _ hmac => .of_bufs_eq (macOp_bufs hmac)) hmacs
  have hcopied : (aclrOp p u).bufs = s.bufs := (aclrOp_bufs u p).trans (tcopyOp_bufs hcopy)
  exact (KeepsInputs.of_bufs_eq hcopied).trans (hloop.trans (tstoreOp_keepsInputs hstore))

/-! ### The commands -/

theorem quantGroup_keepsInputs {g : Nat} (h : quantGroup p g s = .next t) : KeepsInputs 0x01 s t := by
  obtain ⟨u, v, hscale, hstore, hpairs⟩ := quantGroup_eq_next.1 h
  have hloop : KeepsInputs 0x01 v t := loop_keepsInputs (fun j x y hxy => by
    obtain ⟨w, hpair, hbump⟩ := andThen_eq_next.1 hxy
    cases hbump
    exact (qpairOp_keepsInputs hpair).trans (.of_bufs_eq rfl)) hpairs
  exact (KeepsInputs.of_bufs_eq (qscaleOp_bufs hscale)).trans ((storeScale_keepsInputs hstore).trans hloop)

theorem quantBody_keepsInputs (h : quantBody p s = .next t) : KeepsInputs 0x01 s t := by
  obtain ⟨u, hgroups, rfl⟩ := quantBody_eq_next.1 h
  have hloop := loop_keepsInputs (fun _ _ _ hgroup => quantGroup_keepsInputs hgroup) hgroups
  exact hloop

theorem tilesOp_keepsInputs (h : tilesOp p s = .next t) : KeepsInputs 0x03 s t := by
  refine loop_keepsInputs (fun _ _ _ hrow => loop_keepsInputs (fun _ _ _ hround => ?_) hrow) h
  obtain ⟨w, htile, rfl⟩ := tileRound_eq_next.1 hround
  have hpair := tileOp_keepsInputs htile
  exact hpair

theorem gemmBody_keepsInputs (h : gemmBody p s = .next t) : KeepsInputs 0x03 s t := by
  obtain ⟨u, v, w, hloada, hloadw, htiles, rfl⟩ := gemmBody_eq_next.1 h
  have hloaded : v.bufs = (enterPreload s).bufs := (loadwOp_bufs hloadw).trans (loadaOp_bufs hloada)
  have hpairs := tilesOp_keepsInputs htiles
  exact (KeepsInputs.of_bufs_eq hloaded).trans hpairs

/-- A command taken whole keeps its inputs if its own rule does. -/
theorem afterCheck_keepsInputs {op : Byte} {k : State → Run} (hk : ∀ u v, k u = .next v → KeepsInputs cmd u v)
    (h : afterCheck p op k (startCommand op s) = .next t) : KeepsInputs cmd s t := by
  rcases afterCheck_cases h with ⟨c, -, rfl⟩ | h
  · exact .of_bufs_eq rfl
  · have hrest := hk _ _ h
    exact hrest

theorem quantOp_keepsInputs (h : quantOp p s = .next t) : KeepsInputs 0x01 s t :=
  afterCheck_keepsInputs (fun _ _ => quantBody_keepsInputs) h

theorem gemmOp_keepsInputs (h : gemmOp p s = .next t) : KeepsInputs 0x03 s t :=
  afterCheck_keepsInputs (fun _ _ => gemmBody_keepsInputs) h

theorem deqOp_keepsInputs (h : deqOp p s = .next t) : KeepsInputs cmd s t := by
  refine afterCheck_keepsInputs (fun u v hb => ?_) h
  cases hb
  exact .of_bufs_eq rfl

theorem checkOp_bufs (p : Params) (op : Byte) (s : State) : (checkOp p op s).bufs = s.bufs := by
  rcases checkOp_cases p op s with ⟨c, -, h⟩ | ⟨-, h⟩ <;> rw [h] <;> rfl

/-- An operation that a running command may issue keeps the command's inputs. -/
theorem exec_keepsInputs {ph : Phase} (hst : stage cmd ph i = true) (h : exec i s = .next t) :
    KeepsInputs cmd s t := by
  have home (hi : i.issuable = false) (hc : i ≠ .check) : cmd = (homeOf i).2 :=
    congrArg Prod.snd ((stage_iff_home hi hc).1 hst)
  cases i with
  | quant =>
    obtain rfl : cmd = 0x01 := by cases ph <;> simp_all [stage]
    exact quantOp_keepsInputs h
  | deq => exact deqOp_keepsInputs h
  | gemm =>
    obtain rfl : cmd = 0x03 := by cases ph <;> simp_all [stage]
    exact gemmOp_keepsInputs h
  | check =>
    cases h
    exact .of_bufs_eq (checkOp_bufs _ _ s)
  | qscale => exact .of_bufs_eq (qscaleOp_bufs h)
  | qpair =>
    obtain rfl := home rfl (by decide)
    exact qpairOp_keepsInputs h
  | nibsel =>
    cases h
    exact .of_bufs_eq (nibselOp_bufs s)
  | aclr =>
    cases h
    exact .of_bufs_eq (aclrOp_bufs s _)
  | loada => exact .of_bufs_eq (loadaOp_bufs h)
  | loadw => exact .of_bufs_eq (loadwOp_bufs h)
  | tcopy => exact .of_bufs_eq (tcopyOp_bufs h)
  | mac => exact .of_bufs_eq (macOp_bufs h)
  | tstore =>
    obtain rfl := home rfl (by decide)
    exact tstoreOp_keepsInputs h
  | tile =>
    obtain rfl := home rfl (by decide)
    exact tileOp_keepsInputs h

/-! ### The sequencer -/

@[simp] theorem issueTile_bufs (s : State) : (issueTile s).bufs = s.bufs := by
  rcases issueTile_cases s with h | h <;> rw [h] <;> rfl

theorem afterPass_bufs (s : State) : (afterPass s).bufs = s.bufs := by
  simp only [afterPass]
  split_ifs <;> rfl

theorem afterPair_bufs (s : State) : (afterPair s).bufs = s.bufs := by
  simp only [afterPair]
  split_ifs <;> rfl

theorem afterPreload_bufs (s : State) : (afterPreload s).bufs = s.bufs := by
  simp only [afterPreload]
  split_ifs <;> simp

theorem afterTile_bufs (p : Params) (s : State) : (afterTile p s).bufs = s.bufs := by
  simp only [afterTile]
  split_ifs <;> simp

/-- What follows an operation changes a buffer only after QSCALE, when the scale byte is stored. -/
theorem sequel_keepsInputs {ph : Phase} (hst : stage cmd ph i = true) (h : sequel p i s = .next t) :
    KeepsInputs cmd s t := by
  cases i with
  | qscale =>
    obtain rfl : cmd = 0x01 := congrArg Prod.snd ((stage_iff_home rfl (by decide)).1 hst)
    obtain ⟨u, hu, ht⟩ := andThen_eq_next.1 h
    cases ht
    have hscale := storeScale_keepsInputs hu
    exact hscale
  | check => exact .of_bufs_eq (Host.Outcome.next.inj h ▸ afterPass_bufs s)
  | qpair => exact .of_bufs_eq (Host.Outcome.next.inj h ▸ afterPair_bufs s)
  | loada | loadw => exact .of_bufs_eq (Host.Outcome.next.inj h ▸ afterPreload_bufs s)
  | mac =>
    cases h
    exact .of_bufs_eq (by rw [afterMac_eq, issueOp_bufs])
  | tstore | tile => exact .of_bufs_eq (Host.Outcome.next.inj h ▸ afterTile_bufs p s)
  | nibsel | tcopy | aclr | quant | deq | gemm => exact .of_bufs_eq (Host.Outcome.next.inj h ▸ rfl)

/-! ### The block's turn -/

/-- A turn of the block on a running command keeps the command's inputs. -/
theorem Running.blockStep_keepsInputs (h : Running s) (hstep : blockStep s = .next t) :
    KeepsInputs s.regs.cmd s t := by
  obtain ⟨i, hissue, hst⟩ := h.issued
  rw [blockStep_of_issue hissue] at hstep
  obtain ⟨u, hexec, hadv⟩ := andThen_eq_next.1 hstep
  have hop := exec_keepsInputs hst hexec
  by_cases hu : u.regs.status = .busy
  · rw [advance_of_busy hu] at hadv
    exact hop.trans (sequel_keepsInputs hst hadv)
  · rw [advance_of_not_busy hu] at hadv
    exact Host.Outcome.next.inj hadv ▸ hop

/-- While a command runs, no step but a reset changes a buffer that is not one of its outputs. -/
theorem Protocol.step_keepsInputs (h : Protocol s) (hs : s.regs.status = .busy) (hstep : step s = .next t)
    (hreset : s.env.script.head? ≠ some .reset) : KeepsInputs s.regs.cmd s t := by
  have hrun := h.running_of_busy hs
  cases step_cases hstep with
  | @block u _ hu hblock =>
    rcases hu with rfl | rfl
    · exact hrun.blockStep_keepsInputs hblock
    · have hdrop : Running (dropEvent s) := ⟨hrun.status, hrun.cause, hrun.issued⟩
      exact hdrop.blockStep_keepsInputs hblock
  | command hidle | register hidle | store _ _ _ hidle => exact absurd hs hidle
  | reset hd => exact absurd hd hreset
  | read | wait => exact .of_bufs_eq rfl

theorem Bufs.ext_get {m m' : Bufs} (h : ∀ b, m'.get b = m.get b) : m' = m := by
  cases m
  cases m'
  exact Bufs.mk.injEq .. ▸ ⟨h .wf, h .pw, h .sc, h .act, h .out⟩

/-- Settles O59: no step but a reset changes a buffer that is no output of the running command. -/
theorem inputsReadOnlyWhileBusy : Obligations.InputsReadOnlyWhileBusy := by
  intro s t h hstep hs hreset
  have hkeep := h.step_keepsInputs hs hstep hreset
  refine ⟨hkeep .wf rfl, hkeep .act rfl, fun hcmd => ?_, fun hcmd => ?_, fun hcmd => ?_⟩ <;> rw [hcmd] at hkeep
  · exact ⟨hkeep .pw rfl, hkeep .sc rfl⟩
  · exact hkeep .out rfl
  · exact Bufs.ext_get fun b => hkeep b (by cases b <;> rfl)

end Sys2Proof.Machine
end

section
/-!
PROOFS. The host's accesses to a buffer element (20_memory R61, R62, R65; 30_encoding R107), and the preloads in either
order (20_memory R73).
-/
namespace Sys2Proof.Machine

variable {p : Params} {s t : State}

/-! ### The host's accesses to a buffer -/

theorem elemPut_of_word {b : Buf} (hb : elemSize b = 4) (m : Memory) (i : Nat) (v : Word) :
    elemPut b m i v = cellStore (w := 8) m (bytes32 i v) := if_pos hb

theorem elemPut_of_byte {b : Buf} (hb : elemSize b = 1) (m : Memory) (i : Nat) (v : Word) :
    elemPut b m i v = cellSet (w := 8) m i (v.setWidth 8) := if_neg (by omega)

/-- A buffer's elements are words or bytes (00_scope R12). -/
theorem elemSize_cases (b : Buf) : elemSize b = 4 ∨ elemSize b = 1 := by
  cases b <;> decide

theorem get_elemPut_outside {b : Buf} {m : Memory} {i a : Nat} {v : Word} (h : a / elemSize b ≠ i) :
    cellGet (w := 8) (elemPut b m i v) a = cellGet (w := 8) m a := by
  rcases elemSize_cases b with hb | hb <;> rw [hb] at h
  · rw [elemPut_of_word hb, cellGet_store_bytes32_outside]
    omega
  · rw [elemPut_of_byte hb, cellGet_cellSet_ne]
    omega

/-- The four bytes of a word stored are the word's. -/
theorem get_store_bytes32 (m : Memory) (i : Nat) (v : Word) {q : Nat × Byte} (hq : q ∈ bytes32 i v) :
    cellGet (w := 8) (cellStore (w := 8) m (bytes32 i v)) q.1 = some q.2 := by
  simp only [bytes32, List.mem_cons, List.not_mem_nil, or_false] at hq
  rcases hq with rfl | rfl | rfl | rfl <;> simp [bytes32, cellGet_cellSet]

/-- An element reads back as the low bits of the value put there (20_memory R62, R65). -/
theorem toNat_elem_of_elemPut {m : Bufs} {b : Buf} {x : Memory} {i : Nat} {v : Word}
    (h : m.get b = elemPut b x i v) : (m.elem b i).toNat = v.toNat % 2 ^ (8 * elemSize b) := by
  rcases elemSize_cases b with hb | hb
  · have hword : m.word b i = v := (word_of_bytes fun q hq => by
      rw [h, elemPut_of_word hb, get_store_bytes32 _ _ _ hq]).2
    rw [Bufs.elem, if_pos hb, hword, hb, Nat.mod_eq_of_lt v.isLt]
  · have hbyte : m.byte b i = v.setWidth 8 := byte_of_get (by
      rw [h, elemPut_of_byte hb, cellGet_cellSet_same])
    rw [Bufs.elem, if_neg (by omega), hbyte, hb, BitVec.toNat_setWidth, BitVec.toNat_setWidth]
    omega

theorem hostStore_eq {b : Buf} {i : Nat} (hs : s.regs.status ≠ .busy) (hi : i < 2 ^ 32) (v : Nat) :
    hostStore b i v s =
      .next { s with bufs := s.bufs.put b (elemPut b (s.bufs.get b) i (BitVec.ofNat 32 v)) } := by
  have hwf : HostEvent.wf (.st b i v) = true := decide_eq_true hi
  rw [hostStore, busy_eq_false_iff.2 hs, refuseIf_false, demand_of_true hwf]

theorem hostLoad_eq {b : Buf} {i : Nat} (hs : s.regs.status ≠ .busy) (hi : i < 2 ^ 32) :
    hostLoad b i s = .next (note (s.bufs.elem b i) s) := by
  have hwf : HostEvent.wf (.ld b i) = true := decide_eq_true hi
  rw [hostLoad, busy_eq_false_iff.2 hs, refuseIf_false, demand_of_true hwf]

/-- Settles O12: the store puts one element into its buffer and the load notes that element. -/
theorem storeThenLoadReturnsValue : Obligations.StoreThenLoadReturnsValue := by
  intro s b i v rest hs hi hd
  have hst := (step_of_cons hd).trans (hostStore_eq (s := dropEvent s) hs hi v)
  set t : State := { dropEvent s with bufs := s.bufs.put b (elemPut b (s.bufs.get b) i (BitVec.ofNat 32 v)) }
  have hdt : t.env.script = .ld b i :: rest := congrArg List.tail hd
  have hld := (step_of_cons hdt).trans (hostLoad_eq (s := dropEvent t) hs hi)
  have hget : t.bufs.get b = elemPut b (s.bufs.get b) i (BitVec.ofNat 32 v) := Bufs.get_put_same ..
  refine ⟨t, _, hst, hld, ⟨_, rfl, ?_⟩, fun a ha => ?_, fun c hc => Bufs.get_put_ne _ _ hc, rfl, rfl, rfl, ?_⟩
  · rw [dropEvent_bufs, toNat_elem_of_elemPut hget, BitVec.toNat_ofNat]
    rcases elemSize_cases b with hb | hb <;> rw [hb] <;> omega
  · rw [note_bufs, dropEvent_bufs, hget, get_elemPut_outside ha]
  · rw [dropEvent_eq hdt]
    rfl

/-! ### The preloads -/

theorem loadaDone_of_next (h : loadaOp p s = .next t) : t = loadaDone p s := by
  obtain ⟨-, -, rfl⟩ := loadaOp_eq_next.1 h
  rfl

theorem loadwDone_of_next (h : loadwOp p s = .next t) : t = loadwDone p s := by
  obtain ⟨-, -, -, -, rfl⟩ := loadwOp_eq_next.1 h
  rfl

/-- Whether LOADA completes does not depend on LOADW. -/
theorem loadaOp_loadwDone_completes : (∃ u, loadaOp p (loadwDone p s) = .next u) ↔ ∃ u, loadaOp p s = .next u := by
  have hrows : loadaRows p (loadwDone p s) = loadaRows p s := rfl
  simp only [loadaOp_eq_next, hrows, loadwDone_seq, loadwDone_regs, exists_and_left, exists_eq']

/-- Whether LOADW completes does not depend on LOADA. -/
theorem loadwOp_loadaDone_completes : (∃ u, loadwOp p (loadaDone p s) = .next u) ↔ ∃ u, loadwOp p s = .next u := by
  have hcols : loadwCols p (loadaDone p s) = loadwCols p s := rfl
  simp only [loadwOp_eq_next, hcols, loadaDone_seq, loadaDone_regs, exists_and_left, exists_eq']

/-- Two operations with one result each, of which the first does not decide whether the second completes: their chain
completes exactly if each does on its own. -/
theorem andThen_eq_next_of_results {f g : State → Run} {F G : State → State}
    (hf : ∀ u v, f u = .next v → v = F u) (hg : ∀ u v, g u = .next v → v = G u)
    (hfree : (∃ u, g (F s) = .next u) ↔ ∃ u, g s = .next u) :
    andThen (f s) g = .next t ↔ (∃ u, f s = .next u) ∧ (∃ u, g s = .next u) ∧ t = G (F s) := by
  rw [andThen_eq_next]
  constructor
  · rintro ⟨u, hu, ht⟩
    obtain rfl := hf _ _ hu
    exact ⟨⟨_, hu⟩, hfree.1 ⟨_, ht⟩, hg _ _ ht⟩
  · rintro ⟨⟨u, hu⟩, hcompletes, rfl⟩
    obtain ⟨v, hv⟩ := hfree.2 hcompletes
    exact ⟨_, hf _ _ hu ▸ hu, hg _ _ hv ▸ hv⟩

theorem loada_then_loadw : andThen (loadaOp p s) (loadwOp p) = .next t ↔
    (∃ u, loadaOp p s = .next u) ∧ (∃ u, loadwOp p s = .next u) ∧ t = loadwDone p (loadaDone p s) :=
  andThen_eq_next_of_results (f := loadaOp p) (F := loadaDone p) (G := loadwDone p)
    (fun _ _ => loadaDone_of_next) (fun _ _ => loadwDone_of_next) loadwOp_loadaDone_completes

theorem loadw_then_loada : andThen (loadwOp p s) (loadaOp p) = .next t ↔
    (∃ u, loadwOp p s = .next u) ∧ (∃ u, loadaOp p s = .next u) ∧ t = loadaDone p (loadwDone p s) :=
  andThen_eq_next_of_results (f := loadwOp p) (F := loadwDone p) (G := loadaDone p)
    (fun _ _ => loadwDone_of_next) (fun _ _ => loadaDone_of_next) loadaOp_loadwDone_completes

/-- Settles O46: the preloads read no array and write different ones, so in either order both complete or none, with
the same result. -/
theorem preloadsCommute : Obligations.PreloadsCommute := by
  intro s t
  have hstate : loadwDone Config.params (loadaDone Config.params s) =
      loadaDone Config.params (loadwDone Config.params s) := rfl
  calc andThen (loadaOp Config.params s) (loadwOp Config.params) = .next t
      ↔ _ := loada_then_loadw
    _ ↔ _ := by rw [hstate, and_left_comm]
    _ ↔ andThen (loadwOp Config.params s) (loadaOp Config.params) = .next t := loadw_then_loada.symm

end Sys2Proof.Machine
end

section
/-!
PROOFS. The order of the tile pairs (20_memory R73, R74; 43_tiled_engine R191): each pair writes its own region of
`OUT` and leaves the caches alone, so that what any list of pairs leaves depends on its pairs and not on their order.
-/
namespace Sys2Proof.Machine

variable {p : Params} {s t u : State} {mt nt : Nat} {l l' : List (Nat × Nat)}

/-! ### A written element, byte by byte -/

/-- The bytes of a word put together, taken apart again. -/
theorem extract_bytes_append (v0 v1 v2 v3 : Byte) :
    let v : Word := v3 ++ v2 ++ v1 ++ v0
    v.extractLsb' 0 8 = v0 ∧ v.extractLsb' 8 8 = v1 ∧ v.extractLsb' 16 8 = v2 ∧ v.extractLsb' 24 8 = v3 := by
  refine ⟨?_, ?_, ?_, ?_⟩ <;> grind

/-- A written word determines each of its bytes (20_memory R62). -/
theorem get_of_written32 {m : Bufs} {b : Buf} {i a : Nat} (h : written32 (m.get b) i = true) (ha : a / 4 = i) :
    cellGet (w := 8) (m.get b) a = some ((m.word b i).extractLsb' (8 * (a % 4)) 8) := by
  simp only [written32, Bool.and_eq_true, cellHas_iff] at h
  obtain ⟨⟨⟨⟨v0, h0⟩, v1, h1⟩, v2, h2⟩, v3, h3⟩ := h
  obtain ⟨e0, e1, e2, e3⟩ := extract_bytes_append v0 v1 v2 v3
  rw [Bufs.word, byte_of_get h0, byte_of_get h1, byte_of_get h2, byte_of_get h3]
  obtain hr | hr | hr | hr : a % 4 = 0 ∨ a % 4 = 1 ∨ a % 4 = 2 ∨ a % 4 = 3 := by omega
  · rw [hr, show a = 4 * i by omega, h0]
    exact congrArg some e0.symm
  · rw [hr, show a = 4 * i + 1 by omega, h1]
    exact congrArg some e1.symm
  · rw [hr, show a = 4 * i + 2 by omega, h2]
    exact congrArg some e2.symm
  · rw [hr, show a = 4 * i + 3 by omega, h3]
    exact congrArg some e3.symm

/-! ### What a list of tile pairs needs and leaves -/

/-- What TILE needs of the state for every tile pair: both caches written for the latched dimensions, `OUT` large
enough. -/
structure TilesReady (p : Params) (s : State) : Prop where
  k_le : s.seq.lat.k.toNat ≤ p.capK
  acache : ∀ r < s.seq.lat.mTiles p * p.peRows, ∀ c < s.seq.lat.k.toNat,
    cellHas s.scr.acache (rowCell p r c) = true
  wcache : ∀ r < s.seq.lat.nTiles p * p.peCols, ∀ c < s.seq.lat.k.toNat,
    cellHas s.scr.wcache (rowCell p r c) = true
  out : s.seq.lat.m.toNat * s.seq.lat.n.toNat ≤ s.regs.len .out

/-- A tile pair of the latched dimensions. -/
def InTiles (p : Params) (s : State) (q : Nat × Nat) : Prop := q.1 < s.seq.lat.mTiles p ∧ q.2 < s.seq.lat.nTiles p

theorem TilesReady.tileReady (h : TilesReady p s) (hq : InTiles p s (mt, nt)) : TileReady p mt nt s where
  mt_lt := hq.1
  nt_lt := hq.2
  k_le := h.k_le
  acache i hi := h.acache _ (row_major_lt hq.1 hi)
  wcache j hj := h.wcache _ (row_major_lt hq.2 hj)
  out i hi j hj := by
    have hrow : mt * p.peRows + i < s.seq.lat.m.toNat :=
      Nat.lt_of_lt_of_le (row_major_lt hq.1 hi) (Nat.div_mul_le_self _ _)
    have hcol : nt * p.peCols + j < s.seq.lat.n.toNat :=
      Nat.lt_of_lt_of_le (row_major_lt hq.2 hj) (Nat.div_mul_le_self _ _)
    rw [outIndex, Nat.add_assoc]
    exact Nat.lt_of_lt_of_le (row_major_lt hrow hcol) h.out

/-- Byte `a` of `OUT` belongs to place `(i, j)` of a tile pair. -/
def InPlace (p : Params) (s : State) (q : Nat × Nat) (i j a : Nat) : Prop :=
  i < p.peRows ∧ j < p.peCols ∧ a / 4 = outIndex p s.seq.lat.n.toNat q.1 q.2 i j

/-- Byte `a` of the word that TILE computes for place `(i, j)` of a tile pair. -/
def tileByte (p : Params) (s : State) (q : Nat × Nat) (i j a : Nat) : Byte :=
  (BitVec.ofInt 32 (tileSum p s q.1 q.2 i j)).extractLsb' (8 * (a % 4)) 8

/-- What TILE reads and does not write: the registers, the caches and the latched dimensions; and the surroundings. -/
structure TileFrame (s t : State) : Prop where
  regs : t.regs = s.regs
  env : t.env = s.env
  acache : t.scr.acache = s.scr.acache
  wcache : t.scr.wcache = s.scr.wcache
  lat : t.seq.lat = s.seq.lat

theorem TileFrame.trans (h : TileFrame s t) (h' : TileFrame t u) : TileFrame s u :=
  ⟨h'.regs.trans h.regs, h'.env.trans h.env, h'.acache.trans h.acache, h'.wcache.trans h.wcache, h'.lat.trans h.lat⟩

theorem TileFrame.inTiles (h : TileFrame s t) {q : Nat × Nat} : InTiles p t q ↔ InTiles p s q := by
  rw [InTiles, InTiles, h.lat]

theorem TileFrame.inPlace (h : TileFrame s t) {q : Nat × Nat} {i j a : Nat} :
    InPlace p t q i j a ↔ InPlace p s q i j a := by
  rw [InPlace, InPlace, h.lat]

theorem TileFrame.tilesReady (h : TileFrame s t) (hs : TilesReady p s) : TilesReady p t := by
  constructor <;> simp only [h.lat, h.acache, h.wcache, h.regs]
  exacts [hs.k_le, hs.acache, hs.wcache, hs.out]

theorem TileFrame.tileSum_eq (h : TileFrame s t) (mt nt i j : Nat) : tileSum p t mt nt i j = tileSum p s mt nt i j := by
  simp only [tileSum, h.lat, h.acache, h.wcache]

/-- What the tile pairs of a list leave, computed in some order: each its own region of `OUT`, and every other byte as
it was. -/
structure TilesDone (p : Params) (s : State) (l : List (Nat × Nat)) (t : State) : Prop where
  frame : TileFrame s t
  inside : ∀ q ∈ l, ∀ i j a, InPlace p s q i j a → cellGet (w := 8) t.bufs.out a = some (tileByte p s q i j a)
  outside : ∀ a, (∀ q ∈ l, ∀ i j, ¬InPlace p s q i j a) →
    cellGet (w := 8) t.bufs.out a = cellGet (w := 8) s.bufs.out a

theorem TilesDone.nil (p : Params) (s : State) : TilesDone p s [] s where
  frame := ⟨rfl, rfl, rfl, rfl, rfl⟩
  inside _ hq := absurd hq List.not_mem_nil
  outside _ _ := rfl

theorem tileOp_tilesDone (hcap : p.capK ≤ 32767) (hs : TilesReady p s) {q : Nat × Nat} (hq : InTiles p s q) :
    ∃ t, tileOp p q.1 q.2 s = .next t ∧ TilesDone p s [q] t := by
  obtain ⟨t, ht, hregs, henv, -, hscr, hseq, hin, hout⟩ := tileOp_completes hcap (hs.tileReady hq)
  refine ⟨t, ht, ⟨hregs, henv, by rw [hscr], by rw [hscr], by rw [hseq]⟩, ?_, ?_⟩
  · intro q' hq' i j a ha
    obtain rfl := List.mem_singleton.1 hq'
    obtain ⟨hi, hj, hidx⟩ := ha
    obtain ⟨hwritten, hsum⟩ := hin i hi j hj
    rw [tileByte, ← hsum, BitVec.ofInt_toInt]
    exact get_of_written32 (b := .out) hwritten hidx
  · exact fun a ha => hout a fun i hi j hj hidx => ha q (List.mem_singleton.2 rfl) i j ⟨hi, hj, hidx⟩

/-- Two tile pairs share no byte of `OUT` (43_tiled_engine R197). -/
theorem InPlace.same_tile {q q' : Nat × Nat} {i j i' j' a : Nat} (hq : InTiles p s q) (hq' : InTiles p s q')
    (h : InPlace p s q i j a) (h' : InPlace p s q' i' j' a) : q = q' ∧ i = i' ∧ j = j' := by
  obtain ⟨hi, hj, hidx⟩ := h
  obtain ⟨hi', hj', hidx'⟩ := h'
  obtain ⟨hm, hn, hrow, hcol⟩ := outIndex_inj hi hi' hj hj' hq.2 hq'.2 (hidx.symm.trans hidx')
  exact ⟨Prod.ext hm hn, hrow, hcol⟩

/-- A tile pair and then the rest of a list: the rest leaves the first pair's region alone, or computes it again. -/
theorem TilesDone.cons {q : Nat × Nat} (hl : ∀ q' ∈ q :: l, InTiles p s q') (h : TilesDone p s [q] t)
    (hrest : TilesDone p t l u) : TilesDone p s (q :: l) u := by
  have hsame (q' i j a) : tileByte p t q' i j a = tileByte p s q' i j a := by
    rw [tileByte, tileByte, h.frame.tileSum_eq]
  refine ⟨h.frame.trans hrest.frame, fun q' hq' i j a hplace => ?_, fun a ha => ?_⟩
  · by_cases hagain : ∃ q'' ∈ l, ∃ i' j', InPlace p t q'' i' j' a
    · obtain ⟨q'', hq'', i', j', hplace'⟩ := hagain
      obtain ⟨rfl, rfl, rfl⟩ := hplace.same_tile (hl q' hq') (hl q'' (List.mem_cons_of_mem _ hq''))
        (h.frame.inPlace.1 hplace')
      rw [hrest.inside q' hq'' i j a hplace', hsame]
    · push Not at hagain
      have hfirst : q' = q := (List.mem_cons.1 hq').resolve_right fun hmem =>
        hagain q' hmem i j (h.frame.inPlace.2 hplace)
      rw [hrest.outside a hagain, h.inside q' (List.mem_singleton.2 hfirst) i j a hplace]
  · have hrest_out := hrest.outside a fun q' hq' i j hplace =>
      ha q' (List.mem_cons_of_mem _ hq') i j (h.frame.inPlace.1 hplace)
    rw [hrest_out, h.outside a fun q' hq' => ha q' (List.mem_singleton.1 hq' ▸ List.mem_cons_self)]

theorem runTiles_completes (hcap : p.capK ≤ 32767) (hs : TilesReady p s) (hl : ∀ q ∈ l, InTiles p s q) :
    ∃ t, runTiles p l s = .next t ∧ TilesDone p s l t := by
  induction l generalizing s with
  | nil => exact ⟨s, rfl, .nil p s⟩
  | cons q l ih =>
    obtain ⟨t, ht, htile⟩ := tileOp_tilesDone hcap hs (hl q List.mem_cons_self)
    obtain ⟨u, hu, hrest⟩ := ih (htile.frame.tilesReady hs) fun q' hq' =>
      htile.frame.inTiles.2 (hl q' (List.mem_cons_of_mem _ hq'))
    exact ⟨u, by rw [runTiles, ht, andThen_next, hu], htile.cons hl hrest⟩

/-- Lists of the same tile pairs leave the same `OUT`. -/
theorem TilesDone.out_eq (h : TilesDone p s l t) (h' : TilesDone p s l' u) (hmem : ∀ q, q ∈ l ↔ q ∈ l') (a : Nat) :
    cellGet (w := 8) t.bufs.out a = cellGet (w := 8) u.bufs.out a := by
  by_cases ha : ∃ q ∈ l, ∃ i j, InPlace p s q i j a
  · obtain ⟨q, hq, i, j, hplace⟩ := ha
    rw [h.inside q hq i j a hplace, h'.inside q ((hmem q).1 hq) i j a hplace]
  · push Not at ha
    rw [h.outside a ha, h'.outside a fun q hq => ha q ((hmem q).2 hq)]

theorem mem_allTiles {q : Nat × Nat} : q ∈ allTiles p s ↔ InTiles p s q := by
  obtain ⟨mt, nt⟩ := q
  simp [allTiles, mem_grid, InTiles]

/-- Settles O48: every order has the same tile pairs, each of which is computed from the caches and written to its own
region. -/
theorem tileOrderDoesNotMatter : Obligations.TileOrderDoesNotMatter := by
  intro s order p k hperm hk ha hw hout
  have hs : TilesReady p s := ⟨hk, ha, hw, hout⟩
  have hcap : p.capK ≤ 32767 := by decide
  obtain ⟨t, ht, hdone⟩ := runTiles_completes hcap hs fun q hq => mem_allTiles.1 (hperm.mem_iff.1 hq)
  obtain ⟨u, hu, hcanonical⟩ := runTiles_completes hcap hs fun _ => mem_allTiles.1
  exact ⟨t, u, ht, hu, hdone.out_eq hcanonical fun _ => hperm.mem_iff,
    hdone.frame.regs.trans hcanonical.frame.regs.symm, hdone.frame.env.trans hcanonical.frame.env.symm⟩

end Sys2Proof.Machine
end

section
/-!
PROOFS. Op codes (30_encoding R102 to R105): the op code map and its inverse, an operation placed in the issue slot, and
a `CMD` byte that is no command (R104, 60_exceptions R234).
-/
namespace Sys2Proof.Machine

variable {s t : State} {i : Instr} {op : Byte}

/-! ### The decoder is the inverse of the encoder -/

theorem decodeOp_encodeOp (i : Instr) : decodeOp (encodeOp i) = some i := by
  cases i <;> rfl

/-- An op code decodes to an operation exactly if it is the operation's own (30_encoding R103). -/
theorem decodeOp_eq_some_iff : decodeOp op = some i ↔ op = encodeOp i :=
  ⟨fun h => (encodeOp_of_decodeOp h).symm, fun h => h ▸ decodeOp_encodeOp i⟩

/-- The decoder takes one byte and leaves the rest (30_encoding R105). -/
theorem decode_cons_eq_ok_iff {bytes rest : List Byte} :
    decode (op :: bytes) = .ok (i, rest) ↔ op = encodeOp i ∧ bytes = rest := by
  rw [← decodeOp_eq_some_iff]
  cases hop : decodeOp op <;> simp [decode, hop]

/-- The low byte of a table word is its op code (30_encoding R102). -/
theorem decodeTableWord_eq_some_iff {w : Nat} : decodeTableWord 8 w = some i ↔ BitVec.ofNat 8 w = encodeOp i := by
  rw [← decodeOp_eq_some_iff]
  cases hop : decodeOp (BitVec.ofNat 8 w) <;> simp [decodeTableWord, decode, hop]

/-- Settles O2: the decoder reads one byte, which determines the operation and is determined by it. -/
theorem decodeExactlyInvertsEncode : Obligations.DecodeExactlyInvertsEncode := by
  intro bytes rest i
  cases bytes with
  | nil => simp [decode, encode]
  | cons op bytes => rw [decode_cons_eq_ok_iff, encode, List.singleton_append, List.cons.injEq]

/-- Settles O1: each row of the table is the op code of its operation, and two bytes stand in no row. -/
theorem opCodesDecode : Obligations.OpCodesDecode :=
  ⟨decodeOp_encodeOp .quant, decodeOp_encodeOp .deq, decodeOp_encodeOp .gemm, decodeOp_encodeOp .qscale,
    decodeOp_encodeOp .qpair, decodeOp_encodeOp .nibsel, decodeOp_encodeOp .check, decodeOp_encodeOp .loada,
    decodeOp_encodeOp .loadw, decodeOp_encodeOp .tcopy, decodeOp_encodeOp .aclr, decodeOp_encodeOp .mac,
    decodeOp_encodeOp .tstore, decodeOp_encodeOp .tile, rfl, rfl, by decide, by decide⟩

/-- Settles O4: the script gives the block its turn, and the slot holds the operation's op code. -/
theorem fetchWordRunsNext : Obligations.FetchWordRunsNext := by
  intro s w i h
  have hissue : (dropEvent (s.withFetchWord 8 w)).seq.issue = some (encodeOp i) :=
    congrArg some (decodeTableWord_eq_some_iff.1 h)
  rw [step_of_cons (s := s.withFetchWord 8 w) rfl, eventStep, blockStep_of_issue hissue]
  rfl

/-! ### A byte that is no command -/

/-- CHECK finds a byte that is no command illegal "before anything else" (43_tiled_engine R182). -/
theorem checkCause_of_illegal (p : Params) (r : Regs) (h : commandByteWf op = false) :
    checkCause p op r = some .illegalOp := by
  obtain ⟨⟨h1, h2⟩, h3⟩ : (op ≠ 0x01 ∧ op ≠ 0x02) ∧ op ≠ 0x03 := by simpa [commandByteWf] using h
  rw [checkCause, if_neg h1, if_neg h2, if_neg h3]

/-- The block's turn on a CHECK that fails: the command is rejected, and nothing follows (60_exceptions R234). -/
theorem blockStep_of_check_rejects {c : Cause} (hissue : s.seq.issue = some 0x30)
    (hc : checkCause Config.params s.regs.cmd s.regs = some c) : blockStep s = .next (raiseReject c (takeIssue s)) := by
  have hexec : exec .check (takeIssue s) = .next (raiseReject c (takeIssue s)) := by
    simp [exec, execCheck, checkOp, hc]
  rw [blockStep_of_issue (i := .check) hissue, hexec, andThen_next, advance_of_not_busy (by simp)]

theorem stepN_succ_of_next (n : Nat) (h : step s = .next t) : stepN (n + 1) s = stepN n t := by
  rw [stepN, h, andThen_next]

/-- Settles O7: the write starts the command with a CHECK, whatever the grain, and the CHECK rejects it. -/
theorem illegalCommandRejected : Obligations.IllegalCommandRejected := by
  intro s v rest hs hd hill
  obtain ⟨t, hwrite, hregs, hbufs, hscr, hseq, hcheck, -, henv⟩ := commandWriteStartsCommand s v _ hs hd
  have hdt : t.env.script = .block :: rest := by rw [henv]
  have hcause : checkCause Config.params t.regs.cmd t.regs = some .illegalOp :=
    checkCause_of_illegal _ _ (by rw [hregs, hill])
  have hblock : step t = .next (raiseReject .illegalOp (takeIssue (dropEvent t))) := by
    rw [step_of_cons hdt, eventStep]
    exact blockStep_of_check_rejects (s := dropEvent t) (hcheck (.inr hill)) hcause
  refine ⟨_, (stepN_succ_of_next 1 hwrite).trans (stepN_succ_of_next 0 hblock), ?_, hbufs, hscr, ?_, ?_⟩
  · simp [raiseReject, takeIssue, hregs]
  · simp only [raiseReject, takeIssue, dropEvent_seq]
    rw [hseq]
  · simp [raiseReject, takeIssue, dropEvent_eq hdt, henv]

end Sys2Proof.Machine
end

section
/-!
SUPPORT. The codec's arithmetic: the scale of a group, rounding to nearest, and the round-trip error of a weight.
-/
namespace Sys2Proof.Machine

/-! ### The scale of a magnitude -/

/-- `floorlog2` by the powers of two, counted in units of `2^-149` (00_scope R11; log 27). -/
theorem le_floorLog2_iff {mag k : Nat} (h : mag ≠ 0) : (k : Int) ≤ floorLog2 mag ↔ 2 ^ k * f32One ≤ mag := by
  rw [f32One, ← pow_add, ← Nat.le_log2 h, floorLog2]
  omega

theorem scaleOf_of_ne_zero {mag : Nat} (h : mag ≠ 0) :
    scaleOf mag = BitVec.ofInt 2 (clamp (floorLog2 mag - 3) 0 3) := if_neg h

theorem f32One_pos : 0 < f32One := by
  rw [f32One]
  positivity

theorem clamp_of_le {x lo hi : Int} (h : x ≤ lo) (hlh : lo ≤ hi) : clamp x lo hi = lo := by
  unfold clamp
  split_ifs <;> omega

theorem clamp_of_ge {x lo hi : Int} (h : hi ≤ x) (hlh : lo ≤ hi) : clamp x lo hi = hi := by
  unfold clamp
  split_ifs <;> omega

theorem clamp_of_mem {x lo hi : Int} (h1 : lo ≤ x) (h2 : x ≤ hi) : clamp x lo hi = x := by
  rw [clamp, if_neg (by omega), if_neg (by omega)]

/-- Settles O23: each row is an interval of `floorlog2`. -/
theorem scaleThresholds : Obligations.ScaleThresholds := by
  intro mag
  by_cases h0 : mag = 0
  · subst h0
    have := f32One_pos
    exact ⟨fun _ => ⟨rfl, rfl, fun h => absurd rfl h⟩, by omega, by omega, by omega⟩
  have h4 := le_floorLog2_iff (k := 4) h0
  have h5 := le_floorLog2_iff (k := 5) h0
  have h6 := le_floorLog2_iff (k := 6) h0
  norm_num at h4 h5 h6
  have row : ∀ x : Int, clamp (floorLog2 mag - 3) 0 3 = x → scaleOf mag = BitVec.ofInt 2 x := fun x hx => by
    rw [scaleOf_of_ne_zero h0, hx]
  refine ⟨fun h => ?_, fun hl h => ?_, fun hl h => ?_, fun hl => ?_⟩
  · rw [row 0 (clamp_of_le (by omega) (by decide))]
    exact ⟨rfl, rfl, fun _ => by omega⟩
  · have e : floorLog2 mag = 4 := by omega
    rw [row 1 (by rw [e]; rfl)]
    exact ⟨rfl, rfl, e⟩
  · have e : floorLog2 mag = 5 := by omega
    rw [row 2 (by rw [e]; rfl)]
    exact ⟨rfl, rfl, e⟩
  · rw [row 3 (clamp_of_ge (by omega) (by decide))]
    exact ⟨rfl, rfl, by omega⟩

/-! ### Rounding to nearest -/

/-- `round_TIE` of a fraction that is not negative; a negative one differs in the sign only (00_scope R11). -/
def roundMag (tie : Tie) (a den : Nat) : Nat :=
  let up : Nat :=
    if 2 * (a % den) < den then 0
    else if den < 2 * (a % den) then 1
    else match tie with
      | .away => 1
      | .even => a / den % 2
  a / den + up

theorem roundTie_eq (tie : Tie) (num : Int) (den : Nat) :
    roundTie tie num den =
      if num < 0 then -(roundMag tie num.natAbs den : Int) else (roundMag tie num.natAbs den : Int) := rfl

/-- The result is one of the two neighbours; of an exact half the upper one if `TIE = away`, the even one if
`TIE = even` (40_quantization_codec R127). -/
theorem roundMag_cases (tie : Tie) (a den : Nat) :
    (roundMag tie a den = a / den ∧ 2 * (a % den) ≤ den ∧
      (2 * (a % den) = den → tie = .even ∧ a / den % 2 = 0)) ∨
    (roundMag tie a den = a / den + 1 ∧ den ≤ 2 * (a % den) ∧
      (2 * (a % den) = den → tie = .even → a / den % 2 = 1)) := by
  unfold roundMag
  split_ifs with hlt hgt
  · exact .inl ⟨rfl, by omega, by omega⟩
  · exact .inr ⟨rfl, by omega, by omega⟩
  · cases tie with
    | away => exact .inr ⟨rfl, by omega, fun _ h => nomatch h⟩
    | even =>
      rcases Nat.mod_two_eq_zero_or_one (a / den) with h | h
      · exact .inl ⟨by simp [h], by omega, fun _ => ⟨rfl, h⟩⟩
      · exact .inr ⟨by simp [h], by omega, fun _ _ => h⟩

/-- The rounded fraction is a nearest integer. -/
theorem roundMag_nearest (tie : Tie) (a : Nat) {den : Nat} (hd : 0 < den) :
    2 * a ≤ 2 * (den * roundMag tie a den) + den ∧ 2 * (den * roundMag tie a den) ≤ 2 * a + den := by
  have hdiv := Nat.div_add_mod a den
  have hmod := Nat.mod_lt a hd
  rcases roundMag_cases tie a den with ⟨h, hr, -⟩ | ⟨h, hr, -⟩
  · rw [h]
    omega
  · rw [h, Nat.mul_add_one]
    omega

/-- Of an exact half, the upper neighbour if `TIE = away`, the even one if `TIE = even`. -/
theorem roundMag_half (tie : Tie) {a den : Nat} (hd : 0 < den)
    (h : 2 * a = 2 * (den * roundMag tie a den) + den ∨ 2 * (den * roundMag tie a den) = 2 * a + den) :
    (tie = .away → a < den * roundMag tie a den) ∧ (tie = .even → roundMag tie a den % 2 = 0) := by
  have hdiv := Nat.div_add_mod a den
  have hmod := Nat.mod_lt a hd
  rcases roundMag_cases tie a den with ⟨hR, hr, htie⟩ | ⟨hR, hr, htie⟩
  · rw [hR] at h ⊢
    obtain ⟨rfl, heven⟩ := htie (by omega)
    exact ⟨fun ht => (nomatch ht), fun _ => heven⟩
  · rw [hR, Nat.mul_add_one] at h ⊢
    exact ⟨fun _ => by omega, fun ht => by have := htie (by omega) ht; omega⟩

/-- `round_TIE` is odd: the sign of the fraction is that of the result. -/
theorem roundTie_sign (tie : Tie) (num : Int) (den : Nat) :
    ∃ (e : Int) (a : Nat), |e| = 1 ∧ num = e * a ∧ roundTie tie num den = e * roundMag tie a den := by
  rw [roundTie_eq]
  split_ifs with h
  · exact ⟨-1, num.natAbs, rfl, by omega, by ring⟩
  · exact ⟨1, num.natAbs, rfl, by omega, by ring⟩

/-- Settles O24: the sign goes through, and of the magnitude both claims hold. -/
theorem roundsToNearest : Obligations.RoundsToNearest := by
  intro tie num den hd
  obtain ⟨e, a, he, rfl, hround⟩ := roundTie_sign tie num den
  have hprod : (den : Int) * roundTie tie (e * a) den = e * (den * roundMag tie a den : Nat) := by
    rw [hround, Nat.cast_mul]
    ring
  have hdiff : |2 * ((den : Int) * roundTie tie (e * a) den - e * a)| =
      |2 * (((den * roundMag tie a den : Nat) : Int) - a)| := by
    rw [hprod, ← mul_sub, mul_left_comm, abs_mul, he, one_mul]
  obtain ⟨hle, hge⟩ := roundMag_nearest tie a hd
  rw [hdiff]
  refine ⟨abs_le.2 (by omega), fun hhalf => ?_⟩
  obtain ⟨haway, heven⟩ := roundMag_half tie (a := a) hd
    (by rcases (abs_eq (Int.natCast_nonneg den)).1 hhalf with h | h <;> omega)
  refine ⟨fun ht => ?_, fun ht => ?_⟩
  · rw [hprod, abs_mul, abs_mul, he, one_mul, one_mul, Nat.abs_cast, Nat.abs_cast]
    exact Int.ofNat_lt.2 (haway ht)
  · rw [hround]
    exact Int.emod_eq_zero_of_dvd (Dvd.dvd.mul_left (by exact_mod_cast Nat.dvd_of_mod_eq_zero (heven ht)) e)

section bounds

variable (tie : Tie) {num k : Int} {den : Nat} (hd : 0 < den)
include hd

/-- The error of a rounded fraction is at most one half, as two inequalities (00_scope R11). -/
theorem roundTie_bounds :
    2 * num ≤ 2 * ((den : Int) * roundTie tie num den) + den ∧
    2 * ((den : Int) * roundTie tie num den) ≤ 2 * num + den := by
  have h := abs_le.1 (roundsToNearest tie num den hd).1
  omega

theorem roundTie_le (h : 2 * num < (2 * k + 1) * den) : roundTie tie num den ≤ k := by
  have hbound := (roundTie_bounds tie (num := num) hd).2
  have hlt : (den : Int) * roundTie tie num den < den * (k + 1) := by linarith
  exact Int.lt_add_one_iff.1 (lt_of_mul_lt_mul_left hlt (Int.natCast_nonneg den))

theorem le_roundTie (h : (2 * k - 1) * den < 2 * num) : k ≤ roundTie tie num den := by
  have hbound := (roundTie_bounds tie (num := num) hd).1
  have hlt : (den : Int) * (k - 1) < den * roundTie tie num den := by linarith
  exact Int.sub_one_lt_iff.1 (lt_of_mul_lt_mul_left hlt (Int.natCast_nonneg den))

/-- Rounding an integer multiple of the denominator gives the multiplier. -/
theorem roundTie_mul : roundTie tie (k * den) den = k :=
  have hd' : (0 : Int) < den := by exact_mod_cast hd
  le_antisymm (roundTie_le tie hd (by linarith)) (le_roundTie tie hd (by linarith))

end bounds

/-- Settles O25: inside the range the clamp does nothing on either side, and beyond it the rounded fraction is
beyond it as well. -/
theorem roundAndClampCommute : Obligations.RoundAndClampCommute := by
  intro tie num den hd
  by_cases hlo : num ≤ -8 * den
  · rw [clamp_of_le hlo (by omega), roundTie_mul tie hd, clamp_of_le (roundTie_le tie hd (by omega)) (by decide)]
  · by_cases hhi : 7 * den ≤ num
    · rw [clamp_of_ge hhi (by omega), roundTie_mul tie hd, clamp_of_ge (le_roundTie tie hd (by omega)) (by decide)]
    · rw [clamp_of_mem (by omega) (by omega),
        clamp_of_mem (le_roundTie tie hd (by omega)) (roundTie_le tie hd (by omega))]

/-! ### The round-trip error -/

theorem quantWeight_mem (tie : Tie) (s : BitVec 2) (w : Word) :
    -8 ≤ quantWeight tie s w ∧ quantWeight tie s w ≤ 7 := by
  unfold quantWeight clamp
  split_ifs <;> omega

/-- The 8-bit result is the exact value in the domain of 41_dequantization R158. -/
theorem shiftWrap_ofInt_eq_iff {q : Int} (h : -8 ≤ q ∧ q ≤ 7) (s : BitVec 2) :
    shiftWrap 8 (BitVec.ofInt 8 q) (s.setWidth 8) = q * scaleFactor s ↔ s ≠ 3 ∨ (-2 ≤ q ∧ q ≤ 1) := by
  have table : ∀ q ∈ Finset.Icc (-8 : Int) 7, ∀ s : BitVec 2,
      shiftWrap 8 (BitVec.ofInt 8 q) (s.setWidth 8) = q * scaleFactor s ↔ s ≠ 3 ∨ (-2 ≤ q ∧ q ≤ 1) := by
    decide
  exact table q (Finset.mem_Icc.2 h) s

theorem scaleStep_pos (s : BitVec 2) : 0 < f32One * scaleFactor s :=
  Nat.mul_pos f32One_pos (Nat.pow_pos (by decide))

/-- Settles O26: the bounds on the rounded fraction, with the clamp's effect in each range. -/
theorem roundTripErrorBound : Obligations.RoundTripErrorBound := by
  intro tie s w
  have hdomain := shiftWrap_ofInt_eq_iff (quantWeight_mem tie s w) s
  have hd := scaleStep_pos s
  simp only [← Nat.cast_mul]
  unfold quantWeight at hdomain ⊢
  generalize f32One * scaleFactor s = step at *
  generalize f32Units w = x at *
  refine ⟨fun hlo hhi => ?_, fun hhi => ?_, fun hlo => ?_, hdomain⟩
  · obtain ⟨h1, h2⟩ := roundTie_bounds tie (num := x) hd
    have hr1 : -9 ≤ roundTie tie x step := le_roundTie tie hd (by omega)
    have hr2 : roundTie tie x step ≤ 8 := roundTie_le tie hd (by omega)
    generalize roundTie tie x step = r at *
    rcases eq_or_lt_of_le hr2 with rfl | hr2
    · rw [clamp_of_ge (by decide) (by decide)]
      exact abs_le.2 (by omega)
    · rcases eq_or_lt_of_le hr1 with rfl | hr1
      · rw [clamp_of_le (by decide) (by decide)]
        exact abs_le.2 (by omega)
      · rw [clamp_of_mem (by omega) (by omega), mul_comm r]
        exact abs_le.2 (by omega)
  · have hr : 8 ≤ roundTie tie x step := le_roundTie tie hd (by omega)
    rw [clamp_of_ge (by omega) (by decide)]
    omega
  · have hr : roundTie tie x step ≤ -9 := roundTie_le tie hd (by omega)
    rw [clamp_of_le (by omega) (by decide)]
    omega

end Sys2Proof.Machine
end

section
/-!
SUPPORT. The codec's micro-operations and QUANT taken whole: one invariant of its two nested loops gives every byte
that it writes, what it leaves, and where it refuses.
-/
namespace Sys2Proof.Machine

variable {p : Params} {s t u : State} {g i : Nat}

/-! ### The micro-operations -/

theorem nibble_packByte_zero (q0 q1 : Int) : nibble (packByte q0 q1) 0 = BitVec.ofInt 4 q0 :=
  BitVec.extractLsb'_append_eq_right

theorem nibble_packByte_one (q0 q1 : Int) : nibble (packByte q0 q1) 1 = BitVec.ofInt 4 q1 :=
  BitVec.extractLsb'_append_eq_left

/-- Settles O27: the running maximum of the group is its largest magnitude. -/
theorem qscaleDerivesScale : Obligations.QscaleDerivesScale := by
  intro s g n hg hlen hfin
  obtain ⟨hle, hmem⟩ := groupMax_spec s.bufs (g * n) n
  exact ⟨qscaleDone g s, groupMax s.bufs (g * n) n, qscaleOp_eq_next.2 ⟨hg, hlen, hfin, rfl⟩, hle, hmem,
    rfl, rfl, rfl, rfl, rfl⟩

/-- Settles O28: the one byte written is `packByte` of the two quantized weights. -/
theorem qpairPacksTwoWeights : Obligations.QpairPacksTwoWeights := by
  intro s f hg hi hqs hwf hpw hf hf'
  exact ⟨qpairDone Config.params s.seq.g.toNat s.seq.i.toNat s, _,
    qpairOp_eq_next.2 ⟨⟨hg, hi⟩, hqs, hwf, hpw, ⟨hf, hf'⟩, rfl⟩, cellGet_cellSet_same _ _ _,
    nibble_packByte_zero _ _, nibble_packByte_one _ _, fun a ha => cellGet_cellSet_ne _ _ ha, rfl, rfl, rfl, rfl, rfl⟩

/-! ### The state QUANT works on -/

/-- QUANT once CHECK has passed: the dimensions latched, the phase its own (40_quantization_codec R131). -/
def quantStart (s : State) : State := enterQuant (latched 0x01 (startCommand 0x01 s))

@[simp] theorem quantStart_lat (s : State) : (quantStart s).seq.lat = { s.regs.dims with m := s.seq.lat.m } := rfl

@[simp] theorem quantStart_bufs (s : State) : (quantStart s).bufs = s.bufs := rfl

theorem quantOp_of_pass (h : quantCause p s.regs = none) : quantOp p s =
    andThen (loop (quantStart s).seq.lat.groups (quantGroup p) (quantStart s)) fun u => .next (finish u) := by
  have hcheck : checkCause p 0x01 (startCommand 0x01 s).regs = none := h
  rw [quantOp, afterCheck_pass hcheck, checkOp, hcheck]
  rfl

theorem quantCause_eq_none {r : Regs} : quantCause p r = none ↔
    (1 ≤ r.dimK.toNat ∧ r.dimK.toNat ≤ p.capK ∧ 1 ≤ r.dimN.toNat ∧ r.dimN.toNat ≤ p.capN) ∧
    (2 ≤ r.dimG.toNat ∧ r.dimG.toNat % 2 = 0) ∧ r.dimK.toNat * r.dimN.toNat % r.dimG.toNat = 0 ∧
    r.lenWF.toNat = r.dimK.toNat * r.dimN.toNat ∧ r.lenPW.toNat = r.dimK.toNat * r.dimN.toNat / 2 ∧
    r.lenSC.toNat = r.dimK.toNat * r.dimN.toNat / r.dimG.toNat := by
  unfold quantCause
  simp only []
  split_ifs <;> simp_all

/-- `WF` holds the weights, one for each place of the matrix (40_quantization_codec R137). -/
theorem lenWF_of_pass {r : Regs} (h : quantCause p r = none) : r.len .wf = r.dimK.toNat * r.dimN.toNat := by
  obtain ⟨-, -, -, hwf, -, -⟩ := quantCause_eq_none.1 h
  exact hwf

/-- The latched dimensions cut the weights into groups and pairs, and the buffers have an element for each
(40_quantization_codec R137, 30_encoding R94). -/
structure CodecSizes (s : State) : Prop where
  groups_pos : 0 < s.seq.lat.groups
  pairs_pos : 0 < s.seq.lat.pairs
  group : s.seq.lat.g.toNat = 2 * s.seq.lat.pairs
  wf : s.regs.len .wf = s.seq.lat.groups * s.seq.lat.g.toNat
  pw : s.regs.len .pw = s.seq.lat.groups * s.seq.lat.pairs
  sc : s.regs.len .sc = s.seq.lat.groups

theorem codecSizes_quantStart (h : quantCause p s.regs = none) : CodecSizes (quantStart s) := by
  obtain ⟨⟨hk, -, hn, -⟩, ⟨hg, heven⟩, hdvd, hwf, hpw, hsc⟩ := quantCause_eq_none.1 h
  have hpos : 0 < s.regs.dimK.toNat * s.regs.dimN.toNat := Nat.mul_pos hk hn
  have hgroup : s.regs.dimG.toNat = 2 * (s.regs.dimG.toNat / 2) := by omega
  have htotal := Nat.div_mul_cancel (Nat.dvd_of_mod_eq_zero hdvd)
  refine ⟨Nat.pos_of_ne_zero fun h0 => ?_, Nat.div_pos hg (by decide), hgroup, hwf.trans htotal.symm, ?_, hsc⟩
  · have h0 : s.regs.dimK.toNat * s.regs.dimN.toNat / s.regs.dimG.toNat = 0 := h0
    rw [h0] at htotal
    omega
  · have hbytes : ∀ n : Nat, n * s.regs.dimG.toNat = 2 * (n * (s.regs.dimG.toNat / 2)) := fun n => by
      rw [Nat.mul_left_comm, ← hgroup]
    exact hpw.trans (Nat.div_eq_of_eq_mul_right (by decide) (htotal.symm.trans (hbytes _)))

/-- A group's weights lie in `WF`. -/
theorem CodecSizes.group_in_range (hs : CodecSizes s) (hg : g < s.seq.lat.groups) :
    g * s.seq.lat.g.toNat + s.seq.lat.g.toNat ≤ s.regs.len .wf := by
  rw [hs.wf, ← Nat.succ_mul]
  exact Nat.mul_le_mul_right _ hg

/-- Every weight of a group is finite (40_quantization_codec R134). -/
def GroupFinite (s : State) (g : Nat) : Prop :=
  ∀ x < s.seq.lat.g.toNat, f32Finite (s.bufs.word .wf (g * s.seq.lat.g.toNat + x)) = true

/-! ### The invariant of QUANT's loops -/

/-- The byte of `PW` at address `a` after a QUANT with groups of `n`: the weights `2 * a` and `2 * a + 1`
(40_quantization_codec R131, 30_encoding R93). -/
def pairByte (tie : Tie) (b : Bufs) (n a : Nat) : Byte :=
  packByte (quantValue tie b n (2 * a)) (quantValue tie b n (2 * a + 1))

/-- The packed byte of pair `i` of group `g`, in groups of `k` pairs: both weights take the scale of their own group
(40_quantization_codec R126). -/
theorem pairByte_of_group (tie : Tie) (b : Bufs) {n k : Nat} (hn : n = 2 * k) (g : Nat) (hi : i < k) :
    pairByte tie b n (g * k + i) =
      packByte (quantWeight tie (groupScale b n g) (b.word .wf (g * n + 2 * i)))
        (quantWeight tie (groupScale b n g) (b.word .wf (g * n + (2 * i + 1)))) := by
  have hplace : ∀ x < 2, (g * n + (2 * i + x)) / n = g := fun x hx => by
    rw [Nat.add_comm, Nat.add_mul_div_right _ _ (by omega), Nat.div_eq_of_lt (by omega), Nat.zero_add]
  have hindex : 2 * (g * k + i) = g * n + 2 * i := by
    rw [hn]
    ring
  have h0 := hplace 0 (by decide)
  have h1 := hplace 1 (by decide)
  rw [Nat.add_zero] at h0
  simp only [pairByte, quantValue, hindex, Nat.add_assoc, h0, h1]

/-- What QUANT has done to `s` when it has written the scale bytes below `scales` and the packed bytes below `bytes`. -/
structure Quantized (p : Params) (s : State) (scales bytes : Nat) (u : State) : Prop where
  regs : u.regs = s.regs
  env : u.env = s.env
  bufs : u.bufs = { s.bufs with pw := u.bufs.pw, sc := u.bufs.sc }
  scr : u.scr = { s.scr with qs := u.scr.qs, qsSet := u.scr.qsSet }
  seq : u.seq = { s.seq with g := u.seq.g, i := u.seq.i }
  qs : 0 < scales → u.scr.qsSet = true ∧ u.scr.qs = groupScale s.bufs s.seq.lat.g.toNat (scales - 1)
  sc : ∀ a, cellGet (w := 8) u.bufs.sc a =
    if a < scales then some ((groupScale s.bufs s.seq.lat.g.toNat a).setWidth 8) else cellGet (w := 8) s.bufs.sc a
  pw : ∀ a, cellGet (w := 8) u.bufs.pw a =
    if a < bytes then some (pairByte p.tie s.bufs s.seq.lat.g.toNat a) else cellGet (w := 8) s.bufs.pw a

/-- Writing the next cell of an array that is written from its start. -/
theorem cellGet_cellSet_next {m old : Memory} {f : Nat → Byte} {n : Nat}
    (h : ∀ a, cellGet (w := 8) m a = if a < n then some (f a) else cellGet (w := 8) old a) (a : Nat) :
    cellGet (w := 8) (cellSet (w := 8) m n (f n)) a =
      if a < n + 1 then some (f a) else cellGet (w := 8) old a := by
  rw [cellGet_cellSet, h]
  rcases Nat.lt_trichotomy a n with ha | rfl | ha
  · rw [if_neg (by omega), if_pos ha, if_pos (by omega)]
  · rw [if_pos rfl, if_pos (by omega)]
  · rw [if_neg (by omega), if_neg (by omega), if_neg (by omega)]

theorem Quantized.start (p : Params) (s : State) : Quantized p s 0 0 s :=
  ⟨rfl, rfl, rfl, rfl, rfl, fun h => absurd h (Nat.lt_irrefl 0), fun _ => rfl, fun _ => rfl⟩

section invariant

variable {scales bytes : Nat}

theorem Quantized.lat (h : Quantized p s scales bytes u) : u.seq.lat = s.seq.lat := by
  rw [h.seq]

theorem Quantized.word (h : Quantized p s scales bytes u) (f : Nat) : u.bufs.word .wf f = s.bufs.word .wf f := by
  rw [h.bufs]
  rfl

theorem Quantized.groupMax_eq (h : Quantized p s scales bytes u) (base n : Nat) :
    groupMax u.bufs base n = groupMax s.bufs base n := by
  simp only [groupMax, h.word]

/-- QSCALE on a group all finite, and the scale byte (40_quantization_codec R131). -/
theorem Quantized.scale (hs : CodecSizes s) (h : Quantized p s g bytes u) (hg : g < s.seq.lat.groups)
    (hfin : GroupFinite s g) :
    qscaleOp g u = .next (qscaleDone g u) ∧
    storeScale g (qscaleDone g u) = .next (storeScaleDone g (qscaleDone g u)) ∧
    Quantized p s (g + 1) bytes (storeScaleDone g (qscaleDone g u)) := by
  have hqs : (qscaleDone g u).scr.qs = groupScale s.bufs s.seq.lat.g.toNat g := by
    simp only [qscaleDone, groupScale, h.lat, h.groupMax_eq]
  refine ⟨qscaleOp_eq_next.2 ?_, storeScale_eq_next.2 ⟨?_, rfl⟩, ?_⟩
  · simp only [h.lat, h.regs, h.word]
    exact ⟨hg, hs.group_in_range hg, hfin, trivial⟩
  · rwa [qscaleDone_regs, h.regs, hs.sc]
  · exact
    { h with
      bufs := by
        change { u.bufs with sc := (storeScaleDone g (qscaleDone g u)).bufs.sc } = _
        rw [h.bufs]
        rfl
      scr := by
        change { u.scr with qs := (qscaleDone g u).scr.qs, qsSet := true } = _
        rw [h.scr]
        rfl
      qs := fun _ => ⟨rfl, hqs⟩
      sc := fun a => by
        rw [storeScaleDone_sc, hqs]
        exact cellGet_cellSet_next h.sc a }

/-- QPAIR on a pair of a group all finite (40_quantization_codec R131). -/
theorem Quantized.pair (hs : CodecSizes s) (h : Quantized p s (g + 1) (g * s.seq.lat.pairs + i) u)
    (hg : g < s.seq.lat.groups) (hi : i < s.seq.lat.pairs) (hfin : GroupFinite s g) :
    qpairOp p g i u = .next (qpairDone p g i u) ∧
    Quantized p s (g + 1) (g * s.seq.lat.pairs + i + 1) (bumpPair (qpairDone p g i u)) := by
  obtain ⟨hset, hqs⟩ := h.qs (Nat.succ_pos g)
  have hidx : pairIndex u g i = g * s.seq.lat.g.toNat + 2 * i := by rw [pairIndex, h.lat]
  have hsize := hs.group
  have haddr : pairIndex u g i / 2 = g * s.seq.lat.pairs + i := by
    rw [hidx, hsize, Nat.mul_left_comm, ← Nat.mul_add, Nat.mul_div_cancel_left _ (by decide)]
  have hbyte : packByte (quantWeight p.tie u.scr.qs (u.bufs.word .wf (pairIndex u g i)))
      (quantWeight p.tie u.scr.qs (u.bufs.word .wf (pairIndex u g i + 1))) =
      pairByte p.tie s.bufs s.seq.lat.g.toNat (g * s.seq.lat.pairs + i) := by
    rw [pairByte_of_group _ _ hsize g hi, hqs, hidx, h.word, h.word]
    rfl
  refine ⟨qpairOp_eq_next.2 ?_, ?_⟩
  · rw [haddr]
    simp only [hidx, h.regs, h.word, h.lat, hs.wf, hs.pw]
    exact ⟨⟨hg, hi⟩, hset, row_major_lt hg (j := 2 * i + 1) (by omega), row_major_lt hg hi,
      ⟨hfin _ (by omega), hfin (2 * i + 1) (by omega)⟩, trivial⟩
  · exact
    { h with
      bufs := by
        change { u.bufs with pw := (qpairDone p g i u).bufs.pw } = _
        rw [h.bufs]
        rfl
      seq := by
        change { u.seq with g := (bumpPair (qpairDone p g i u)).seq.g, i := (bumpPair (qpairDone p g i u)).seq.i } = _
        rw [h.seq]
      pw := fun a => by
        change cellGet (cellSet u.bufs.pw (pairIndex u g i / 2) (packByte _ _)) a = _
        rw [hbyte, haddr]
        exact cellGet_cellSet_next h.pw a }

/-- A group all finite completes (40_quantization_codec R131). -/
theorem Quantized.group (hs : CodecSizes s) (h : Quantized p s g (g * s.seq.lat.pairs) u)
    (hg : g < s.seq.lat.groups) (hfin : GroupFinite s g) :
    ∃ v, quantGroup p g u = .next v ∧ Quantized p s (g + 1) ((g + 1) * s.seq.lat.pairs) v := by
  obtain ⟨hscale, hstore, h0⟩ := h.scale hs hg hfin
  obtain ⟨v, hv, hI⟩ := loop_completes (I := fun i v => Quantized p s (g + 1) (g * s.seq.lat.pairs + i) v)
    (n := s.seq.lat.pairs) (body := fun i v => andThen (qpairOp p g i v) fun w => .next (bumpPair w)) h0
    fun i v hi hv => by
      obtain ⟨hpair, hnext⟩ := hv.pair hs hg hi hfin
      exact ⟨_, by rw [hpair, andThen_next], hnext⟩
  refine ⟨v, quantGroup_eq_next.2 ⟨_, _, hscale, hstore, by rwa [h0.lat]⟩, ?_⟩
  rwa [Nat.succ_mul]

/-- A group that holds a NaN or an infinity is refused (40_quantization_codec R134). -/
theorem Quantized.group_refused (hs : CodecSizes s) (h : Quantized p s g bytes u)
    (hg : g < s.seq.lat.groups) (hfin : ¬GroupFinite s g) : quantGroup p g u = .refused .nonFiniteWeight := by
  have hbad : (!(List.range s.seq.lat.g.toNat).all fun x =>
      f32Finite (s.bufs.word .wf (g * s.seq.lat.g.toNat + x))) = true := by
    rw [Bool.not_eq_true', ← Bool.not_eq_true]
    simpa [GroupFinite] using hfin
  have hrefused : qscaleOp g u = .refused .nonFiniteWeight := by
    simp only [qscaleOp, h.lat, h.regs, h.word, hg, hs.group_in_range hg, hbad, decide_true, demand_true, refuseIf_true]
  rw [quantGroup, hrefused, andThen_refused]

end invariant

/-! ### The command -/

/-- A loop whose good rounds complete and keep its invariant is refused if one of its rounds is not good. -/
theorem loopFrom_refused {body : Nat → State → Run} {I : Nat → State → Prop} {good : Nat → Prop} {e : Refusal}
    {n j : Nat} (h0 : I i s)
    (hgood : ∀ j u, i ≤ j → j < i + n → good j → I j u → ∃ v, body j u = .next v ∧ I (j + 1) v)
    (hbad : ∀ j u, i ≤ j → j < i + n → ¬good j → I j u → body j u = .refused e)
    (hij : i ≤ j) (hj : j < i + n) (h : ¬good j) : loopFrom body n i s = .refused e := by
  induction n generalizing i s with
  | zero => omega
  | succ n ih =>
    rw [loopFrom_succ]
    by_cases hi : good i
    · obtain ⟨v, hv, hI⟩ := hgood i s (Nat.le_refl i) (by omega) hi h0
      have hne : i ≠ j := fun he => h (he ▸ hi)
      rw [hv, andThen_next]
      exact ih hI (fun j u h1 h2 => hgood j u (by omega) (by omega)) (fun j u h1 h2 => hbad j u (by omega) (by omega))
        (by omega) (by omega)
    · rw [hbad i s (Nat.le_refl i) (by omega) hi h0, andThen_refused]

/-- A QUANT within its contract ends with every scale byte and every packed byte written. -/
theorem quantOp_completes (h : QuantReady p s) :
    ∃ u, loop (quantStart s).seq.lat.groups (quantGroup p) (quantStart s) = .next u ∧
      quantOp p s = .next (finish u) ∧
      Quantized p (quantStart s) (quantStart s).seq.lat.groups
        ((quantStart s).seq.lat.groups * (quantStart s).seq.lat.pairs) u := by
  have hs := codecSizes_quantStart h.check
  have hfin : ∀ g < (quantStart s).seq.lat.groups, GroupFinite (quantStart s) g := fun g hg x hx => by
    refine h.finite _ ?_
    rw [← lenWF_of_pass h.check]
    exact Nat.lt_of_lt_of_eq (row_major_lt hg hx) hs.wf.symm
  obtain ⟨u, hu, hI⟩ := loop_completes
    (I := fun g u => Quantized p (quantStart s) g (g * (quantStart s).seq.lat.pairs) u)
    (n := (quantStart s).seq.lat.groups) (body := quantGroup p)
    (by rw [Nat.zero_mul]; exact Quantized.start p (quantStart s)) fun g u hg hu => hu.group hs hg (hfin g hg)
  exact ⟨u, hu, by rw [quantOp_of_pass h.check, hu, andThen_next], hI⟩

/-- The select of an even index is 0, of an odd one 1 (30_encoding R99). -/
theorem selOf_cases (f : Nat) : selOf f = 0 ∧ 2 * (f / 2) = f ∨ selOf f = 1 ∧ 2 * (f / 2) + 1 = f := by
  rcases Nat.mod_two_eq_zero_or_one f with h | h
  · exact .inl ⟨BitVec.eq_of_toNat_eq (by simpa [selOf] using h), by omega⟩
  · exact .inr ⟨BitVec.eq_of_toNat_eq (by simpa [selOf] using h), by omega⟩

/-- Weight `f` stands in the nibble that its parity selects (30_encoding R93, R99). -/
theorem nibble_pairByte (tie : Tie) (b : Bufs) (n f : Nat) :
    nibble (pairByte tie b n (f / 2)) (selOf f) = BitVec.ofInt 4 (quantValue tie b n f) := by
  rcases selOf_cases f with ⟨hsel, hf⟩ | ⟨hsel, hf⟩
  · rw [hsel, pairByte, nibble_packByte_zero, hf]
  · rw [hsel, pairByte, nibble_packByte_one, hf]

/-- Settles O29: the loops' invariant after the last group, with every group and every pair written. -/
theorem quantCommandResult : Obligations.QuantCommandResult := by
  intro s h total g
  obtain ⟨u, -, hrun, hI⟩ := quantOp_completes h
  have hs := codecSizes_quantStart h.check
  obtain ⟨-, -, -, hwf, hpw, -⟩ := quantCause_eq_none.1 h.check
  have hbytes : (quantStart s).seq.lat.groups * (quantStart s).seq.lat.pairs = total / 2 := hs.pw.symm.trans hpw
  have heven : total = 2 * (total / 2) := by
    rw [← hbytes, Nat.mul_left_comm, ← hs.group]
    exact hwf.symm.trans hs.wf
  refine ⟨finish u, hrun, fun x hx => ?_, fun f hf => ?_, fun a ha => ?_, fun a ha => ?_, ?_, ?_, ?_, ?_, ?_⟩
  · exact (hI.sc x).trans (if_pos hx)
  · exact ⟨_, (hI.pw (f / 2)).trans (if_pos (by omega)), nibble_pairByte _ _ _ _⟩
  · exact (hI.sc a).trans (if_neg (Nat.not_lt.2 ha))
  · exact (hI.pw a).trans (if_neg (by omega))
  · exact hI.bufs
  · rw [finish, hI.regs]
    rfl
  · change u.scr = { s.scr with qs := u.scr.qs, qsSet := true }
    rw [← (hI.qs hs.groups_pos).1]
    exact hI.scr
  · change { u.seq with phase := .idle } = _
    rw [hI.seq]
    rfl
  · exact hI.env

/-- What a QUANT within its contract leaves for one group: its scale byte and its packed bytes. -/
theorem exec_quant_group (h : QuantReady Config.params s) :
    ∃ t, exec .quant s = .next t ∧
      ∀ x < s.regs.dimK.toNat * s.regs.dimN.toNat / s.regs.dimG.toNat,
        cellGet (w := 8) t.bufs.sc x = some ((groupScale s.bufs s.regs.dimG.toNat x).setWidth 8) ∧
        ∀ y < s.regs.dimG.toNat / 2, cellGet (w := 8) t.bufs.pw (x * (s.regs.dimG.toNat / 2) + y) =
          some (packByte
            (quantWeight .away (groupScale s.bufs s.regs.dimG.toNat x)
              (s.bufs.word .wf (x * s.regs.dimG.toNat + 2 * y)))
            (quantWeight .away (groupScale s.bufs s.regs.dimG.toNat x)
              (s.bufs.word .wf (x * s.regs.dimG.toNat + (2 * y + 1))))) := by
  obtain ⟨u, -, hrun, hI⟩ := quantOp_completes h
  have hs := codecSizes_quantStart h.check
  refine ⟨finish u, hrun, fun x hx => ⟨(hI.sc x).trans (if_pos hx), fun y hy => ?_⟩⟩
  exact ((hI.pw _).trans (if_pos (row_major_lt hx hy))).trans (congrArg some (pairByte_of_group _ _ hs.group x hy))

theorem groupMax_eq_zero {m : Bufs} {base n : Nat} (h : ∀ x < n, f32Mag (m.word .wf (base + x)) = 0) :
    groupMax m base n = 0 := by
  rcases (groupMax_spec m base n).2 with h0 | ⟨x, hx, he⟩
  · exact h0
  · rw [he, h x hx]

theorem f32Mag_eq_zero {w : Word} (h : f32Units w = 0) : f32Mag w = 0 := by
  unfold f32Units at h
  split_ifs at h <;> omega

theorem quantWeight_eq_zero (tie : Tie) (s : BitVec 2) {w : Word} (h : f32Units w = 0) : quantWeight tie s w = 0 := by
  have hzero := roundTie_mul tie (k := 0) (scaleStep_pos s)
  rw [zero_mul] at hzero
  rw [quantWeight, h, hzero]
  rfl

/-- Settles O30: the largest magnitude is 0, and 0 rounds to 0. -/
theorem zeroGroupQuantizesToZero : Obligations.ZeroGroupQuantizesToZero := by
  intro s x h hx hzero
  obtain ⟨t, hrun, hgroup⟩ := exec_quant_group h
  obtain ⟨hsc, hpw⟩ := hgroup x hx
  have hscale : groupScale s.bufs s.regs.dimG.toNat x = 0 := by
    rw [groupScale, groupMax_eq_zero fun y hy => f32Mag_eq_zero (hzero y hy)]
    rfl
  refine ⟨t, hrun, by rw [hsc, hscale]; rfl, fun y hy => ?_⟩
  rw [hpw y hy, quantWeight_eq_zero _ _ (hzero _ (by omega)), quantWeight_eq_zero _ _ (hzero _ (by omega))]
  rfl

theorem groupMax_congr {m m' : Bufs} {base n : Nat}
    (h : ∀ x < n, m.word .wf (base + x) = m'.word .wf (base + x)) : groupMax m base n = groupMax m' base n := by
  refine List.foldl_ext _ _ _ fun ma x hx => ?_
  rw [h x (List.mem_range.1 hx)]

/-- Settles O31: the scale and both weights of a pair are read from the group's own words. -/
theorem groupsAreIndependent : Obligations.GroupsAreIndependent := by
  intro s s' x h h' hk hn hg hx hwords
  obtain ⟨t, hrun, hgroup⟩ := exec_quant_group h
  obtain ⟨t', hrun', hgroup'⟩ := exec_quant_group h'
  obtain ⟨hsc, hpw⟩ := hgroup x hx
  rw [← hk, ← hn, ← hg] at hgroup'
  obtain ⟨hsc', hpw'⟩ := hgroup' x hx
  have hscale : groupScale s.bufs s.regs.dimG.toNat x = groupScale s'.bufs s.regs.dimG.toNat x :=
    congrArg scaleOf (groupMax_congr hwords)
  refine ⟨t, t', hrun, hrun', by rw [hsc, hsc', hscale], fun y hy => ?_⟩
  rw [hpw y hy, hpw' y hy, hscale, hwords _ (by omega), hwords _ (by omega)]

/-- Settles O32: the groups before the first that holds the weight complete, and that one is refused. -/
theorem nonFiniteWeightRefused : Obligations.NonFiniteWeightRefused := by
  intro s f h hf hbad
  have hs := codecSizes_quantStart h
  have hlen := (lenWF_of_pass h).symm.trans hs.wf
  have hpos : 0 < (quantStart s).seq.lat.g.toNat := by
    have := hs.pairs_pos
    have := hs.group
    omega
  have hgroup : ¬GroupFinite (quantStart s) (f / (quantStart s).seq.lat.g.toNat) := fun hfin => by
    have := hfin _ (Nat.mod_lt f hpos)
    rw [Nat.div_add_mod', quantStart_bufs, hbad] at this
    cases this
  have hloop : loop (quantStart s).seq.lat.groups (quantGroup Config.params) (quantStart s) =
      .refused .nonFiniteWeight :=
    loopFrom_refused (I := fun g u => Quantized Config.params (quantStart s) g (g * (quantStart s).seq.lat.pairs) u)
      (by rw [Nat.zero_mul]; exact Quantized.start _ _)
      (fun g u _ hg hfin hu => hu.group hs (by omega) hfin)
      (fun g u _ hg hfin hu => hu.group_refused hs (by omega) hfin)
      (Nat.zero_le _) (by rw [Nat.zero_add]; exact Nat.div_lt_of_lt_mul (by rwa [Nat.mul_comm, ← hlen])) hgroup
  exact (quantOp_of_pass h).trans (by rw [hloop, andThen_refused])

end Sys2Proof.Machine
end

section
/-!
SUPPORT. QUANT step by step: each round of the loops of QUANT taken whole is one or two steps of the sequencer, from
and to states that differ in the issue slot only.
-/
namespace Sys2Proof.Machine

variable {s t u v : State} {d : Dims} {g i : Nat} {op : Instr}

/-! ### Runs -/

/-- Any number of steps, each of which answers a next state. -/
abbrev Steps : State → State → Prop := Relation.ReflTransGen fun u v => step u = .next v

theorem Steps.exists_stepN (h : Steps s t) : ∃ n, stepN n s = .next t := by
  induction h using Relation.ReflTransGen.head_induction_on with
  | refl => exact ⟨0, rfl⟩
  | head hstep _ ih =>
    obtain ⟨n, hn⟩ := ih
    exact ⟨n + 1, (stepN_succ_of_next n hstep).trans hn⟩

/-- A step of a running command: the operation in the issue slot, and what follows it. -/
theorem step_issueOp (hd : s.env.script = []) (hexec : exec op (takeIssue s) = .next u)
    (hu : u.regs.status = .busy) (hnext : sequel Config.params op u = .next t) : step (issueOp op s) = .next t := by
  have hrun : exec op (takeIssue (issueOp op s)) = .next u := hexec
  rw [step_of_nil (s := issueOp op s) hd, blockStep_of_issue rfl, hrun, andThen_next, advance_of_busy hu, hnext]

/-! ### The sequencer's place in QUANT -/

/-- A QUANT with dimensions `d` runs, and pair `i` of group `g` comes next. -/
structure AtPair (d : Dims) (g i : Nat) (s : State) : Prop where
  script : s.env.script = []
  status : s.regs.status = .busy
  lat : s.seq.lat = d
  g : s.seq.g.toNat = g
  i : s.seq.i.toNat = i

/-- What the sequencer does once a pair is done: the next operation, or the end of the command. -/
def resumeQuant (s : State) : State :=
  if groupsDone s then finish (takeIssue s) else if s.seq.i = 0 then issueOp .qscale s else issueOp .qpair s

theorem afterPair_takeIssue (s : State) : afterPair (takeIssue s) = resumeQuant (bumpPair s) := rfl

theorem AtPair.groupsDone_eq_false (h : AtPair d g i s) (hg : g < d.groups) : groupsDone s = false :=
  decide_eq_false (by rw [h.lat, h.g]; omega)

theorem AtPair.resume_qscale (h : AtPair d g 0 s) (hg : g < d.groups) : resumeQuant s = issueOp .qscale s := by
  have hi : s.seq.i = 0 := BitVec.eq_of_toNat_eq h.i
  rw [resumeQuant, h.groupsDone_eq_false hg, if_pos hi]
  rfl

theorem AtPair.resume_qpair (h : AtPair d g (i + 1) s) (hg : g < d.groups) : resumeQuant s = issueOp .qpair s := by
  have hi : s.seq.i ≠ 0 := fun h0 => by
    have := h.i
    rw [h0] at this
    cases this
  rw [resumeQuant, h.groupsDone_eq_false hg, if_neg hi]
  rfl

theorem AtPair.resume_finish (h : AtPair d d.groups i s) : resumeQuant s = finish (takeIssue s) := by
  have hdone : groupsDone s = true := decide_eq_true (by rw [h.lat, h.g])
  rw [resumeQuant, if_pos hdone]

theorem pairs_lt (d : Dims) : d.pairs < 2 ^ 32 := Nat.lt_of_le_of_lt (Nat.div_le_self _ _) d.g.isLt

theorem AtPair.bump_within_group (h : AtPair d g i s) (hi : i + 1 < d.pairs) : AtPair d g (i + 1) (bumpPair s) := by
  have hnext : (s.seq.i + 1).toNat = i + 1 := by
    rw [toNat_add_one_of_lt (n := d.pairs) (by rw [h.i]; omega) (pairs_lt d), h.i]
  have hend : (s.seq.i + 1).toNat ≠ s.seq.lat.pairs := by
    rw [hnext, h.lat]
    omega
  constructor <;> simp only [bumpPair, decide_eq_true_eq, if_neg hend]
  exacts [h.script, h.status, h.lat, h.g, hnext]

theorem AtPair.bump_group_end (h : AtPair d g i s) (hi : i + 1 = d.pairs) (hg : g < d.groups)
    (hgroups : d.groups < 2 ^ 32) : AtPair d (g + 1) 0 (bumpPair s) := by
  have hend : (s.seq.i + 1).toNat = s.seq.lat.pairs := by
    rw [toNat_add_one_of_lt (n := d.pairs) (by rw [h.i]; omega) (pairs_lt d), h.i, hi, h.lat]
  have hnext : (s.seq.g + 1).toNat = g + 1 := by
    rw [toNat_add_one_of_lt (n := d.groups) (by rw [h.g]; omega) hgroups, h.g]
  constructor <;> simp only [bumpPair, decide_eq_true_eq, if_pos hend]
  exacts [h.script, h.status, h.lat, hnext, rfl]

/-! ### The steps of QUANT -/

/-- QSCALE and the scale byte are one step. -/
theorem AtPair.step_qscale {w : State} (h : AtPair d g i u) (hscale : qscaleOp g u = .next v)
    (hstore : storeScale g v = .next w) :
    step (issueOp .qscale u) = .next (issueOp .qpair w) ∧ AtPair d g i w := by
  obtain ⟨hg, hlen, hfin, rfl⟩ := qscaleOp_eq_next.1 hscale
  obtain ⟨hsc, rfl⟩ := storeScale_eq_next.1 hstore
  have hexec : exec .qscale (takeIssue u) = .next (takeIssue (qscaleDone g u)) := by
    rw [show exec .qscale (takeIssue u) = qscaleOp u.seq.g.toNat (takeIssue u) from rfl, h.g]
    exact qscaleOp_eq_next.2 ⟨hg, hlen, hfin, rfl⟩
  have hstore' : storeScale g (takeIssue (qscaleDone g u)) = .next (storeScaleDone g (takeIssue (qscaleDone g u))) :=
    storeScale_eq_next.2 ⟨hsc, rfl⟩
  refine ⟨step_issueOp h.script hexec h.status ?_, h.script, h.status, h.lat, h.g, h.i⟩
  rw [sequel, takeIssue_seq_g, qscaleDone_seq, h.g, hstore']
  rfl

/-- QPAIR and the choice of what follows are one step. -/
theorem AtPair.step_qpair (h : AtPair d g i u) (hpair : qpairOp Config.params g i u = .next v) :
    step (issueOp .qpair u) = .next (resumeQuant (bumpPair v)) ∧ AtPair d g i v := by
  obtain ⟨hgi, hqs, hwf, hpw, hfin, rfl⟩ := qpairOp_eq_next.1 hpair
  have hexec : exec .qpair (takeIssue u) = .next (takeIssue (qpairDone Config.params g i u)) := by
    rw [show exec .qpair (takeIssue u) = qpairOp Config.params u.seq.g.toNat u.seq.i.toNat (takeIssue u) from rfl,
      h.g, h.i]
    exact qpairOp_eq_next.2 ⟨hgi, hqs, hwf, hpw, hfin, rfl⟩
  refine ⟨step_issueOp h.script hexec h.status ?_, h.script, h.status, h.lat, h.g, h.i⟩
  rw [← afterPair_takeIssue]
  rfl

/-- The pairs from `i` to the end of a group. -/
theorem AtPair.steps_pairs {n : Nat} (h : AtPair d g i u) (hn : i + (n + 1) = d.pairs) (hg : g < d.groups)
    (hgroups : d.groups < 2 ^ 32)
    (hloop : loopFrom (fun i x => andThen (qpairOp Config.params g i x) fun w => .next (bumpPair w)) (n + 1) i u =
      .next v) :
    Steps (issueOp .qpair u) (resumeQuant v) ∧ AtPair d (g + 1) 0 v := by
  induction n generalizing i u with
  | zero =>
    obtain ⟨w, hw, hv⟩ := andThen_eq_next.1 hloop
    obtain ⟨x, hx, hb⟩ := andThen_eq_next.1 hw
    cases hb
    cases hv
    obtain ⟨hstep, hat⟩ := h.step_qpair hx
    exact ⟨.single hstep, hat.bump_group_end hn hg hgroups⟩
  | succ n ih =>
    obtain ⟨w, hw, hv⟩ := andThen_eq_next.1 hloop
    obtain ⟨x, hx, hb⟩ := andThen_eq_next.1 hw
    cases hb
    obtain ⟨hstep, hat⟩ := h.step_qpair hx
    have hnext := hat.bump_within_group (by omega)
    obtain ⟨hsteps, hend⟩ := ih hnext (by omega) hv
    rw [hnext.resume_qpair hg] at hstep
    exact ⟨.head hstep hsteps, hend⟩

/-- One group (40_quantization_codec R131). -/
theorem AtPair.steps_group (h : AtPair d g 0 u) (hpairs : 0 < d.pairs) (hg : g < d.groups)
    (hgroups : d.groups < 2 ^ 32) (hgroup : quantGroup Config.params g u = .next v) :
    Steps (resumeQuant u) (resumeQuant v) ∧ AtPair d (g + 1) 0 v := by
  obtain ⟨x, w, hscale, hstore, hloop⟩ := quantGroup_eq_next.1 hgroup
  obtain ⟨hstep, hat⟩ := h.step_qscale hscale hstore
  obtain ⟨n, hn⟩ := Nat.exists_eq_succ_of_ne_zero hpairs.ne'
  rw [hat.lat, hn] at hloop
  obtain ⟨hsteps, hend⟩ := hat.steps_pairs ((Nat.zero_add _).trans hn.symm) hg hgroups hloop
  rw [h.resume_qscale hg]
  exact ⟨.head hstep hsteps, hend⟩

/-- CHECK is the first step of a QUANT that it passes (43_tiled_engine R182). -/
theorem step_writeCmd_quant (h : quantCause Config.params s.regs = none) (hd : s.env.script = [])
    (hgrain : s.env.grain ≠ .command) : step (writeCmd 0x01 s) = .next (issueOp .qscale (quantStart s)) := by
  have hissue : (writeCmd 0x01 s).seq.issue = some (encodeOp .check) := congrArg some (firstOp_check (.inl hgrain))
  have hcheck : checkCause Config.params 0x01 (takeIssue (writeCmd 0x01 s)).regs = none := h
  have hexec : exec .check (takeIssue (writeCmd 0x01 s)) = .next (latched 0x01 (takeIssue (writeCmd 0x01 s))) := by
    change Host.Outcome.next (checkOp Config.params 0x01 _) = _
    rw [checkOp, hcheck]
    rfl
  rw [step_of_nil (s := writeCmd 0x01 s) hd, blockStep_of_issue hissue, hexec, andThen_next, advance_of_busy rfl]
  rfl

/-- Settles O53: a QUANT taken whole completes, and the sequencer goes through its rounds. -/
theorem quantStepsEqualCommand : Obligations.QuantStepsEqualCommand := by
  intro s h hd hgrain
  obtain ⟨u, hloop, hrun, -⟩ := quantOp_completes h
  have hs := codecSizes_quantStart h.check
  have hgroups : (quantStart s).seq.lat.groups < 2 ^ 32 := hs.sc ▸ (quantStart s).regs.lenSC.isLt
  have hstart : AtPair (quantStart s).seq.lat 0 0 (quantStart s) := ⟨hd, rfl, rfl, rfl, rfl⟩
  obtain ⟨hsteps, hend⟩ := loop_inv
    (I := fun g v => Steps (resumeQuant (quantStart s)) (resumeQuant v) ∧ AtPair (quantStart s).seq.lat g 0 v) hloop
    ⟨.refl, hstart⟩ fun g v w hg ⟨hv, hat⟩ hgroup => by
      obtain ⟨hw, hnext⟩ := hat.steps_group hs.pairs_pos hg hgroups hgroup
      exact ⟨hv.trans hw, hnext⟩
  rw [hstart.resume_qscale hs.groups_pos, hend.resume_finish] at hsteps
  have hall : Steps (writeCmd 0x01 s) (finish (takeIssue u)) := .head (step_writeCmd_quant h.check hd hgrain) hsteps
  obtain ⟨n, hn⟩ := hall.exists_stepN
  exact ⟨n, finish (takeIssue u), finish u, hn, hrun, rfl, rfl, rfl, rfl, rfl⟩

end Sys2Proof.Machine
end

section
/-!
PROOFS. The dequantization primitive (41_dequantization): the nibble and the scale as numbers (R150 to R154), the
result's table, domain and range (R157 to R159), and DEQ taken whole and step by step (R161).
-/
namespace Sys2Proof.Machine

/-! ### The nibble and the scale as numbers -/

theorem nibble_toNat (byte : Byte) (sel : BitVec 1) :
    (nibble byte sel).toNat = if sel = 0 then byte.toNat % 16 else byte.toNat / 16 := by
  unfold nibble
  split
  · simp
  · rw [BitVec.extractLsb'_toNat, Nat.shiftRight_eq_div_pow]
    exact Nat.mod_eq_of_lt (Nat.div_lt_of_lt_mul byte.isLt)

/-- Setting the upper half of a byte if bit 3 is set is the sign extension (R151, R152). -/
theorem signExtendNibble_eq (n : BitVec 4) : signExtendNibble n = n.signExtend 8 := by
  revert n
  decide

theorem nibSel_toInt (byte : Byte) (sel : BitVec 1) : (nibSel byte sel).toInt = (nibble byte sel).toInt := by
  rw [nibSel, signExtendNibble_eq, BitVec.toInt_signExtend_of_le (by decide)]

/-- `q` is a signed 4-bit number (R152). -/
theorem nibSel_mem (byte : Byte) (sel : BitVec 1) : -8 ≤ (nibSel byte sel).toInt ∧ (nibSel byte sel).toInt ≤ 7 := by
  rw [nibSel_toInt]
  exact ⟨BitVec.le_toInt _, Int.lt_add_one_iff.1 BitVec.toInt_lt⟩

theorem scaleBits_toNat (scale : Byte) : (scaleBits scale).toNat = scale.toNat % 4 := by
  simp [scaleBits]

/-- The exact value is `q * 4^s` (R154). -/
theorem deqExact_eq (byte : Byte) (sel : BitVec 1) (scale : Byte) :
    deqExact byte sel scale = (nibSel byte sel).toInt * 4 ^ (scale.toNat % 4) := by
  rw [deqExact, shiftExact, scaleFactor, scaleBits_toNat]
  push_cast
  rfl

/-- The exact value at each of the four scales. -/
theorem deqExact_cases (byte : Byte) (sel : BitVec 1) (scale : Byte) :
    (scale.toNat % 4 = 0 ∧ deqExact byte sel scale = (nibSel byte sel).toInt) ∨
    (scale.toNat % 4 = 1 ∧ deqExact byte sel scale = (nibSel byte sel).toInt * 4) ∨
    (scale.toNat % 4 = 2 ∧ deqExact byte sel scale = (nibSel byte sel).toInt * 16) ∨
    (scale.toNat % 4 = 3 ∧ deqExact byte sel scale = (nibSel byte sel).toInt * 64) := by
  have hs : scale.toNat % 4 < 4 := Nat.mod_lt _ (by decide)
  rw [deqExact_eq]
  generalize scale.toNat % 4 = e at hs ⊢
  interval_cases e <;> simp

/-! ### Wrapping -/

theorem wrap_eq_self_iff {bits : Nat} {x : Int} (hb : 0 < bits) :
    wrap bits x = x ↔ -2 ^ (bits - 1) ≤ x ∧ x < 2 ^ (bits - 1) :=
  ⟨fun h => h ▸ wrap_range hb, fun ⟨h1, h2⟩ => wrap_eq_self hb h1 h2⟩

/-- A wrapped integer differs by a multiple of `2^bits`. -/
theorem wrap_sub_emod (bits : Nat) (x : Int) : (wrap bits x - x) % (2 ^ bits : Nat) = 0 :=
  Int.emod_eq_emod_iff_emod_sub_eq_zero.1 (Int.bmod_emod ..)

/-- The 8-bit pattern of the 8-bit result holds it unchanged. -/
theorem toInt_ofInt_deq (byte : Byte) (sel : BitVec 1) (scale : Byte) :
    (BitVec.ofInt 8 (deq 8 byte sel scale)).toInt = deq 8 byte sel scale := by
  rw [BitVec.toInt_ofInt]
  exact Int.bmod_bmod

/-! ### The table, the domain and the range -/

/-- Settles O20: the primitive depends on the selected nibble and the scale's low two bits alone, and the table has an
entry for each pair of them. -/
theorem dequantizationTable : Obligations.DequantizationTable := by
  intro byte sel scale
  simp only [← nibble_toNat, ← scaleBits_toNat, deq, deqExact, shiftWrap, shiftExact, nibSel]
  generalize nibble byte sel = n
  generalize scaleBits scale = s
  revert n s
  decide

/-- Settles O21: an integer is its own wrap if it fits, and `q` in -8 .. 7 fits 8 bits up to scale 2 and 10 bits at
every scale. -/
theorem dequantizationExactDomain : Obligations.DequantizationExactDomain := by
  intro byte sel scale
  have hfit8 : deq 8 byte sel scale = deqExact byte sel scale ↔
      -128 ≤ deqExact byte sel scale ∧ deqExact byte sel scale < 128 := wrap_eq_self_iff (by decide)
  have hfit10 : deq 10 byte sel scale = deqExact byte sel scale ↔
      -512 ≤ deqExact byte sel scale ∧ deqExact byte sel scale < 512 := wrap_eq_self_iff (by decide)
  have hq := nibSel_mem byte sel
  have hexact := deqExact_cases byte sel scale
  exact ⟨hfit8.trans (by omega), hfit8.trans (by omega), wrap_sub_emod 8 _, hfit10.2 (by omega)⟩

/-- Settles O22: the result is the 8-bit number that differs from `q * 4^s` by a multiple of 256. -/
theorem dequantizationRange : Obligations.DequantizationRange := by
  intro byte sel scale
  have hrange : -128 ≤ deq 8 byte sel scale ∧ deq 8 byte sel scale < 128 := deq_range (by decide)
  have hwrap : (deq 8 byte sel scale - deqExact byte sel scale) % 256 = 0 := wrap_sub_emod 8 _
  have hq := nibSel_mem byte sel
  have hexact := deqExact_cases byte sel scale
  exact ⟨hrange.1, by omega, by omega, by omega, by omega⟩

/-! ### NIBSEL and DEQ -/

/-- Settles O18: sign extension keeps the signed value of the nibble. -/
theorem nibselGivesSignedNibble : Obligations.NibselGivesSignedNibble := by
  intro s
  refine ⟨nibselOp s, rfl, ?_, rfl, rfl, rfl, rfl, rfl⟩
  rw [nibselOp_scr_nib, nibSel_toInt, BitVec.toInt_eq_toNat_cond, nibble_toNat]
  simp only []
  split_ifs <;> omega

/-- What DEQ leaves (41_dequantization R161). -/
def deqDone (p : Params) (s : State) : State := finish (deqStore p (nibselOp (enterDeq (startCommand 0x02 s))))

/-- DEQ cannot be rejected (41_dequantization R161). -/
theorem exec_deq (s : State) : exec .deq s = .next (deqDone Config.params s) :=
  afterCheck_pass (p := Config.params) (op := 0x02) (s := startCommand 0x02 s) rfl

theorem deqDone_dqOut (s : State) : (deqDone Config.params s).regs.dqOut =
    BitVec.ofInt 8 (deq 8 s.regs.dqByte s.regs.dqSel s.regs.dqScale) := rfl

/-- Settles O19: CHECK passes every DEQ, and what follows writes `DQ_OUT` and the latch alone. -/
theorem deqCommandResult : Obligations.DeqCommandResult := by
  intro s
  have hout := (congrArg BitVec.toInt (deqDone_dqOut s)).trans (toInt_ofInt_deq ..)
  exact ⟨deqDone Config.params s, exec_deq s, rfl, hout, hout, rfl, rfl, rfl, rfl⟩

/-! ### DEQ step by step -/

/-- CHECK is the first step of a command that it passes (43_tiled_engine R182). -/
theorem step_writeCmd_of_pass {v : Nat} (h : checkCause Config.params (BitVec.ofNat 8 v) s.regs = none)
    (hd : s.env.script = []) (hgrain : s.env.grain ≠ .command) :
    step (writeCmd v s) = .next (afterPass (latched (BitVec.ofNat 8 v) (takeIssue (writeCmd v s)))) := by
  have hissue : (writeCmd v s).seq.issue = some (encodeOp .check) := congrArg some (firstOp_check (.inl hgrain))
  have hcheck : checkCause Config.params (BitVec.ofNat 8 v) (takeIssue (writeCmd v s)).regs = none := h
  have hexec : exec .check (takeIssue (writeCmd v s)) =
      .next (latched (BitVec.ofNat 8 v) (takeIssue (writeCmd v s))) := by
    change Host.Outcome.next (checkOp Config.params (BitVec.ofNat 8 v) _) = _
    rw [checkOp, hcheck]
    rfl
  rw [step_of_nil (s := writeCmd v s) hd, blockStep_of_issue hissue, hexec, andThen_next, advance_of_busy rfl]
  rfl

/-- Settles O51: CHECK passes, and NIBSEL with the store of `DQ_OUT` ends the command. -/
theorem deqStepsEqualCommand : Obligations.DeqStepsEqualCommand := by
  intro s hd hgrain
  have hcheck : step (writeCmd 0x02 s) = .next (issueOp .nibsel (enterDeq (startCommand 0x02 s))) :=
    step_writeCmd_of_pass rfl hd hgrain
  have hstore : step (issueOp .nibsel (enterDeq (startCommand 0x02 s))) =
      .next (takeIssue (deqDone Config.params s)) :=
    step_issueOp (u := nibselOp (takeIssue (enterDeq (startCommand 0x02 s)))) hd rfl rfl rfl
  exact ⟨takeIssue (deqDone Config.params s), deqDone Config.params s,
    (stepN_succ_of_next 1 hcheck).trans (stepN_succ_of_next 0 hstore), exec_deq s, rfl, rfl, rfl, rfl, rfl⟩

end Sys2Proof.Machine
end

section
/-!
PROOFS. The reference model (42_reference_model R171, R172): the magnitudes of its factors and of its sum.
-/
namespace Sys2Proof.Machine

variable {p : Params} {b : Bufs} {d : Dims} {m n : Nat}

theorem abs_refA_le (k : Nat) : |refA b d m k| ≤ 2 ^ 7 := abs_toInt_le _

/-- A weight of the reference is a value of `DQ_BITS` bits (41_dequantization R155). -/
theorem abs_refW_le (hb : 0 < p.dqBits) (k : Nat) : |refW p b d k n| ≤ 2 ^ (p.dqBits - 1) := by
  obtain ⟨hlo, hhi⟩ : -2 ^ (p.dqBits - 1) ≤ refW p b d k n ∧ refW p b d k n < 2 ^ (p.dqBits - 1) := deq_range hb
  exact abs_le.2 ⟨hlo, hhi.le⟩

theorem abs_refA_mul_refW_le (hb : 0 < p.dqBits) (k : Nat) :
    |refA b d m k * refW p b d k n| ≤ 2 ^ 7 * 2 ^ (p.dqBits - 1) := by
  rw [abs_mul]
  exact mul_le_mul (abs_refA_le k) (abs_refW_le hb k) (abs_nonneg _) (by norm_num)

/-- The sum is at most `K` times the largest product, at either `DQ_BITS`. -/
theorem abs_refMM_le (hb : 0 < p.dqBits) : |refMM p b d m n| ≤ d.k.toNat * (2 ^ 7 * 2 ^ (p.dqBits - 1)) := by
  calc |refMM p b d m n|
      ≤ ∑ k ∈ Finset.range d.k.toNat, |refA b d m k * refW p b d k n| := Finset.abs_sum_le_sum_abs _ _
    _ ≤ ∑ _k ∈ Finset.range d.k.toNat, (2 ^ 7 * 2 ^ (p.dqBits - 1) : Int) :=
        Finset.sum_le_sum fun k _ => abs_refA_mul_refW_le hb k
    _ = d.k.toNat * (2 ^ 7 * 2 ^ (p.dqBits - 1)) := by simp

/-- Settles O44: the sum has `K` products of at most `2^7 * 2^7` each, and `4096 * 2^14 = 2^26` lies within 32 bits. -/
theorem referenceSumFits : Obligations.ReferenceSumFits := by
  intro b d m n
  have hdq : 0 < Config.params.dqBits := by decide
  have hsum : |refMM Config.params b d m n| ≤ d.k.toNat * 16384 := abs_refMM_le hdq
  refine ⟨fun k => ⟨abs_refA_le k, abs_refW_le hdq k⟩, hsum, fun hK => ?_⟩
  have hcap : |refMM Config.params b d m n| ≤ 2 ^ 26 := by omega
  obtain ⟨hlo, hhi⟩ := abs_le.1 hcap
  exact ⟨hcap, toInt_ofInt32 (fits32_iff.2 ⟨by omega, by omega⟩)⟩

end Sys2Proof.Machine
end

section
/-!
PROOFS. The engine's micro-operations and TILE (43_tiled_engine R183 to R189, R193, R194), and a GEMM or QUANT that
CHECK rejects (R199).
-/
namespace Sys2Proof.Machine

variable {p : Params} {s t : State} {mt nt k : Nat}

/-! ### Rejection -/

/-- Settles O17: CHECK reads the registers before either command has changed any other state. -/
theorem rejectedCommandChangesNothing : Obligations.RejectedCommandChangesNothing := by
  intro s c
  refine ⟨fun h => ?_, fun h => ?_⟩
  · have hcheck : checkCause Config.params 0x03 (startCommand 0x03 s).regs = some c := h
    exact ⟨_, afterCheck_reject hcheck, rfl, rfl, rfl, rfl, rfl⟩
  · have hcheck : checkCause Config.params 0x01 (startCommand 0x01 s).regs = some c := h
    exact ⟨_, afterCheck_reject hcheck, rfl, rfl, rfl, rfl, rfl⟩

/-! ### The preloads -/

/-- Settles O33: every in-use cell is one place of the grid that LOADA writes. -/
theorem loadaCopiesActivations : Obligations.LoadaCopiesActivations := by
  intro s p k rows hrows hk hlen
  refine ⟨loadaDone p s, loadaOp_eq_next.2 ⟨⟨hrows, hk⟩, hlen, rfl⟩, fun mt hmt i hi c hc => ?_, fun a ha => ?_,
    rfl, rfl, rfl, rfl, rfl⟩
  · exact loadaDone_cell (row_major_lt hmt hi) hc hk
  · exact cellGet_store_grid_outside _ fun r hr c hc => (ha r hr c hc).symm

/-- Settles O34: every in-use cell is one place of the grid that LOADW writes, and holds the primitive's result
unchanged. -/
theorem loadwDequantizesWeights : Obligations.LoadwDequantizesWeights := by
  intro s p k n g cols hcols hk hg hlen
  refine ⟨loadwDone p s, loadwOp_eq_next.2 ⟨⟨hcols, hk⟩, hg, fun c hc x hx => (hlen c hc x hx).1,
    fun c hc x hx => (hlen c hc x hx).2, rfl⟩, fun nt hnt j hj x hx => ?_, fun a ha => ?_, rfl, rfl, rfl, rfl, rfl⟩
  · exact ⟨_, loadwDone_cell (row_major_lt hnt hj) hx hk, toInt_weightCell (by decide) (by decide)⟩
  · exact cellGet_store_grid_outside _ fun c hc x hx => (ha c hc x hx).symm

/-! ### TCOPY and ACLR -/

/-- A written cell's value, as a read finds it. -/
theorem cellGet_of_has {w a : Nat} {m : Cells w} (h : cellHas m a = true) : cellGet m a = some (cellVal m a) := by
  obtain ⟨v, hv⟩ := cellHas_iff.1 h
  rw [hv, cellVal_of_get hv]

/-- Settles O35: the working buffers get the values of the slices' cells, all of which are written. -/
theorem tcopyCopiesSlices : Obligations.TcopyCopiesSlices := by
  intro s p k mt nt hmt hnt hk ha hw
  refine ⟨tcopyDone p mt nt s, tcopyOp_eq_next.2 ⟨⟨hmt, hnt⟩, hk, ha, hw, rfl⟩, fun i hi c hc => ?_,
    fun j hj c hc => ?_, fun a hout => ?_, fun a hout => ?_, rfl, rfl, rfl, rfl, rfl⟩
  · rw [tcopyDone_awork_cell hi hc hk, cellGet_of_has (ha i hi c hc)]
  · rw [tcopyDone_wwork_cell hj hc hk, cellGet_of_has (hw j hj c hc)]
  · exact cellGet_store_grid_outside _ fun i hi c hc => (hout i hi c hc).symm
  · exact cellGet_store_grid_outside _ fun j hj c hc => (hout j hj c hc).symm

theorem aclrOp_scr (p : Params) (s : State) : (aclrOp p s).scr = { s.scr with acc := (aclrOp p s).scr.acc } := rfl

/-- Settles O36: the grid that ACLR writes is the whole accumulator. -/
theorem aclrZeroesAccumulator : Obligations.AclrZeroesAccumulator := by
  intro s
  exact ⟨aclrOp Config.params s, rfl, fun i hi j hj => aclrOp_cell hi hj, aclrOp_scr _ s, aclrOp_regs s _,
    aclrOp_bufs s _, aclrOp_seq s _, aclrOp_env s _⟩

/-- TCOPY reads the caches and writes the working buffers, ACLR writes the accumulator. -/
theorem tcopyDone_aclrOp (p : Params) (mt nt : Nat) (s : State) :
    tcopyDone p mt nt (aclrOp p s) = aclrOp p (tcopyDone p mt nt s) := rfl

/-- An ACLR before a TCOPY can as well come after it (43_tiled_engine R189). -/
theorem tcopyOp_aclrOp : tcopyOp p mt nt (aclrOp p s) = .next t ↔
    ∃ u, tcopyOp p mt nt s = .next u ∧ aclrOp p u = t := by
  simp only [tcopyOp_eq_next, aclrOp_seq, aclrOp_scr_acache, aclrOp_scr_wcache, tcopyDone_aclrOp, and_assoc,
    exists_and_left, exists_eq_left']

/-- Settles O47: ACLR completes from every state, and neither operation reads what the other writes. -/
theorem copyAndClearCommute : Obligations.CopyAndClearCommute := by
  intro s t
  calc andThen (exec .tcopy s) (exec .aclr) = .next t
      ↔ ∃ u, exec .tcopy s = .next u ∧ exec .aclr u = .next t := andThen_eq_next
    _ ↔ ∃ u, tcopyOp Config.params s.seq.mt.toNat s.seq.nt.toNat s = .next u ∧ aclrOp Config.params u = t := by
        simp only [exec, execTcopy, execAclr, Host.Outcome.next.injEq]
    _ ↔ andThen (exec .aclr s) (exec .tcopy) = .next t := tcopyOp_aclrOp.symm

/-! ### MAC -/

theorem macDone_scr (p : Params) (k : Nat) (s : State) :
    (macDone p k s).scr = { s.scr with acc := (macDone p k s).scr.acc } := rfl

/-- Settles O37: each cell of the accumulator holds the exact sum, which has 32 bits. -/
theorem macAddsProducts : Obligations.MacAddsProducts := by
  intro s p k hk hcap ha hw hacc hfits
  have hfits' : ∀ i < p.peRows, ∀ j < p.peCols, fits32 (macSum p s k i j) = true := fun i hi j hj =>
    fits32_iff.2 (hfits i hi j hj)
  have hnext : BitVec.ofNat 32 (k + 1) = s.seq.k + 1 := by
    rw [BitVec.ofNat_add, BitVec.ofNat_toNat, BitVec.setWidth_eq]
    rfl
  refine ⟨macDone p k s, macOp_eq_next.2 ⟨hk, hcap, ha, hw, hacc, hfits', rfl⟩, fun i hi j hj => ?_, ?_,
    macDone_scr p k s, macDone_regs p s k, macDone_bufs p s k, macDone_env p s k⟩
  · exact ⟨_, _, _, _, cellGet_of_has (hacc i hi j hj), cellGet_of_has (ha i hi), cellGet_of_has (hw j hj),
      macDone_cell hi hj, toInt_ofInt32 (hfits' i hi j hj)⟩
  · rw [macDone_seq, hnext]

/-- One more product keeps the bound of the sums, with weights of 8 bits (43_tiled_engine R193). -/
theorem abs_macSum_le {i j : Nat} (hfit : cellsFit 8 s.scr.wwork)
    (hw : cellHas s.scr.wwork (rowCell p j k) = true)
    (hacc : |(cellVal s.scr.acc (accCell p i j)).toInt| ≤ k * 16384) : |macSum p s k i j| ≤ (k + 1) * 16384 := by
  obtain ⟨hlo, hhi⟩ := cellVal_fits hfit hw
  have hprod : |(cellVal s.scr.awork (rowCell p i k)).toInt * (cellVal s.scr.wwork (rowCell p j k)).toInt| ≤
      2 ^ 7 * 2 ^ 7 := by
    rw [abs_mul]
    exact mul_le_mul (abs_toInt_le _) (abs_le.2 ⟨hlo, hhi.le⟩) (abs_nonneg _) (by norm_num)
  calc |macSum p s k i j| ≤ k * 16384 + 2 ^ 7 * 2 ^ 7 := (abs_add_le _ _).trans (add_le_add hacc hprod)
    _ = (k + 1) * 16384 := by ring

/-- Settles O38: `K <= 4096` products of 8-bit factors lie within 32 bits. -/
theorem macKeepsAccumulatorBound : Obligations.MacKeepsAccumulatorBound := by
  intro s p k hcapacity hk hcap ha hw hacc
  have hsum : ∀ i < p.peRows, ∀ j < p.peCols, |macSum p s k i j| ≤ (k + 1) * 16384 := fun i hi j hj => by
    obtain ⟨v, hv, hbound⟩ := hacc i hi j hj
    exact abs_macSum_le hcapacity.wworkFits (hw j hj) (by rwa [cellVal_of_get hv])
  have hk' : (k : Int) < 4096 := by exact_mod_cast hcap
  have hfits : ∀ i < p.peRows, ∀ j < p.peCols, fits32 (macSum p s k i j) = true := fun i hi j hj => by
    obtain ⟨hlo, hhi⟩ := abs_le.1 (hsum i hi j hj)
    exact fits32_iff.2 ⟨by omega, by omega⟩
  have hhas : ∀ i < p.peRows, ∀ j < p.peCols, cellHas s.scr.acc (accCell p i j) = true := fun i hi j hj => by
    obtain ⟨v, hv, -⟩ := hacc i hi j hj
    exact cellHas_iff.2 ⟨v, hv⟩
  refine ⟨macDone p k s, macOp_eq_next.2 ⟨hk, hcap, ha, hw, hhas, hfits, rfl⟩, fun i hi j hj =>
    ⟨_, macDone_cell hi hj, ?_⟩⟩
  rw [toInt_ofInt32 (hfits i hi j hj)]
  exact hsum i hi j hj

/-- Settles O39: MAC tests every sum before it writes any. -/
theorem accumulatorOverflowRefused : Obligations.AccumulatorOverflowRefused := by
  intro s i j p k hk hcap ha hw hacc hi hj hover
  have hbad : allGrid p.peRows p.peCols (fun i j => fits32 (macSum p s k i j)) = false := by
    refine Bool.eq_false_of_not_eq_true fun hall => ?_
    have := fits32_iff.1 (allGrid_iff.1 hall i hi j hj)
    omega
  change macOp p k s = _
  rw [macOp, demand_of_true (decide_eq_true hk), demand_of_true (decide_eq_true hcap),
    demand_of_true (by simpa using ha), demand_of_true (by simpa using hw), demand_of_true (allGrid_iff.2 hacc), hbad]
  rfl

/-! ### TSTORE and TILE -/

theorem tstoreDone_bufs (p : Params) (mt nt : Nat) (s : State) :
    (tstoreDone p mt nt s).bufs = { s.bufs with out := (tstoreDone p mt nt s).bufs.out } := rfl

/-- Settles O41: TSTORE writes the four bytes of each element of its region. -/
theorem tstoreWritesTile : Obligations.TstoreWritesTile := by
  intro s p n mt nt hmt hnt hout hacc
  refine ⟨tstoreDone p mt nt s, tstoreOp_eq_next.2 ⟨⟨hmt, hnt⟩, hout, hacc, rfl⟩, fun i hi j hj => ?_,
    fun a ha => tstoreDone_outside ha, tstoreDone_bufs p mt nt s, tstoreDone_regs p s mt nt,
    tstoreDone_scr p s mt nt, tstoreDone_seq p s mt nt, tstoreDone_env p s mt nt⟩
  obtain ⟨hwritten, hword⟩ := tstoreDone_elem (p := p) (s := s) (mt := mt) hi hj hnt
  exact ⟨hwritten, by rw [cellGet_of_has (hacc i hi j hj), hword]⟩

/-- Settles O42: TILE completes with the exact sums of its cache cells. -/
theorem tileComputesRegion : Obligations.TileComputesRegion := by
  intro s p n k mt nt hmt hnt hk ha hw hout
  obtain ⟨t, hrun, hregs, henv, hbufs, hscr, hseq, hin, hrest⟩ :=
    tileOp_completes (p := p) (by decide) ⟨hmt, hnt, hk, ha, hw, hout⟩
  exact ⟨t, hrun, hin, hrest, hbufs, hregs, henv, hscr, by rw [hseq]⟩

end Sys2Proof.Machine
end

section
/-!
PROOFS. GEMM taken whole (43_tiled_engine R190, R195 to R197): the preloads fill both caches for every tile pair, Phase
3 computes the pairs one after the other, and the sums of the caches' cells are those of the reference model.
-/
namespace Sys2Proof.Machine

variable {p : Params} {s t u : State} {l : List (Nat × Nat)} {q : Nat × Nat} {mt nt i j : Nat}

/-! ### What CHECK has tested -/

theorem gemmCause_eq_none {r : Regs} : gemmCause p r = none ↔
    (1 ≤ r.dimM.toNat ∧ r.dimM.toNat ≤ p.capM ∧ 1 ≤ r.dimK.toNat ∧ r.dimK.toNat ≤ p.capK ∧ 1 ≤ r.dimN.toNat ∧
      r.dimN.toNat ≤ p.capN) ∧
    (2 ≤ r.dimG.toNat ∧ r.dimG.toNat % 2 = 0) ∧
    (r.dimM.toNat % p.peRows = 0 ∧ r.dimN.toNat % p.peCols = 0 ∧ r.dimK.toNat % p.peRows = 0 ∧
      r.dimK.toNat % p.peCols = 0) ∧
    r.dimK.toNat * r.dimN.toNat % r.dimG.toNat = 0 ∧
    r.lenACT.toNat = r.dimM.toNat * r.dimK.toNat ∧ r.lenPW.toNat = r.dimK.toNat * r.dimN.toNat / 2 ∧
    r.lenSC.toNat = r.dimK.toNat * r.dimN.toNat / r.dimG.toNat ∧
    r.lenOUT.toNat = r.dimM.toNat * r.dimN.toNat := by
  unfold gemmCause
  simp only []
  split_ifs <;> simp_all

/-- The tiles' rows are the matrix's (43_tiled_engine R182). -/
theorem mTiles_mul_peRows (h : gemmCause p s.regs = none) :
    s.regs.dims.mTiles p * p.peRows = s.regs.dimM.toNat := by
  obtain ⟨-, -, ⟨hm, -⟩, -⟩ := gemmCause_eq_none.1 h
  exact Nat.div_mul_cancel (Nat.dvd_of_mod_eq_zero hm)

/-- The tiles' columns are the matrix's (43_tiled_engine R182). -/
theorem nTiles_mul_peCols (h : gemmCause p s.regs = none) :
    s.regs.dims.nTiles p * p.peCols = s.regs.dimN.toNat := by
  obtain ⟨-, -, ⟨-, hn, -⟩, -⟩ := gemmCause_eq_none.1 h
  exact Nat.div_mul_cancel (Nat.dvd_of_mod_eq_zero hn)

/-- The accumulator's reduction has at most `CAP_K` steps, and at least one. -/
theorem dimK_bounds (h : gemmCause p s.regs = none) : 0 < s.regs.dimK.toNat ∧ s.regs.dimK.toNat ≤ p.capK := by
  obtain ⟨⟨-, -, hk, hcap, -⟩, -⟩ := gemmCause_eq_none.1 h
  exact ⟨hk, hcap⟩

/-! ### The preloads -/

/-- GEMM once CHECK has passed: the dimensions latched, the arrays empty (43_tiled_engine R190). -/
def gemmStart (s : State) : State := enterPreload (latched 0x03 (startCommand 0x03 s))

/-- GEMM after both preloads, at the first tile pair. -/
def gemmTiles (p : Params) (s : State) : State := enterTiles (loadwDone p (loadaDone p (gemmStart s)))

theorem gemmOp_of_pass (h : gemmCause p s.regs = none) :
    gemmOp p s = gemmBody p (latched 0x03 (startCommand 0x03 s)) := by
  have hcheck : checkCause p 0x03 (startCommand 0x03 s).regs = none := h
  rw [gemmOp, afterCheck_pass hcheck, checkOp, hcheck]
  rfl

@[simp] theorem gemmStart_lat (s : State) : (gemmStart s).seq.lat = s.regs.dims := rfl

@[simp] theorem gemmStart_bufs (s : State) : (gemmStart s).bufs = s.bufs := rfl

@[simp] theorem gemmTiles_lat (p : Params) (s : State) : (gemmTiles p s).seq.lat = s.regs.dims := rfl

@[simp] theorem gemmTiles_bufs (p : Params) (s : State) : (gemmTiles p s).bufs = s.bufs := rfl

theorem loadaOp_gemmStart (h : gemmCause p s.regs = none) :
    loadaOp p (gemmStart s) = .next (loadaDone p (gemmStart s)) := by
  obtain ⟨⟨-, hm, -, hk, -, -⟩, -, -, -, hact, -⟩ := gemmCause_eq_none.1 h
  have hrows : loadaRows p (gemmStart s) = s.regs.dimM.toNat := mTiles_mul_peRows h
  exact loadaOp_eq_next.2 ⟨⟨hrows ▸ hm, hk⟩, hrows ▸ hact.ge, rfl⟩

theorem loadwOp_loadaDone (h : gemmCause p s.regs = none) :
    loadwOp p (loadaDone p (gemmStart s)) = .next (loadwDone p (loadaDone p (gemmStart s))) := by
  obtain ⟨⟨-, -, -, hk, -, hn⟩, ⟨hg, heven⟩, -, hdvd, -, hpw, hsc, -⟩ := gemmCause_eq_none.1 h
  have hcols : loadwCols p (loadaDone p (gemmStart s)) = s.regs.dimN.toNat := nTiles_mul_peCols h
  have hdvd := Nat.dvd_of_mod_eq_zero hdvd
  have htwo : 2 ∣ s.regs.dimK.toNat * s.regs.dimN.toNat := (Nat.dvd_of_mod_eq_zero heven).trans hdvd
  have hindex : ∀ c < s.regs.dimN.toNat, ∀ x < s.regs.dimK.toNat,
      flatIndex s.regs.dimN.toNat x c < s.regs.dimK.toNat * s.regs.dimN.toNat := fun c hc x hx =>
    row_major_lt hx hc
  rw [loadwOp_eq_next, hcols]
  refine ⟨⟨hn, hk⟩, .inl (Nat.ne_of_gt (Nat.lt_of_lt_of_le Nat.two_pos hg)), fun c hc x hx => ?_, fun c hc x hx => ?_,
    rfl⟩
  · exact (Nat.div_lt_div_of_lt_of_dvd htwo (hindex c hc x hx)).trans_eq hpw.symm
  · exact (Nat.div_lt_div_of_lt_of_dvd hdvd (hindex c hc x hx)).trans_eq hsc.symm

/-- `ACACHE[r][c]` after the preloads is `A(r, c)`. -/
theorem gemmTiles_acache (h : gemmCause p s.regs = none) {r c : Nat} (hr : r < s.regs.dims.mTiles p * p.peRows)
    (hc : c < s.regs.dimK.toNat) :
    cellGet (gemmTiles p s).scr.acache (rowCell p r c) = some (s.bufs.byte .act (r * s.regs.dimK.toNat + c)) :=
  loadaDone_cell (s := gemmStart s) hr hc (dimK_bounds h).2

/-- `WCACHE[c][x]` after the preloads is `W(x, c)`. -/
theorem gemmTiles_wcache (h : gemmCause p s.regs = none) {c x : Nat} (hc : c < s.regs.dims.nTiles p * p.peCols)
    (hx : x < s.regs.dimK.toNat) :
    cellGet (gemmTiles p s).scr.wcache (rowCell p c x) = some (BitVec.ofInt 10 (refW p s.bufs s.regs.dims x c)) :=
  loadwDone_cell (s := loadaDone p (gemmStart s)) hc hx (dimK_bounds h).2

/-- The preloads have written what every tile pair reads (70_reset_and_hazards R269). -/
theorem tilesReady_gemmTiles (h : gemmCause p s.regs = none) : TilesReady p (gemmTiles p s) where
  k_le := (dimK_bounds h).2
  acache _ hr _ hc := cellHas_iff.2 ⟨_, gemmTiles_acache h hr hc⟩
  wcache _ hr _ hc := cellHas_iff.2 ⟨_, gemmTiles_wcache h hr hc⟩
  out := by
    obtain ⟨-, -, -, -, -, -, -, hout⟩ := gemmCause_eq_none.1 h
    exact hout.ge

/-- A tile's sums are the reference's (43_tiled_engine R195). -/
theorem tileSum_gemmTiles (hb : 0 < p.dqBits) (hb10 : p.dqBits ≤ 10) (h : gemmCause p s.regs = none)
    (hq : InTiles p (gemmTiles p s) (mt, nt)) (hi : i < p.peRows) (hj : j < p.peCols) :
    tileSum p (gemmTiles p s) mt nt i j =
      refMM p s.bufs s.regs.dims (mt * p.peRows + i) (nt * p.peCols + j) := by
  refine Finset.sum_congr rfl fun x hx => ?_
  have hx := Finset.mem_range.1 hx
  rw [cellVal_of_get (gemmTiles_acache h (row_major_lt hq.1 hi) hx),
    cellVal_of_get (gemmTiles_wcache h (row_major_lt hq.2 hj) hx), refW, weightAt, toInt_weightCell hb hb10]
  rfl

/-! ### The tile pairs -/

/-- What Phase 3 leaves unchanged: everything but `OUT`, the working buffers, the accumulator and the sequencer's tile
and reduction numbers. -/
structure GemmFrame (s t : State) : Prop where
  regs : t.regs = s.regs
  env : t.env = s.env
  bufs : t.bufs = { s.bufs with out := t.bufs.out }
  scr : t.scr = { s.scr with awork := t.scr.awork, wwork := t.scr.wwork, acc := t.scr.acc }
  seq : t.seq = { s.seq with mt := t.seq.mt, nt := t.seq.nt, k := t.seq.k }

theorem GemmFrame.refl (s : State) : GemmFrame s s := ⟨rfl, rfl, rfl, rfl, rfl⟩

theorem GemmFrame.trans (h : GemmFrame s t) (h' : GemmFrame t u) : GemmFrame s u where
  regs := h'.regs.trans h.regs
  env := h'.env.trans h.env
  bufs := by rw [h'.bufs, h.bufs]
  scr := by rw [h'.scr, h.scr]
  seq := by rw [h'.seq, h.seq]

/-- One more tile pair, which may compute a region of the list again. -/
theorem TilesDone.snoc (hl : ∀ q' ∈ l, InTiles p s q') (hq : InTiles p s q) (h : TilesDone p s l t)
    (hlast : TilesDone p t [q] u) : TilesDone p s (l ++ [q]) u := by
  have hsame (i j a) : tileByte p t q i j a = tileByte p s q i j a := by
    rw [tileByte, tileByte, h.frame.tileSum_eq]
  have hkept (a) (ha : ∀ i j, ¬InPlace p s q i j a) :
      cellGet (w := 8) u.bufs.out a = cellGet (w := 8) t.bufs.out a :=
    hlast.outside a fun q' hq' i j hplace => by
      obtain rfl := List.mem_singleton.1 hq'
      exact ha i j (h.frame.inPlace.1 hplace)
  have hnew (i j a) (ha : InPlace p s q i j a) : cellGet (w := 8) u.bufs.out a = some (tileByte p s q i j a) := by
    rw [← hsame]
    exact hlast.inside q List.mem_cons_self i j a (h.frame.inPlace.2 ha)
  refine ⟨h.frame.trans hlast.frame, fun q' hq' i j a hplace => ?_, fun a ha => ?_⟩
  · by_cases hagain : ∃ i' j', InPlace p s q i' j' a
    · obtain ⟨i', j', hplace'⟩ := hagain
      have hq'' : InTiles p s q' := (List.mem_append.1 hq').elim (hl q') fun hmem => List.mem_singleton.1 hmem ▸ hq
      obtain ⟨rfl, rfl, rfl⟩ := hplace.same_tile hq'' hq hplace'
      exact hnew i j a hplace
    · push Not at hagain
      have hmem : q' ∈ l := (List.mem_append.1 hq').resolve_right fun hmem =>
        hagain i j (List.mem_singleton.1 hmem ▸ hplace)
      rw [hkept a hagain, h.inside q' hmem i j a hplace]
  · rw [hkept a (ha q (by simp)), h.outside a fun q' hq' => ha q' (List.mem_append_left _ hq')]

/-- Phase 3 has computed the tile pairs of a list. -/
structure TilesComputed (p : Params) (s : State) (l : List (Nat × Nat)) (t : State) : Prop where
  done : TilesDone p s l t
  frame : GemmFrame s t

/-- One round of Phase 3 (43_tiled_engine R190). -/
theorem tileRound_completes (hcap : p.capK ≤ 32767) (hs : TilesReady p s) (hq : InTiles p s (mt, nt)) :
    ∃ t, tileRound p mt nt s = .next t ∧ TilesComputed p s [(mt, nt)] t := by
  have hs' : TilesReady p (setTile mt nt s) := ⟨hs.k_le, hs.acache, hs.wcache, hs.out⟩
  obtain ⟨u, hrun, hregs, henv, hbufs, hscr, hseq, -⟩ := tileOp_completes hcap (hs'.tileReady hq)
  obtain ⟨u', hrun', hdone⟩ := tileOp_tilesDone hcap hs' hq
  obtain rfl := Host.Outcome.next.inj (hrun.symm.trans hrun')
  refine ⟨bumpTile p u, tileRound_eq_next.2 ⟨u, hrun, rfl⟩, ?_, hregs, henv, hbufs, hscr, ?_⟩
  · exact ⟨⟨hregs, henv, hdone.frame.acache, hdone.frame.wcache, hdone.frame.lat⟩, hdone.inside, hdone.outside⟩
  · rw [bumpTile, hseq]
    rfl

theorem TilesComputed.round (hcap : p.capK ≤ 32767) (hs : TilesReady p s) (hl : ∀ q' ∈ l, InTiles p s q')
    (hq : InTiles p s (mt, nt)) (h : TilesComputed p s l t) :
    ∃ u, tileRound p mt nt t = .next u ∧ TilesComputed p s (l ++ [(mt, nt)]) u := by
  obtain ⟨u, hrun, hround⟩ := tileRound_completes hcap (h.done.frame.tilesReady hs) (h.done.frame.inTiles.2 hq)
  exact ⟨u, hrun, h.done.snoc hl hq hround.done, h.frame.trans hround.frame⟩

/-- The tile pairs before `(mt, nt)` in the canonical order (43_tiled_engine R191). -/
def tilesBefore (p : Params) (s : State) (mt nt : Nat) : List (Nat × Nat) :=
  grid mt (s.seq.lat.nTiles p) Prod.mk ++ (List.range nt).map (Prod.mk mt)

theorem inTiles_of_mem_tilesBefore (hm : mt < s.seq.lat.mTiles p) (hn : nt ≤ s.seq.lat.nTiles p)
    (hq : q ∈ tilesBefore p s mt nt) : InTiles p s q := by
  rcases List.mem_append.1 hq with hq | hq
  · obtain ⟨x, hx, y, hy, rfl⟩ := mem_grid.1 hq
    exact ⟨hx.trans hm, hy⟩
  · obtain ⟨y, hy, rfl⟩ := List.mem_map.1 hq
    exact ⟨hm, (List.mem_range.1 hy).trans_le hn⟩

theorem tilesBefore_zero : tilesBefore p s mt 0 = grid mt (s.seq.lat.nTiles p) Prod.mk := List.append_nil _

theorem tilesBefore_succ : tilesBefore p s mt (nt + 1) = tilesBefore p s mt nt ++ [(mt, nt)] := by
  simp [tilesBefore, List.range_succ]

theorem tilesBefore_row_end :
    tilesBefore p s mt (s.seq.lat.nTiles p) = grid (mt + 1) (s.seq.lat.nTiles p) Prod.mk := by
  simp [tilesBefore, grid, List.range_succ]

/-- Phase 3 completes, each row of tile pairs after the one before it (43_tiled_engine R190). -/
theorem tilesOp_completes (hcap : p.capK ≤ 32767) (hs : TilesReady p s) :
    ∃ t, tilesOp p s = .next t ∧ TilesComputed p s (allTiles p s) t := by
  refine loop_completes (I := fun mt => TilesComputed p s (grid mt (s.seq.lat.nTiles p) Prod.mk))
    ⟨.nil p s, .refl s⟩ fun mt u hm hu => ?_
  rw [← tilesBefore_row_end]
  rw [← tilesBefore_zero] at hu
  refine loop_completes (I := fun nt => TilesComputed p s (tilesBefore p s mt nt)) hu fun nt v hn hv => ?_
  rw [tilesBefore_succ]
  exact hv.round hcap hs (fun _ => inTiles_of_mem_tilesBefore hm hn.le) ⟨hm, hn⟩

/-! ### The elements of OUT -/

theorem mem_bytes32 {e : Nat} {v : Word} {b : Nat × Byte} (h : b ∈ bytes32 e v) :
    b.1 / 4 = e ∧ b.2 = v.extractLsb' (8 * (b.1 % 4)) 8 := by
  simp only [bytes32, List.mem_cons, List.not_mem_nil, or_false] at h
  rcases h with rfl | rfl | rfl | rfl
  · exact ⟨by omega, by rw [show 4 * e % 4 = 0 by omega]⟩
  · exact ⟨by omega, by rw [show (4 * e + 1) % 4 = 1 by omega]⟩
  · exact ⟨by omega, by rw [show (4 * e + 2) % 4 = 2 by omega]⟩
  · exact ⟨by omega, by rw [show (4 * e + 3) % 4 = 3 by omega]⟩

/-- The element of `OUT` at a place of a computed tile pair. -/
theorem TilesDone.elem (h : TilesDone p s l t) (hq : (mt, nt) ∈ l) (hi : i < p.peRows) (hj : j < p.peCols) :
    written32 t.bufs.out (outIndex p s.seq.lat.n.toNat mt nt i j) = true ∧
    t.bufs.word .out (outIndex p s.seq.lat.n.toNat mt nt i j) = BitVec.ofInt 32 (tileSum p s mt nt i j) := by
  refine word_of_bytes (b := .out) fun b hb => ?_
  obtain ⟨haddr, hbyte⟩ := mem_bytes32 hb
  rw [hbyte]
  exact h.inside (mt, nt) hq i j b.1 ⟨hi, hj, haddr⟩

/-- Every number below the size of an array is a row-major address. -/
theorem exists_row_major {r c a : Nat} (h : a < r * c) : ∃ i < r, ∃ j < c, a = i * c + j := by
  have hc : 0 < c := Nat.pos_of_ne_zero fun h0 => by simp [h0] at h
  exact ⟨a / c, Nat.div_lt_of_lt_mul (Nat.mul_comm r c ▸ h), a % c, Nat.mod_lt a hc, (Nat.div_add_mod' a c).symm⟩

/-- The element of `OUT` at a row and a column of the matrix, once every tile pair is computed: the reference's
(43_tiled_engine R195, R196). -/
theorem gemm_elem (hb : 0 < p.dqBits) (hb10 : p.dqBits ≤ 10) (h : gemmCause p s.regs = none)
    (hdone : TilesDone p (gemmTiles p s) (allTiles p (gemmTiles p s)) t) {m n : Nat} (hm : m < s.regs.dimM.toNat)
    (hn : n < s.regs.dimN.toNat) :
    written32 t.bufs.out (m * s.regs.dimN.toNat + n) = true ∧
    t.bufs.word .out (m * s.regs.dimN.toNat + n) = BitVec.ofInt 32 (refMM p s.bufs s.regs.dims m n) := by
  rw [← mTiles_mul_peRows h] at hm
  rw [← nTiles_mul_peCols h] at hn
  obtain ⟨mt, hmt, i, hi, rfl⟩ := exists_row_major hm
  obtain ⟨nt, hnt, j, hj, rfl⟩ := exists_row_major hn
  have hq : InTiles p (gemmTiles p s) (mt, nt) := ⟨hmt, hnt⟩
  rw [← tileSum_gemmTiles hb hb10 h hq hi hj, ← Nat.add_assoc]
  exact hdone.elem (mem_allTiles.2 hq) hi hj

/-- A byte of `OUT` beyond the matrix belongs to no tile pair. -/
theorem gemm_beyond (h : gemmCause p s.regs = none)
    (hdone : TilesDone p (gemmTiles p s) (allTiles p (gemmTiles p s)) t) {a : Nat}
    (ha : 4 * (s.regs.dimM.toNat * s.regs.dimN.toNat) ≤ a) :
    cellGet (w := 8) t.bufs.out a = cellGet (w := 8) s.bufs.out a := by
  refine hdone.outside a fun q hq i j ⟨hi, hj, hplace⟩ => ?_
  have hlt := ((tilesReady_gemmTiles h).tileReady (mem_allTiles.1 hq)).out i hi j hj
  obtain ⟨-, -, -, -, -, -, -, hout⟩ := gemmCause_eq_none.1 h
  have hlen : (gemmTiles p s).regs.len .out = s.regs.dimM.toNat * s.regs.dimN.toNat := hout
  omega

/-! ### The command -/

/-- A GEMM that passes CHECK completes: the preloads, then every tile pair. -/
theorem gemmOp_completes (hcap : p.capK ≤ 32767) (h : gemmCause p s.regs = none) :
    ∃ v, tilesOp p (gemmTiles p s) = .next v ∧ gemmOp p s = .next (finish (discardScratch v)) ∧
      TilesComputed p (gemmTiles p s) (allTiles p (gemmTiles p s)) v := by
  obtain ⟨v, htiles, hdone⟩ := tilesOp_completes hcap (tilesReady_gemmTiles h)
  exact ⟨v, htiles, (gemmOp_of_pass h).trans
    (gemmBody_eq_next.2 ⟨_, _, v, loadaOp_gemmStart h, loadwOp_loadaDone h, htiles, rfl⟩), hdone⟩

/-- Settles O43: the command ends after the last tile pair, with the reference's sums in `OUT`, each of which has 32
bits. -/
theorem gemmComputesReference : Obligations.GemmComputesReference := by
  intro s h
  obtain ⟨v, -, hrun, hdone, hframe⟩ := gemmOp_completes (p := Config.params) (by decide) h
  refine ⟨finish (discardScratch v), hrun, fun m hm n hn => ?_, fun a ha => gemm_beyond h hdone ha, hframe.bufs, ?_,
    ?_, ?_, ?_, rfl, ?_, ?_, ?_, ?_⟩
  · obtain ⟨hwritten, hword⟩ := gemm_elem (by decide) (by decide) h hdone hm hn
    obtain ⟨-, -, hfits⟩ := referenceSumFits s.bufs s.regs.dims m n
    have hvalue := (hfits (dimK_bounds h).2).2
    exact ⟨hwritten, (congrArg BitVec.toInt hword).trans hvalue⟩
  · change { v.regs with cmd := 0, status := .done } = _
    rw [hframe.regs]
    rfl
  · exact (congrArg Scratch.qs hframe.scr :)
  · exact (congrArg Scratch.qsSet hframe.scr :)
  · exact (congrArg Scratch.nib hframe.scr :)
  · exact (congrArg Seq.issue hframe.seq :)
  · exact (congrArg Seq.g hframe.seq :)
  · exact (congrArg Seq.i hframe.seq :)
  · change v.env = { s.env with atStart := v.env.atStart }
    rw [hframe.env]
    rfl

/-- The reference's element depends on its row of activations and its column of weights alone. -/
theorem refMM_congr {b b' : Bufs} {d : Dims} {m n : Nat} (ha : ∀ k < d.k.toNat, refA b d m k = refA b' d m k)
    (hw : ∀ k < d.k.toNat, refW p b d k n = refW p b' d k n) : refMM p b d m n = refMM p b' d m n :=
  Finset.sum_congr rfl fun k hk => by rw [ha k (Finset.mem_range.1 hk), hw k (Finset.mem_range.1 hk)]

/-- Settles O45: each element is the reference's. -/
theorem tileRegionsAreIndependent : Obligations.TileRegionsAreIndependent := by
  intro s s' m n h h' hdims hm hn ha hw
  obtain ⟨t, hrun, helem, -⟩ := gemmComputesReference s h
  obtain ⟨t', hrun', helem', -⟩ := gemmComputesReference s' h'
  have hdimM : s'.regs.dimM = s.regs.dimM := (congrArg Dims.m hdims).symm
  have hdimN : s'.regs.dimN = s.regs.dimN := (congrArg Dims.n hdims).symm
  rw [hdimM, hdimN, ← hdims] at helem'
  rw [← hdims] at ha hw
  refine ⟨t, t', hrun, hrun', BitVec.eq_of_toInt_eq ?_⟩
  rw [(helem m hm n hn).2, (helem' m hm n hn).2, refMM_congr ha hw]

end Sys2Proof.Machine
end

section
/-!
PROOFS. GEMM step by step (43_tiled_engine R190, R201; 10_state R43): each tile pair of GEMM taken whole is one step of
the sequencer, or one for each of its micro-operations, from and to states that differ in the issue slot only.
-/
namespace Sys2Proof.Machine

variable {p : Params} {s u v : State} {d : Dims} {mt nt k : Nat}

/-! ### The issue slot is read by no operation of the engine -/

theorem loadaOp_takeIssue (h : loadaOp p u = .next v) : loadaOp p (takeIssue u) = .next (takeIssue v) := by
  obtain ⟨hsize, hact, rfl⟩ := loadaOp_eq_next.1 h
  exact loadaOp_eq_next.2 ⟨hsize, hact, rfl⟩

theorem loadwOp_takeIssue (h : loadwOp p u = .next v) : loadwOp p (takeIssue u) = .next (takeIssue v) := by
  obtain ⟨hsize, hg, hpw, hsc, rfl⟩ := loadwOp_eq_next.1 h
  exact loadwOp_eq_next.2 ⟨hsize, hg, hpw, hsc, rfl⟩

theorem aclrOp_takeIssue (p : Params) (s : State) : aclrOp p (takeIssue s) = takeIssue (aclrOp p s) := rfl

theorem tcopyOp_takeIssue (h : tcopyOp p mt nt u = .next v) :
    tcopyOp p mt nt (takeIssue u) = .next (takeIssue v) := by
  obtain ⟨hq, hk, ha, hw, rfl⟩ := tcopyOp_eq_next.1 h
  exact tcopyOp_eq_next.2 ⟨hq, hk, ha, hw, rfl⟩

theorem macOp_takeIssue (h : macOp p k u = .next v) : macOp p k (takeIssue u) = .next (takeIssue v) := by
  obtain ⟨hk, hcap, ha, hw, hacc, hfits, rfl⟩ := macOp_eq_next.1 h
  exact macOp_eq_next.2 ⟨hk, hcap, ha, hw, hacc, hfits, rfl⟩

theorem tstoreOp_takeIssue (h : tstoreOp p mt nt u = .next v) :
    tstoreOp p mt nt (takeIssue u) = .next (takeIssue v) := by
  obtain ⟨hq, hout, hacc, rfl⟩ := tstoreOp_eq_next.1 h
  exact tstoreOp_eq_next.2 ⟨hq, hout, hacc, rfl⟩

/-- A loop whose rounds do not read the issue slot does not read it. -/
theorem loopFrom_takeIssue {body : Nat → State → Run} {n i : Nat}
    (hbody : ∀ j x y, body j x = .next y → body j (takeIssue x) = .next (takeIssue y))
    (h : loopFrom body n i u = .next v) : loopFrom body n i (takeIssue u) = .next (takeIssue v) := by
  induction n generalizing i u with
  | zero =>
    cases h
    rfl
  | succ n ih =>
    obtain ⟨x, hx, hrest⟩ := andThen_eq_next.1 h
    rw [loopFrom_succ, hbody i u x hx, andThen_next, ih hrest]

theorem tileOp_takeIssue (h : tileOp p mt nt u = .next v) : tileOp p mt nt (takeIssue u) = .next (takeIssue v) := by
  obtain ⟨a, b, hcopy, hmacs, hstore⟩ := tileOp_eq_next.1 h
  exact tileOp_eq_next.2 ⟨takeIssue a, takeIssue b, tcopyOp_takeIssue hcopy,
    loopFrom_takeIssue (fun _ _ _ hmac => macOp_takeIssue hmac) hmacs, tstoreOp_takeIssue hstore⟩

theorem issueOp_takeIssue (i : Instr) (s : State) : issueOp i (takeIssue s) = issueOp i s := rfl

theorem issueTile_takeIssue (s : State) : issueTile (takeIssue s) = issueTile s := by
  unfold issueTile
  rw [takeIssue_env]
  split <;> rfl

/-! ### The sequencer's place in GEMM -/

/-- A GEMM with dimensions `d` runs, at tile pair `(mt, nt)` and reduction index `k`. -/
structure AtTile (d : Dims) (mt nt k : Nat) (s : State) : Prop where
  script : s.env.script = []
  status : s.regs.status = .busy
  lat : s.seq.lat = d
  mt : s.seq.mt.toNat = mt
  nt : s.seq.nt.toNat = nt
  k : s.seq.k.toNat = k

/-- What the sequencer does once a tile pair is done: the next tile pair, or the end of the command. -/
def resumeGemm (p : Params) (s : State) : State :=
  if tilesDone p s then finish (discardScratch (takeIssue s)) else issueTile s

theorem afterTile_takeIssue (p : Params) (s : State) : afterTile p (takeIssue s) = resumeGemm p (bumpTile p s) := by
  have hissue : issueTile (bumpTile p (takeIssue s)) = issueTile (bumpTile p s) := issueTile_takeIssue (bumpTile p s)
  rw [afterTile, resumeGemm, hissue]
  rfl

theorem AtTile.resume_tile (h : AtTile d mt nt k s) (hm : mt < d.mTiles p) : resumeGemm p s = issueTile s := by
  have hmore : ¬tilesDone p s = true := by simpa [tilesDone, h.lat, h.mt] using hm
  rw [resumeGemm, if_neg hmore]

theorem AtTile.resume_finish (h : AtTile d (d.mTiles p) nt k s) :
    resumeGemm p s = finish (discardScratch (takeIssue s)) := by
  have hdone : tilesDone p s = true := decide_eq_true (by rw [h.lat, h.mt])
  rw [resumeGemm, if_pos hdone]

/-- GEMM taken whole sets the tile numbers that the sequencer has counted. -/
theorem AtTile.setTile_eq (h : AtTile d mt nt 0 s) : setTile mt nt s = s := by
  have hk : (0 : Word) = s.seq.k := (BitVec.eq_of_toNat_eq h.k).symm
  rw [setTile, ← h.mt, ← h.nt, BitVec.ofNat_toNat, BitVec.ofNat_toNat, BitVec.setWidth_eq, BitVec.setWidth_eq, hk]

theorem AtTile.bump_within_row (h : AtTile d mt nt k s) (hn : nt + 1 < d.nTiles p) :
    AtTile d mt (nt + 1) 0 (bumpTile p s) := by
  obtain ⟨hmt, hnt⟩ := bumpTile_within_row (p := p) (s := s) (by rwa [h.nt, h.lat])
  exact ⟨h.script, h.status, h.lat, hmt ▸ h.mt, h.nt ▸ hnt, rfl⟩

theorem AtTile.bump_row_end (h : AtTile d mt nt k s) (hn : nt + 1 = d.nTiles p) (hm : mt < d.mTiles p) :
    AtTile d (mt + 1) 0 0 (bumpTile p s) := by
  obtain ⟨hmt, hnt⟩ := bumpTile_row_end (p := p) (s := s) (by rwa [h.nt, h.lat]) (by rwa [h.mt, h.lat])
  exact ⟨h.script, h.status, h.lat, h.mt ▸ hmt, congrArg BitVec.toNat hnt, rfl⟩

theorem AtTile.tcopy (h : AtTile d mt nt k u) (hcopy : tcopyOp p mt nt u = .next v) : AtTile d mt nt k v := by
  obtain ⟨-, -, -, -, rfl⟩ := tcopyOp_eq_next.1 hcopy
  exact ⟨h.script, h.status, h.lat, h.mt, h.nt, h.k⟩

theorem AtTile.aclr (h : AtTile d mt nt k u) (p : Params) : AtTile d mt nt k (aclrOp p u) :=
  ⟨h.script, h.status, h.lat, h.mt, h.nt, h.k⟩

theorem AtTile.mac {x : Nat} (h : AtTile d mt nt x u) (hmac : macOp p k u = .next v) : AtTile d mt nt (k + 1) v := by
  obtain ⟨hk, -, -, -, -, -, rfl⟩ := macOp_eq_next.1 hmac
  refine ⟨h.script, h.status, h.lat, h.mt, h.nt, ?_⟩
  rw [macDone_seq, BitVec.toNat_ofNat]
  exact Nat.mod_eq_of_lt (Nat.lt_of_le_of_lt hk u.seq.lat.k.isLt)

theorem AtTile.tstore (h : AtTile d mt nt k u) (hstore : tstoreOp p mt nt u = .next v) : AtTile d mt nt k v := by
  obtain ⟨-, -, -, rfl⟩ := tstoreOp_eq_next.1 hstore
  exact ⟨h.script, h.status, h.lat, h.mt, h.nt, h.k⟩

theorem AtTile.tile (h : AtTile d mt nt 0 u) (htile : tileOp p mt nt u = .next v) :
    AtTile d mt nt d.k.toNat v := by
  obtain ⟨a, b, hcopy, hmacs, hstore⟩ := tileOp_eq_next.1 htile
  have ha := h.tcopy hcopy
  have hb := loop_inv (I := AtTile d mt nt) hmacs (ha.aclr p) fun _ _ _ _ hx hmac => hx.mac hmac
  exact ha.lat ▸ hb.tstore hstore

/-! ### The steps of a tile pair -/

theorem AtTile.step_tile (h : AtTile d mt nt 0 u) (htile : tileOp Config.params mt nt u = .next v) :
    step (issueOp .tile u) = .next (resumeGemm Config.params (bumpTile Config.params v)) := by
  have hexec : exec .tile (takeIssue u) = .next (takeIssue v) := by
    rw [show exec .tile (takeIssue u) = tileOp Config.params u.seq.mt.toNat u.seq.nt.toNat (takeIssue u) from rfl,
      h.mt, h.nt]
    exact tileOp_takeIssue htile
  refine step_issueOp h.script hexec (h.tile htile).status ?_
  rw [← afterTile_takeIssue]
  rfl

theorem AtTile.step_tcopy (h : AtTile d mt nt k u) (hcopy : tcopyOp Config.params mt nt u = .next v) :
    step (issueOp .tcopy u) = .next (issueOp .aclr v) := by
  have hexec : exec .tcopy (takeIssue u) = .next (takeIssue v) := by
    rw [show exec .tcopy (takeIssue u) = tcopyOp Config.params u.seq.mt.toNat u.seq.nt.toNat (takeIssue u) from rfl,
      h.mt, h.nt]
    exact tcopyOp_takeIssue hcopy
  exact step_issueOp h.script hexec (h.tcopy hcopy).status rfl

theorem AtTile.step_aclr (h : AtTile d mt nt k u) :
    step (issueOp .aclr u) = .next (issueOp .mac (aclrOp Config.params u)) := by
  have hexec : exec .aclr (takeIssue u) = .next (takeIssue (aclrOp Config.params u)) :=
    congrArg Host.Outcome.next (aclrOp_takeIssue Config.params u)
  have hnext : sequel Config.params .aclr (takeIssue (aclrOp Config.params u)) =
      .next (issueOp .mac (aclrOp Config.params u)) :=
    congrArg Host.Outcome.next (issueOp_takeIssue .mac (aclrOp Config.params u))
  exact step_issueOp h.script hexec (h.aclr Config.params).status hnext

theorem AtTile.step_mac (h : AtTile d mt nt k u) (hmac : macOp Config.params k u = .next v) :
    step (issueOp .mac u) = .next (issueOp (if k + 1 = d.k.toNat then .tstore else .mac) v) := by
  have hexec : exec .mac (takeIssue u) = .next (takeIssue v) := by
    rw [show exec .mac (takeIssue u) = macOp Config.params u.seq.k.toNat (takeIssue u) from rfl, h.k]
    exact macOp_takeIssue hmac
  have hv := h.mac hmac
  refine step_issueOp h.script hexec hv.status ?_
  simp only [sequel, afterMac_eq, takeIssue_seq_k, takeIssue_seq_lat, ← BitVec.toNat_inj, hv.k, hv.lat]
  rfl

theorem AtTile.step_tstore (h : AtTile d mt nt k u) (hstore : tstoreOp Config.params mt nt u = .next v) :
    step (issueOp .tstore u) = .next (resumeGemm Config.params (bumpTile Config.params v)) := by
  have hexec : exec .tstore (takeIssue u) = .next (takeIssue v) := by
    rw [show exec .tstore (takeIssue u) =
      tstoreOp Config.params u.seq.mt.toNat u.seq.nt.toNat (takeIssue u) from rfl, h.mt, h.nt]
    exact tstoreOp_takeIssue hstore
  refine step_issueOp h.script hexec (h.tstore hstore).status ?_
  rw [← afterTile_takeIssue]
  rfl

/-- The MACs from `k` to the last (10_state R43). -/
theorem AtTile.steps_macs {n : Nat} (h : AtTile d mt nt k u) (hn : k + (n + 1) = d.k.toNat)
    (hloop : loopFrom (macOp Config.params) (n + 1) k u = .next v) :
    Steps (issueOp .mac u) (issueOp .tstore v) ∧ AtTile d mt nt d.k.toNat v := by
  induction n generalizing k u with
  | zero =>
    obtain ⟨w, hmac, hv⟩ := andThen_eq_next.1 hloop
    cases hv
    have hstep := h.step_mac hmac
    rw [if_pos hn] at hstep
    exact ⟨.single hstep, hn ▸ h.mac hmac⟩
  | succ n ih =>
    obtain ⟨w, hmac, hrest⟩ := andThen_eq_next.1 hloop
    have hstep := h.step_mac hmac
    rw [if_neg (by omega)] at hstep
    obtain ⟨hsteps, hend⟩ := ih (h.mac hmac) (by omega) hrest
    exact ⟨.head hstep hsteps, hend⟩

/-- A tile pair micro-operation by micro-operation: TCOPY, ACLR, the MACs, TSTORE (43_tiled_engine R189). -/
theorem AtTile.steps_micro (h : AtTile d mt nt 0 u) (hk : 0 < d.k.toNat)
    (htile : tileOp Config.params mt nt u = .next v) :
    Steps (issueOp .tcopy u) (resumeGemm Config.params (bumpTile Config.params v)) := by
  obtain ⟨a, b, hcopy, hmacs, hstore⟩ := tileOp_eq_next.1 htile
  have ha := h.tcopy hcopy
  obtain ⟨n, hn⟩ := Nat.exists_eq_succ_of_ne_zero hk.ne'
  rw [ha.lat, hn] at hmacs
  obtain ⟨hsteps, hb⟩ := (ha.aclr Config.params).steps_macs ((Nat.zero_add _).trans hn.symm) hmacs
  exact .head (h.step_tcopy hcopy) (.head ha.step_aclr (hsteps.tail (hb.step_tstore hstore)))

/-- A tile pair at either grain (log 2). -/
theorem AtTile.steps_tile (h : AtTile d mt nt 0 u) (hk : 0 < d.k.toNat)
    (htile : tileOp Config.params mt nt u = .next v) :
    Steps (issueTile u) (resumeGemm Config.params (bumpTile Config.params v)) := by
  rcases issueTile_cases u with hissue | hissue <;> rw [hissue]
  · exact .single (h.step_tile htile)
  · exact h.steps_micro hk htile

/-! ### The steps of the command -/

/-- One round of Phase 3, and the place of the next. -/
theorem AtTile.steps_round (h : AtTile d mt nt 0 u) (hk : 0 < d.k.toNat) (hm : mt < d.mTiles Config.params)
    (hround : tileRound Config.params mt nt u = .next v) :
    Steps (resumeGemm Config.params u) (resumeGemm Config.params v) ∧
    (nt + 1 < d.nTiles Config.params → AtTile d mt (nt + 1) 0 v) ∧
    (nt + 1 = d.nTiles Config.params → AtTile d (mt + 1) 0 0 v) := by
  obtain ⟨w, htile, rfl⟩ := tileRound_eq_next.1 hround
  rw [h.setTile_eq] at htile
  rw [h.resume_tile hm]
  have hw := h.tile htile
  exact ⟨h.steps_tile hk htile, hw.bump_within_row, fun hn => hw.bump_row_end hn hm⟩

/-- One row of tile pairs (43_tiled_engine R191). -/
theorem AtTile.steps_row (h : AtTile d mt 0 0 u) (hk : 0 < d.k.toNat) (hm : mt < d.mTiles Config.params)
    (hn : 0 < d.nTiles Config.params)
    (hrow : loop (d.nTiles Config.params) (tileRound Config.params mt) u = .next v) :
    Steps (resumeGemm Config.params u) (resumeGemm Config.params v) ∧ AtTile d (mt + 1) 0 0 v := by
  obtain ⟨hsteps, -, hend⟩ := loop_inv
    (I := fun nt x => Steps (resumeGemm Config.params u) (resumeGemm Config.params x) ∧
      (nt < d.nTiles Config.params → AtTile d mt nt 0 x) ∧
      (nt = d.nTiles Config.params → AtTile d (mt + 1) 0 0 x)) hrow
    ⟨.refl, fun _ => h, fun h0 => absurd h0 hn.ne⟩
    fun nt x y hnt ⟨hx, hat, _⟩ hround => by
      obtain ⟨hy, hnext⟩ := (hat hnt).steps_round hk hm hround
      exact ⟨hx.trans hy, hnext⟩
  exact ⟨hsteps, hend rfl⟩

/-- Phase 3, from the first tile pair to the end of the command. -/
theorem AtTile.steps_tiles (h : AtTile d 0 0 0 u) (hk : 0 < d.k.toNat) (hm : 0 < d.mTiles Config.params)
    (hn : 0 < d.nTiles Config.params) (htiles : tilesOp Config.params u = .next v) :
    Steps (issueTile u) (finish (discardScratch (takeIssue v))) := by
  rw [tilesOp, h.lat] at htiles
  obtain ⟨hsteps, hend⟩ := loop_inv
    (I := fun mt x => Steps (resumeGemm Config.params u) (resumeGemm Config.params x) ∧ AtTile d mt 0 0 x) htiles
    ⟨.refl, h⟩ fun mt x y hmt ⟨hx, hat⟩ hrow => by
      obtain ⟨hy, hnext⟩ := hat.steps_row hk hmt hn hrow
      exact ⟨hx.trans hy, hnext⟩
  rwa [h.resume_tile hm, hend.resume_finish] at hsteps

/-- CHECK and the preloads are a GEMM's first three steps (10_state R43). -/
theorem steps_preloads (h : gemmCause Config.params s.regs = none) (hd : s.env.script = [])
    (hgrain : s.env.grain ≠ .command) : Steps (writeCmd 0x03 s) (issueTile (gemmTiles Config.params s)) := by
  have hcheck : step (writeCmd 0x03 s) = .next (issueOp .loada (gemmStart s)) := step_writeCmd_of_pass h hd hgrain
  have hloada : step (issueOp .loada (gemmStart s)) = .next (issueOp .loadw (loadaDone Config.params (gemmStart s))) :=
    step_issueOp hd (loadaOp_takeIssue (loadaOp_gemmStart h)) rfl rfl
  have hloadw : step (issueOp .loadw (loadaDone Config.params (gemmStart s))) =
      .next (issueTile (gemmTiles Config.params s)) := by
    rw [← issueTile_takeIssue]
    exact step_issueOp hd (loadwOp_takeIssue (loadwOp_loadaDone h)) rfl rfl
  exact .head hcheck (.head hloada (.single hloadw))

/-- Settles O52: a GEMM taken whole completes, and the sequencer goes through its tile pairs. -/
theorem gemmStepsEqualCommand : Obligations.GemmStepsEqualCommand := by
  intro s h hd hgrain
  obtain ⟨v, htiles, hrun, -⟩ := gemmOp_completes (p := Config.params) (by decide) h
  obtain ⟨⟨hm, -, hk, -, hn, -⟩, -⟩ := gemmCause_eq_none.1 h
  have hstart : AtTile s.regs.dims 0 0 0 (gemmTiles Config.params s) := ⟨hd, rfl, rfl, rfl, rfl, rfl⟩
  have hmTiles : 0 < s.regs.dims.mTiles Config.params :=
    Nat.pos_of_mul_pos_right (Nat.lt_of_lt_of_eq hm (mTiles_mul_peRows h).symm)
  have hnTiles : 0 < s.regs.dims.nTiles Config.params :=
    Nat.pos_of_mul_pos_right (Nat.lt_of_lt_of_eq hn (nTiles_mul_peCols h).symm)
  have hall : Steps (writeCmd 0x03 s) (finish (discardScratch (takeIssue v))) :=
    (steps_preloads h hd hgrain).trans (hstart.steps_tiles hk hmTiles hnTiles htiles)
  obtain ⟨n, hn⟩ := hall.exists_stepN
  exact ⟨n, finish (discardScratch (takeIssue v)), finish (discardScratch v), hn, hrun, rfl, rfl, rfl, rfl, rfl⟩

end Sys2Proof.Machine
end

section
/-!
PROOFS. The block's one exception and its waiting (60_exceptions R231, R233, R234, R248): CHECK finds the first cause of
the table, in the order of the codes, whose condition holds.
-/
namespace Sys2Proof.Machine

variable {p : Params} {s : State} {op : Byte} {r : Regs} {c : Cause}

/-! ### The order of the causes -/

/-- The causes of a rejection in the order of their codes (60_exceptions R231, R233). -/
def rejectCauses : List Cause :=
  [.illegalOp, .dimRange, .groupSize, .tileDivisibility, .groupDivisibility, .bufferLength]

theorem rejectCauses_pairwise_code_lt : rejectCauses.Pairwise fun c d => c.code < d.code := by decide

theorem mem_rejectCauses_of_violates (h : violates p op r c) : c ∈ rejectCauses := by
  cases c with
  | none => exact h.elim
  | _ => decide

open Classical in
/-- The first cause of the table whose condition holds. -/
noncomputable def firstViolated (p : Params) (op : Byte) (r : Regs) (l : List Cause) : Option Cause :=
  l.find? fun c => violates p op r c

open Classical in
theorem firstViolated_cons (c : Cause) (l : List Cause) :
    firstViolated p op r (c :: l) = if violates p op r c then some c else firstViolated p op r l := by
  by_cases h : violates p op r c <;> simp [firstViolated, h]

theorem firstViolated_eq_none (h : ∀ c, ¬violates p op r c) (l : List Cause) : firstViolated p op r l = none := by
  simp [firstViolated, h]

/-- The codes rise along the table, so the first cause found has the lowest code (60_exceptions R233). -/
theorem firstViolated_eq_some (h : violates p op r c) (hlow : ∀ d, d.code < c.code → ¬violates p op r d) :
    firstViolated p op r rejectCauses = some c := by
  obtain ⟨before, after, hl⟩ := List.append_of_mem (mem_rejectCauses_of_violates h)
  have hsorted := rejectCauses_pairwise_code_lt
  rw [hl, List.pairwise_append] at hsorted
  obtain ⟨-, -, hlt⟩ := hsorted
  refine List.find?_eq_some_iff_append.2 ⟨by simpa using h, before, after, hl, fun d hd => ?_⟩
  simpa using hlow d (hlt d hd c List.mem_cons_self)

/-! ### CHECK's tests are the table's conditions -/

theorem groupSize_iff (h : op = 0x01 ∨ op = 0x03) :
    ¬(2 ≤ r.dimG.toNat ∧ r.dimG.toNat % 2 = 0) ↔ violates p op r .groupSize := by
  simp only [violates, h, true_and]
  omega

theorem groupDivisibility_iff (h : op = 0x01 ∨ op = 0x03) :
    ¬(r.dimK.toNat * r.dimN.toNat % r.dimG.toNat = 0) ↔ violates p op r .groupDivisibility := by
  simp only [violates, h, true_and, ne_eq]

open Classical in
/-- QUANT's tests are the table's conditions, but for the two that no QUANT meets (40_quantization_codec R137). -/
theorem quantCause_eq_firstViolated : quantCause p r = firstViolated p 0x01 r rejectCauses := by
  have hop : ¬violates p 0x01 r .illegalOp := by simp [violates]
  have htile : ¬violates p 0x01 r .tileDivisibility := by simp [violates]
  have hdim : ¬(1 ≤ r.dimK.toNat ∧ r.dimK.toNat ≤ p.capK ∧ 1 ≤ r.dimN.toNat ∧ r.dimN.toNat ≤ p.capN) ↔
      violates p 0x01 r .dimRange := by
    simp only [violates, BitVec.reduceEq, true_and, false_and, or_false]
    omega
  have hlen : ¬(r.lenWF.toNat = r.dimK.toNat * r.dimN.toNat ∧ r.lenPW.toNat = r.dimK.toNat * r.dimN.toNat / 2 ∧
      r.lenSC.toNat = r.dimK.toNat * r.dimN.toNat / r.dimG.toNat) ↔ violates p 0x01 r .bufferLength := by
    simp only [violates, BitVec.reduceEq, true_and, false_and, or_false]
    omega
  simp only [rejectCauses, firstViolated_cons, if_neg hop, if_neg htile]
  exact if_congr hdim rfl <| if_congr (groupSize_iff (.inl rfl)) rfl <|
    if_congr (groupDivisibility_iff (.inl rfl)) rfl <| if_congr hlen rfl rfl

open Classical in
/-- GEMM's tests are the table's conditions, but for that of an illegal op code (43_tiled_engine R182). -/
theorem gemmCause_eq_firstViolated : gemmCause p r = firstViolated p 0x03 r rejectCauses := by
  have hop : ¬violates p 0x03 r .illegalOp := by simp [violates]
  have hdim : ¬(1 ≤ r.dimM.toNat ∧ r.dimM.toNat ≤ p.capM ∧ 1 ≤ r.dimK.toNat ∧ r.dimK.toNat ≤ p.capK ∧
      1 ≤ r.dimN.toNat ∧ r.dimN.toNat ≤ p.capN) ↔ violates p 0x03 r .dimRange := by
    simp only [violates, or_true, true_and]
    omega
  have htile : ¬(r.dimM.toNat % p.peRows = 0 ∧ r.dimN.toNat % p.peCols = 0 ∧ r.dimK.toNat % p.peRows = 0 ∧
      r.dimK.toNat % p.peCols = 0) ↔ violates p 0x03 r .tileDivisibility := by
    simp only [violates, true_and, not_and_or, ne_eq]
  have hlen : ¬(r.lenACT.toNat = r.dimM.toNat * r.dimK.toNat ∧ r.lenPW.toNat = r.dimK.toNat * r.dimN.toNat / 2 ∧
      r.lenSC.toNat = r.dimK.toNat * r.dimN.toNat / r.dimG.toNat ∧
      r.lenOUT.toNat = r.dimM.toNat * r.dimN.toNat) ↔ violates p 0x03 r .bufferLength := by
    simp only [violates, BitVec.reduceEq, or_true, true_and, false_and, false_or]
    omega
  simp only [rejectCauses, firstViolated_cons, if_neg hop]
  exact if_congr hdim rfl <| if_congr (groupSize_iff (.inr rfl)) rfl <| if_congr htile rfl <|
    if_congr (groupDivisibility_iff (.inr rfl)) rfl <| if_congr hlen rfl rfl

/-- DEQ has no precondition (43_tiled_engine R182). -/
theorem deq_not_violates (c : Cause) : ¬violates p 0x02 r c := by
  cases c <;> simp [violates]

/-- CHECK finds the first cause of the table whose condition holds, for every byte in `CMD` (43_tiled_engine R182,
40_quantization_codec R137). -/
theorem checkCause_eq_firstViolated : checkCause p op r = firstViolated p op r rejectCauses := by
  unfold checkCause
  split_ifs with h1 h2 h3
  · rw [h1, quantCause_eq_firstViolated]
  · rw [h2, firstViolated_eq_none deq_not_violates]
  · rw [h3, gemmCause_eq_firstViolated]
  · rw [rejectCauses, firstViolated_cons, if_pos ⟨h1, h2, h3⟩]

theorem checkOp_of_pass (h : checkCause p op s.regs = none) : checkOp p op s = latched op s := by
  rw [checkOp, h]
  rfl

theorem checkOp_of_reject (h : checkCause p op s.regs = some c) : checkOp p op s = raiseReject c s := by
  rw [checkOp, h]

theorem checkOp_scr (p : Params) (op : Byte) (s : State) : (checkOp p op s).scr = s.scr := by
  rcases checkOp_cases p op s with ⟨c, -, h⟩ | ⟨-, h⟩ <;> rw [h] <;> rfl

theorem checkOp_env (p : Params) (op : Byte) (s : State) : (checkOp p op s).env = s.env := by
  rcases checkOp_cases p op s with ⟨c, -, h⟩ | ⟨-, h⟩ <;> rw [h] <;> rfl

/-- Settles O16: CHECK finds the first cause of the table whose condition holds, and the table is in the order of the
codes. -/
theorem checkRejectsLowestCause : Obligations.CheckRejectsLowestCause := by
  intro s
  refine ⟨checkOp Config.params s.regs.cmd s, rfl, checkOp_bufs .., checkOp_scr .., checkOp_env .., fun hpass => ?_,
    fun c hc hlow => ?_⟩
  · rw [checkOp_of_pass (checkCause_eq_firstViolated.trans (firstViolated_eq_none hpass _))]
    exact ⟨rfl, rfl⟩
  · rw [checkOp_of_reject (checkCause_eq_firstViolated.trans (firstViolated_eq_some hc hlow))]
    exact ⟨rfl, rfl⟩

/-! ### Waiting -/

/-- Settles O5: without a host action it is the block's turn, and with nothing issued and no command running the block
keeps the state. -/
theorem idleBlockWaits : Obligations.IdleBlockWaits := by
  intro s hscript hissue hstatus
  rw [step_of_nil hscript, blockStep, hissue]
  exact if_neg (by simpa [busy] using hstatus)

end Sys2Proof.Machine
end

section
/-!
PROOFS. The host kept off a running command (70_reset R264, R265, R266; 30_encoding R107), and the reset event between
commands and in mid-command (70_reset R260): a command unwrites no byte, so that a reset in mid-command leaves each
element whole.
-/
namespace Sys2Proof.Machine

variable {p : Params} {s t : State} {m m' m'' : Bufs} {b : Buf}

/-! ### While BUSY the host is refused -/

theorem hostWrite_of_busy (hs : s.regs.status = .busy) (x : CtrlReg) (v : Nat) :
    hostWrite x v s = .refused .registerWriteWhileBusy := by
  rw [hostWrite, busy_iff.2 hs, refuseIf_true]

theorem hostStore_of_busy (hs : s.regs.status = .busy) (b : Buf) (i v : Nat) :
    hostStore b i v s = .refused .accessWhileBusy := by
  rw [hostStore, busy_iff.2 hs, refuseIf_true]

theorem hostLoad_of_busy (hs : s.regs.status = .busy) (b : Buf) (i : Nat) :
    hostLoad b i s = .refused .accessWhileBusy := by
  rw [hostLoad, busy_iff.2 hs, refuseIf_true]

/-- The output of a running DEQ is not to be read (93_implementation_defined U10). -/
theorem hostRead_dqOut_of_running_deq (hs : s.regs.status = .busy) (hcmd : s.regs.cmd = 0x02) :
    hostRead .dqOut s = .refused .accessWhileBusy := by
  rw [hostRead, busy_iff.2 hs, decide_eq_true hcmd, decide_eq_true rfl]
  rfl

/-- Settles O11: the step is the host's action on the state with the action taken off the script, which is BUSY
still. -/
theorem hostKeepsOffWhileBusy : Obligations.HostKeepsOffWhileBusy := by
  intro s rest hs
  have hdrop : (dropEvent s).regs.status = .busy := hs
  refine ⟨fun x v hd => ?_, fun b i v hd => ?_, fun b i hd => ?_, fun hcmd hd => ?_⟩
  · exact (step_of_cons hd).trans (hostWrite_of_busy hdrop x v)
  · exact (step_of_cons hd).trans (hostStore_of_busy hdrop b i v)
  · exact (step_of_cons hd).trans (hostLoad_of_busy hdrop b i)
  · exact (step_of_cons hd).trans (hostRead_dqOut_of_running_deq hdrop hcmd)

/-! ### The reset event -/

theorem step_reset {rest : List HostEvent} (hd : s.env.script = .reset :: rest) :
    step s = .next (resetBlock (resetBufs (dropEvent s)) (dropEvent s)) := step_of_cons hd

theorem resetBufs_of_not_busy (hs : s.regs.status ≠ .busy) : resetBufs s = s.bufs := by
  rw [resetBufs, busy_eq_false_iff.2 hs, if_neg Bool.false_ne_true]

theorem resetBufs_of_busy (hs : s.regs.status = .busy) :
    resetBufs s = abandonedBufs s.env.resets s.env.atStart (commandResult s) := by
  rw [resetBufs, if_pos (busy_iff.2 hs)]

/-- Settles O14: the step is `resetBlock`, and between commands it is given the buffers as they stand. -/
theorem resetEventRestoresBlock : Obligations.ResetEventRestoresBlock := by
  intro s rest hs hd
  have hbufs : resetBufs (dropEvent s) = s.bufs := resetBufs_of_not_busy (s := dropEvent s) hs
  have hstep := step_reset hd
  rw [hbufs, dropEvent_eq hd] at hstep
  exact ⟨_, hstep, rfl, rfl, rfl, rfl, rfl⟩

/-! ### No operation unwrites a byte -/

/-- Every byte written in the first buffers is written in the second. -/
def KeepsWritten (m m' : Bufs) : Prop :=
  ∀ b a, cellHas (w := 8) (m.get b) a = true → cellHas (w := 8) (m'.get b) a = true

theorem KeepsWritten.of_eq (h : m' = m) : KeepsWritten m m' := fun _ _ hw => h ▸ hw

theorem KeepsWritten.trans (h : KeepsWritten m m') (h' : KeepsWritten m' m'') : KeepsWritten m m'' :=
  fun b a hw => h' b a (h b a hw)

/-- A bulk write, and so the write of one cell, adds to what is written. -/
theorem KeepsWritten.store (m : Bufs) (b : Buf) (l : List (Nat × Byte)) :
    KeepsWritten m (m.put b (cellStore (w := 8) (m.get b) l)) := by
  intro c a hw
  by_cases hc : c = b
  · subst hc
    rw [cellHas] at hw
    rw [Bufs.get_put_same, cellHas, cellGet_cellStore, Option.isSome_or, hw, Bool.or_true]
  · rwa [Bufs.get_put_ne _ _ hc]

theorem MicroStep.keepsWritten (hstep : MicroStep p s t) : KeepsWritten s.bufs t.bufs := by
  cases hstep with
  | storeScale h =>
    obtain ⟨-, rfl⟩ := storeScale_eq_next.1 h
    exact .store s.bufs .sc [(_, _)]
  | qpair h =>
    obtain ⟨-, -, -, -, -, rfl⟩ := qpairOp_eq_next.1 h
    exact .store s.bufs .pw [(_, _)]
  | tstore h =>
    obtain ⟨-, -, -, rfl⟩ := tstoreOp_eq_next.1 h
    exact .store s.bufs .out _
  | qscale h => exact .of_eq (qscaleOp_bufs h)
  | loada h => exact .of_eq (loadaOp_bufs h)
  | loadw h => exact .of_eq (loadwOp_bufs h)
  | tcopy h => exact .of_eq (tcopyOp_bufs h)
  | mac h => exact .of_eq (macOp_bufs h)
  | bumpPair | nibsel | aclr | setTile | bumpTile => exact .of_eq rfl

theorem BlockUpdate.keepsWritten (hstep : BlockUpdate p s t) : KeepsWritten s.bufs t.bufs := by
  cases hstep with
  | micro hstep => exact hstep.keepsWritten
  | _ => exact .of_eq rfl

theorem BlockUpdates.keepsWritten (h : BlockUpdates p s t) : KeepsWritten s.bufs t.bufs :=
  chain_keeps (I := fun u => KeepsWritten s.bufs u.bufs) (fun _ _ hstep hs => hs.trans hstep.keepsWritten) h
    (.of_eq rfl)

/-! ### What an abandoned command leaves -/

theorem wouldWrite_keepsWritten (h : wouldWrite s = .next t) : KeepsWritten s.env.atStart t.bufs := by
  simp only [wouldWrite] at h
  split_ifs at h
  · exact BlockUpdates.keepsWritten (quantOp_updates h)
  · exact BlockUpdates.keepsWritten (gemmOp_updates h)
  · cases h
    exact .of_eq rfl

theorem anyOutput_keepsWritten (s : State) : KeepsWritten s.env.atStart (anyOutput s) := by
  simp only [anyOutput]
  split_ifs
  · exact (KeepsWritten.store s.env.atStart .pw _).trans (.store _ .sc _)
  · exact .store s.env.atStart .out _
  · exact .of_eq rfl

theorem commandResult_of_next (h : wouldWrite s = .next t) : commandResult s = t.bufs := by
  rw [commandResult, h]

theorem commandResult_of_no_result (h : ∀ u, wouldWrite s ≠ .next u) : commandResult s = anyOutput s := by
  unfold commandResult
  split
  · next u hu => exact absurd hu (h u)
  all_goals rfl

theorem commandResult_keepsWritten (s : State) : KeepsWritten s.env.atStart (commandResult s) := by
  by_cases h : ∃ u, wouldWrite s = .next u
  · obtain ⟨u, hu⟩ := h
    exact commandResult_of_next hu ▸ wouldWrite_keepsWritten hu
  · exact commandResult_of_no_result (not_exists.1 h) ▸ anyOutput_keepsWritten s

theorem anyBytes_get_beyond {n len a : Nat} (old : Memory) (h : len ≤ a) :
    cellGet (w := 8) (anyBytes n b len old) a = cellGet (w := 8) old a := by
  rw [anyBytes_get, if_neg (Nat.not_lt.2 h)]

/-- A command without a result leaves open its own output buffers, within their lengths (40_quantization_codec R134;
log 13). -/
theorem anyOutput_get_outside {a : Nat}
    (h : isOutput s.regs.cmd b = false ∨ elemSize b * s.regs.len b ≤ a) :
    cellGet (w := 8) ((anyOutput s).get b) a = cellGet (w := 8) (s.env.atStart.get b) a := by
  simp only [anyOutput]
  split_ifs with hquant hgemm
  · cases b with
    | wf | act | out => rfl
    | pw | sc => exact anyBytes_get_beyond _ (by simpa [isOutput, hquant, elemSize] using h)
  · cases b with
    | wf | act | pw | sc => rfl
    | out => exact anyBytes_get_beyond _ (by simpa [isOutput, hgemm, elemSize] using h)
  · rfl

theorem anyOutput_byte {a : Nat} (hb : b ∈ [Buf.pw, .sc]) (h : s.regs.cmd ≠ 0x01 ∨ s.regs.len b ≤ a) :
    (anyOutput s).byte b a = s.env.atStart.byte b a := by
  have hout : isOutput s.regs.cmd b = false ∨ elemSize b * s.regs.len b ≤ a := by
    fin_cases hb <;> simpa [isOutput, elemSize] using h
  rw [Bufs.byte, anyOutput_get_outside hout, Bufs.byte]

/-- A word is its four bytes (20_memory R62). -/
theorem word_eq_of_bytes_eq {i : Nat} (h : ∀ a, a / 4 = i → m.byte b a = m'.byte b a) : m.word b i = m'.word b i := by
  rw [Bufs.word, Bufs.word, h (4 * i) (by omega), h (4 * i + 1) (by omega), h (4 * i + 2) (by omega),
    h (4 * i + 3) (by omega)]

theorem anyOutput_word {o : Nat} (h : s.regs.cmd ≠ 0x03 ∨ s.regs.len .out ≤ o) :
    (anyOutput s).word .out o = s.env.atStart.word .out o := by
  refine word_eq_of_bytes_eq fun a ha => ?_
  have hout : isOutput s.regs.cmd .out = false ∨ elemSize .out * s.regs.len .out ≤ a := by
    simp only [isOutput, elemSize, decide_eq_false_iff_not]
    exact h.imp_right fun hlen => by omega
  rw [Bufs.byte, anyOutput_get_outside hout, Bufs.byte]

/-! ### The buffers after a reset in mid-command -/

/-- A byte that stays without a written value reads the same, so that an element found written is the new one whole
(93_implementation_defined U13). -/
theorem mixMemory_getD {n a : Nat} (hkeep : KeepsWritten m m') (v : Byte) :
    (cellGet (w := 8) (mixMemory n b (m.get b) (m'.get b)) a).getD v =
      if Config.resetFindsWritten n (bufNumber b) (a / elemSize b) then (cellGet (w := 8) (m'.get b) a).getD v
      else (cellGet (w := 8) (m.get b) a).getD v := by
  rw [mixMemory_get]
  split
  · cases hnew : cellGet (w := 8) (m'.get b) a with
    | some x => rfl
    | none =>
      have hold : ¬cellHas (w := 8) (m.get b) a = true := fun hw => by simpa [cellHas, hnew] using hkeep b a hw
      rw [Option.none_or, Option.not_isSome_iff_eq_none.1 hold]
  · rfl

theorem resetBufs_inputs (hs : s.regs.status = .busy) :
    (resetBufs s).wf = s.env.atStart.wf ∧ (resetBufs s).act = s.env.atStart.act := by
  rw [resetBufs_of_busy hs]
  exact ⟨rfl, rfl⟩

/-- Each byte of an output buffer is the one the command would have written or the one at the `CMD` write, one choice
for its whole element (70_reset R260). -/
theorem resetBufs_byte (hs : s.regs.status = .busy) (hb : b ∈ [Buf.pw, .sc, .out]) (a : Nat) :
    (resetBufs s).byte b a = if Config.resetFindsWritten s.env.resets (bufNumber b) (a / elemSize b)
      then (commandResult s).byte b a else s.env.atStart.byte b a := by
  have hget : (resetBufs s).get b =
      mixMemory s.env.resets b (s.env.atStart.get b) ((commandResult s).get b) := by
    rw [resetBufs_of_busy hs]
    fin_cases hb <;> rfl
  rw [Bufs.byte, hget, mixMemory_getD (commandResult_keepsWritten s)]
  rfl

theorem resetBufs_word (hs : s.regs.status = .busy) (o : Nat) :
    (resetBufs s).word .out o = if Config.resetFindsWritten s.env.resets (bufNumber .out) o
      then (commandResult s).word .out o else s.env.atStart.word .out o := by
  have hbyte (a : Nat) (ha : a / 4 = o) := ha ▸ resetBufs_byte hs (b := .out) (by decide) a
  split
  · next hfound => exact word_eq_of_bytes_eq fun a ha => (hbyte a ha).trans (if_pos hfound)
  · next hfound => exact word_eq_of_bytes_eq fun a ha => (hbyte a ha).trans (if_neg hfound)

/-- Settles O15: the step is `resetBlock` on the mixed buffers, in which each element is drawn whole from the buffers at
the `CMD` write or from the command's result. -/
theorem resetAbandonsCommand : Obligations.ResetAbandonsCommand := by
  intro s rest hs hd
  have hdrop : (dropEvent s).regs.status = .busy := hs
  have hbyte {b : Buf} (hb : b ∈ [Buf.pw, .sc]) := resetBufs_byte hdrop (List.mem_append_left [.out] hb)
  obtain ⟨hwf, hact⟩ := resetBufs_inputs hdrop
  refine ⟨_, step_reset hd, rfl, rfl, rfl, congrArg List.tail hd, hwf, hact,
    fun u hu => ⟨fun b hb a => ?_, fun o => ?_⟩, fun hno => ⟨fun b hb a ha => ?_, fun o ho => ?_⟩⟩
  · rw [resetBlock_bufs, hbyte hb, commandResult_of_next hu]
    exact (ite_eq_or_eq ..).symm
  · rw [resetBlock_bufs, resetBufs_word hdrop, commandResult_of_next hu]
    exact (ite_eq_or_eq ..).symm
  · rw [resetBlock_bufs, hbyte hb, commandResult_of_no_result hno, anyOutput_byte (s := dropEvent s) hb ha]
    exact ite_self _
  · rw [resetBlock_bufs, resetBufs_word hdrop, commandResult_of_no_result hno, anyOutput_word (s := dropEvent s) ho]
    exact ite_self _

end Sys2Proof.Machine
end
